-- ==== Sys2Proof/Word.lean ====
section
/-! DEFINITION. Word: the two bit widths every other file speaks of. ROM bytes and 8-bit registers are
`Byte`; addresses, durations, command words and bus data are `Word` (R11, R20, R60). All are unsigned. -/

namespace Sys2Proof

/-- A ROM byte or an 8-bit register. -/
abbrev Byte := BitVec 8

/-- A ROM address, a duration, a command word or the data of a host transaction. -/
abbrev Word := BitVec 16

end Sys2Proof
end

