-- ==== Sys2Proof/Syntax.lean ====
section
/-! DEFINITION. Syntax: the nine commands of R82, one constructor for each row of the opcode table. -/

namespace Sys2Proof

/-- A command, as a word written to CMD issues it (R80, R82). -/
inductive Instr
  /-- SETPTR: the cursor to ADDR with an empty buffer (R110). -/
  | setptr
  /-- READ_BITS n: n bits of the stream into DATA (R112); n is the word's field N. -/
  | readBits (n : Nat)
  /-- CLRBUF: discard the unread bits (R116). -/
  | clrbuf
  /-- LOAD: take the code record at ADDR (R130). -/
  | load
  /-- NEXT: decode the next pair (R135). -/
  | next
  /-- ARM: configure the carrier generator (R150). -/
  | arm
  /-- EMIT: output one on/off pair (R152). -/
  | emit
  /-- DISARM: stop the carrier generator (R154). -/
  | disarm
  /-- PLAY: play one code (R180). -/
  | play
  deriving DecidableEq, Repr

end Sys2Proof
end

