-- ==== Sys2Proof/WellFormed.lean ====
section
/-! DEFINITION. WellFormed: which commands a word can spell. The one operand is READ_BITS' count, a 4-bit field
(R80). A count of 0 or 9..15 is a legal spelling with an illegal operand (R83), so it is well formed here and its
meaning takes BAD_COUNT (R238). -/

namespace Sys2Proof

/-- The operand fits the field the encoding gives it (R80). -/
def Instr.wf : Instr → Bool
  | .readBits n => decide (n < 16)
  | .setptr | .clrbuf | .load | .next | .arm | .emit | .disarm | .play => true

end Sys2Proof
end

