-- ==== Sys2Proof/Decode.lean ====
section
/-! DEFINITION. Decode: a CMD word to a command, total, with illegal words rejected by name (R83), and the encoder
(R82). A command is one 16-bit word carried by one bus write (R80, R200), so there is no byte order here. -/

namespace Sys2Proof

/-- Why a CMD word is illegal (R83). Every one of them is the fault ILLEGAL_CMD (R237). -/
inductive Illegal
  /-- OP is 0x0 or in 0xA..0xF. -/
  | reservedOp
  /-- RSV is not 0. -/
  | reservedBits
  /-- N is not 0 with an OP other than READ_BITS. -/
  | operandNotZero
  deriving DecidableEq, Repr

/-- `OP = CMD[15:12]` (R80). -/
def opField (w : Word) : BitVec 4 := w.extractLsb' 12 4

/-- `RSV = CMD[11:4]` (R80). -/
def rsvField (w : Word) : BitVec 8 := w.extractLsb' 4 8

/-- `N = CMD[3:0]` (R80). -/
def nField (w : Word) : BitVec 4 := w.extractLsb' 0 4

/-- The command an OP other than READ_BITS stands for (R82). -/
def plainOp (op : BitVec 4) : Option Instr :=
  match op.toNat with
  | 0x1 => some .setptr
  | 0x3 => some .clrbuf
  | 0x4 => some .load
  | 0x5 => some .next
  | 0x6 => some .arm
  | 0x7 => some .emit
  | 0x8 => some .disarm
  | 0x9 => some .play
  | _ => none

/-- The command a CMD word issues, or the reason it is illegal (R82, R83). -/
def decode (w : Word) : Except Illegal Instr :=
  if rsvField w ≠ 0#8 then .error .reservedBits
  else if opField w = 2#4 then .ok (.readBits (nField w).toNat)
  else
    match plainOp (opField w) with
    | none => .error .reservedOp
    | some i => if nField w = 0#4 then .ok i else .error .operandNotZero

/-- The word of a command (R82). -/
def encode : Instr → Word
  | .setptr => 0x1000#16
  | .readBits n => 0x2000#16 + BitVec.ofNat 16 n
  | .clrbuf => 0x3000#16
  | .load => 0x4000#16
  | .next => 0x5000#16
  | .arm => 0x6000#16
  | .emit => 0x7000#16
  | .disarm => 0x8000#16
  | .play => 0x9000#16

/-- The command the decoder reads from the low `nbits` bits of `w`, the bits above them being 0; `none` where it
rejects the word. -/
def decodeTableWord (nbits w : Nat) : Option Instr :=
  match decode (BitVec.ofNat 16 (w % 2 ^ nbits)) with
  | .ok i => some i
  | .error _ => none

end Sys2Proof
end

