-- ==== Sys2Proof/Config.lean ====
section
/-! DEFINITION. Config: what an implementation fixes (the parameters of R10) and the one value the spec leaves
open for every run (the carrier phase, R161). The parameters are plain data carried by the state, so that a
theorem about every state is a theorem about every parameter choice (log 3). -/

namespace Sys2Proof.Config

/-- The parameters of R10 and, for the host, of R206 and R207. Two of them are held less one, so that no value of
the field lies outside the range R10 gives. -/
structure Params where
  /-- The address of the last ROM byte: `ROM_SIZE - 1`, so `1 ≤ ROM_SIZE ≤ 65536` (R10). -/
  lastRomAddr : Word
  /-- `TICK_CYCLES - 1`, so `TICK_CYCLES ≥ 1` (R10). -/
  tickExtra : Nat
  /-- `TICK_US`, the duration unit in microseconds (R10, R155). -/
  tickUs : Nat
  /-- `F_CLK` in Hz (R10). -/
  fClk : Nat
  /-- `F_CAR` in Hz (R10). -/
  fCar : Nat
  /-- The entries of `car_half` a platform overrides, each `(cp, car_half cp - 1)`; a period that is not listed
  has the default of R160. -/
  carHalfTable : List (Byte × Nat)
  /-- The first of the host's two code lists, by record address (R206). -/
  db0 : List Word
  /-- The second of the host's two code lists (R206). -/
  db1 : List Word
  /-- `PAUSE_MS`, the host's pause between codes (R207). -/
  pauseMs : Nat
  deriving DecidableEq, Repr

/-- The parameters State.reset carries: the spec's default where it gives one (TICK_US 10, `car_half cp = cp + 1`,
PAUSE_MS 250), and for an OPEN parameter the value of logs 5, 6 and 8. DESIGN CHOICE. -/
def Params.default : Params where
  lastRomAddr := 0xFFFF#16
  tickExtra := 0
  tickUs := 10
  fClk := 100000
  fCar := 100000
  carHalfTable := []
  db0 := []
  db1 := []
  pauseMs := 250

/-- FREE VALUE (R161, U7): how many `car_clk` cycles pass before the n-th micro-step that runs as a whole. It has
no body, so no proof can rest on a number; the carrier's level and count at the start of an on phase come from it
(log 11). -/
opaque carrierDraw : Nat → Nat

end Sys2Proof.Config
end

