-- ==== Sys2Proof/Machine/State.lean ====
section
/-! DEFINITION. State: everything the spec gives the machine (R20 to R49), the run's parameters (R10), the
observation (R46), and the other agents' state (R8). All of it is plain data. The reasons a step can stop and the
state after reset (R49) stand here too. -/

namespace Sys2Proof.Machine

/-- The sixteen host-visible registers, in the order of their numbers (R20). -/
inductive Reg
  | cmd | status | addr | data | carrier | pairs | width | ttbase
  | ptr | buf | on | off | index | ttlim | finfo | carlat
  deriving DecidableEq, Repr

/-- The values of `S.seq` (R44). -/
inductive Seq
  | idle | emitOn | emitOff | playLoad | playArm | playNext | playOn | playOff | playClr | playDisarm | halted
  deriving DecidableEq, Repr

/-- The fault codes 1 to 8 (R230). They are the block's own faults: taking one is a next state (R240). -/
inductive FaultCode
  | illegalCmd | badCount | badWidth | noPairs | romRange | indexRange | notArmed | busyViolation
  deriving DecidableEq, Repr

/-- A fault about to be taken, `raise F(info)` (R15): its code and what FINFO records (R230). -/
structure Trap where
  code : FaultCode
  info : Word
  deriving DecidableEq, Repr

/-- One event of the observation trace (R46) or of the host trace (R212). Both are kept in one list, in time
order. -/
inductive Obs
  /-- `Arm(cp)` (R46). -/
  | arm (cp : Byte)
  /-- `Emit(on, off, use_carrier, cp)` (R46). -/
  | emit (on off : Word) (useCarrier : Bool) (cp : Byte)
  /-- `Disarm` (R46). -/
  | disarm
  /-- `Fault(fcode, finfo)` (R46). -/
  | fault (fcode : BitVec 4) (finfo : Word)
  /-- `Reset` (R46). -/
  | reset
  /-- The host's `Feedback` (R212). -/
  | feedback
  /-- The host's `Pause(ms)` (R212). -/
  | pause (ms : Nat)
  deriving DecidableEq, Repr

/-- One line of a host program (R92, R93, and the loops of R204 and R207). -/
inductive HostLine
  /-- `WR r, v` (R92); `CMD m` is a write of the command's word to CMD. -/
  | wr (r : Reg) (v : Word)
  /-- `RD r` (R92). -/
  | rd (r : Reg)
  /-- `WAIT`: read STATUS, again while BUSY (R93). -/
  | wait
  /-- `RD STATUS`, and stop the program if FAULT is 1 (R207, R210). -/
  | stopIfFault
  /-- Read PAIRS, then that many times NEXT, EMIT, WAIT (R204). -/
  | pairLoop
  /-- `FEEDBACK` (R93). -/
  | feedback
  /-- `PAUSE ms` (R93). -/
  | pause (ms : Nat)
  deriving DecidableEq, Repr

/-- Which agent moves next (log 2). -/
inductive Turn
  /-- The host runs the next line of its program. -/
  | host
  /-- The block completes its current micro-step (R44), however many cycles it takes. -/
  | micro
  /-- One `clk` cycle passes in the block's current micro-step. -/
  | clk
  /-- One `car_clk` cycle passes (R160). -/
  | carClk
  /-- A wake event reaches the host (R209). -/
  | wake
  /-- `rst` rises: the block is reset and held (R250, log 13). -/
  | rstHigh
  /-- `rst` falls (R250, log 13). -/
  | rstLow
  deriving DecidableEq, Repr

/-- The registers that hold a value of their own (R20); CMD, STATUS, PTR, BUF and FINFO are views of other state. -/
structure Regs where
  addr : Word
  data : Byte
  carrier : Byte
  pairs : Byte
  width : Byte
  ttbase : Word
  on : Word
  off : Word
  index : Byte
  ttlim : Word
  carlat : Byte
  deriving DecidableEq, Repr

/-- The Bit Reader Cursor (R30). -/
structure Cursor where
  /-- `S.ptr`: the address of the next byte to fetch. -/
  ptr : Word
  /-- `S.bbyte`: the most recently fetched byte. -/
  bbyte : Byte
  /-- `S.nbits`: how many low-order bits of `bbyte` are unread. -/
  nbits : BitVec 4
  deriving DecidableEq, Repr

/-- The per-phase emitter state (R40) and the carrier generator (R41). -/
structure Emitter where
  /-- `S.flag`: the carrier flag of the pair being output. -/
  flag : Bool
  /-- `S.dcnt`: the units still to run in the current phase. -/
  dcnt : Word
  /-- `S.pre`: the unit prescaler. -/
  pre : Nat
  /-- `S.armed`: the generator is configured. -/
  armed : Bool
  /-- `S.ccnt`: `car_clk` cycles counted in the current half-period. -/
  ccnt : Nat
  /-- `S.clevel`: the carrier's level. -/
  clevel : Bool
  deriving DecidableEq, Repr

/-- The fault record: STATUS.FAULT, STATUS.FCODE and FINFO (R23, R38). -/
structure FaultRecord where
  fault : Bool
  fcode : BitVec 4
  finfo : Word
  deriving DecidableEq, Repr

/-- The other agents: the schedule, the host and what it has read, the reset input, and the draw counter. -/
structure Env where
  /-- The MODEL's own: whose turn comes next; where it is empty the system runs by itself (log 2). -/
  schedule : List Turn
  /-- What is left of the host's program (R92). -/
  prog : List HostLine
  /-- Wake events not yet acted on (R209, log 10). -/
  wakes : Nat
  /-- The results of the host's reads, oldest first (R19). -/
  reads : List Word
  /-- The level of the input `rst` (R9, R250). -/
  rst : Bool
  /-- The MODEL's own: how many free values have been drawn (log 11). -/
  draws : Nat
  deriving DecidableEq, Repr

/-- The machine. -/
structure State where
  regs : Regs
  cursor : Cursor
  emitter : Emitter
  seq : Seq
  flt : FaultRecord
  /-- The ROM image: addresses strictly rising, no 0x00 byte listed; an unlisted address reads 0x00 (log 4). -/
  rom : List Host.Cell
  params : Config.Params
  /-- The observation trace and the host trace merged, oldest event first (R46, R212). -/
  trace : List Obs
  env : Env
  deriving DecidableEq, Repr

/-- The ways a step can stop without a next state. There are none: every fault of R230 has an entry the spec
describes (R240) and is a NEXT state, and every other step completes. Nobody raises it; safe (log 12). -/
inductive Fault
  deriving DecidableEq, Repr

/-- The ways a step can be refused. -/
inductive Refusal
  /-- An instruction that has no meaning yet. No arm of exec raises it: all nine commands have their meaning. Safe. -/
  | notModelled (mnemonic : String)
  deriving DecidableEq, Repr

/-! The named updates: one for each top-level field. Laws/State.lean says what each leaves alone. -/

def State.setRegs (s : State) (r : Regs) : State := { s with regs := r }
def State.setCursor (s : State) (c : Cursor) : State := { s with cursor := c }
def State.setEmitter (s : State) (e : Emitter) : State := { s with emitter := e }
def State.setSeq (s : State) (q : Seq) : State := { s with seq := q }
def State.setFlt (s : State) (f : FaultRecord) : State := { s with flt := f }
def State.setEnv (s : State) (v : Env) : State := { s with env := v }
/-- `emit_event(e)` (R15, R46): append one event to the trace. -/
def State.log (s : State) (o : Obs) : State := { s with trace := s.trace ++ [o] }

/-- The registers after reset (R49). -/
def Regs.reset : Regs where
  addr := 0#16
  data := 0#8
  carrier := 0#8
  pairs := 0#8
  width := 0#8
  ttbase := 0#16
  on := 0#16
  off := 0#16
  index := 0#8
  ttlim := 0#16
  carlat := 0#8

/-- The cursor after reset: the empty buffer (R49). -/
def Cursor.reset : Cursor where
  ptr := 0#16
  bbyte := 0#8
  nbits := 0#4

/-- The emitter after reset (R49). -/
def Emitter.reset : Emitter where
  flag := false
  dcnt := 0#16
  pre := 0
  armed := false
  ccnt := 0
  clevel := false

/-- The fault record after reset (R49). -/
def FaultRecord.reset : FaultRecord where
  fault := false
  fcode := 0#4
  finfo := 0#16

/-- No turn, no host program, no wake, nothing read, nothing drawn: DESIGN CHOICE (logs 1, 9, 10 and 11). `rst` has
fallen (R250). -/
def Env.reset : Env where
  schedule := []
  prog := []
  wakes := 0
  reads := []
  rst := false
  draws := 0

/-- The machine right after reset (R49, R251): IDLE, every register 0, the trace empty, nothing listed in the ROM. -/
def State.reset : State where
  regs := .reset
  cursor := .reset
  emitter := .reset
  seq := .idle
  flt := .reset
  rom := []
  params := .default
  trace := []
  env := .reset

end Sys2Proof.Machine
end

