-- ==== Sys2Proof/Machine/Flags.lean ====
section
/-! DEFINITION. Flags: the STATUS bits (R23, R43), the words of the view registers STATUS and BUF (R23, R32), the
carrier flag (R26, R90) and the output level (R47). -/

namespace Sys2Proof.Machine

/-- BUSY: `S.seq` is neither IDLE nor HALTED (R23, R44). -/
def Seq.busy : Seq → Bool
  | .idle | .halted => false
  | .emitOn | .emitOff | .playLoad | .playArm | .playNext | .playOn | .playOff | .playClr | .playDisarm => true

/-- PHASE_ON: `S.seq` is EMIT_ON or PLAY_ON (R23, R43). -/
def Seq.phaseOn : Seq → Bool
  | .emitOn | .playOn => true
  | .idle | .emitOff | .playLoad | .playArm | .playNext | .playOff | .playClr | .playDisarm | .halted => false

/-- The states that last a given number of units: the on and off phases (R45). -/
def Seq.isPhase : Seq → Bool
  | .emitOn | .emitOff | .playOn | .playOff => true
  | .idle | .playLoad | .playArm | .playNext | .playClr | .playDisarm | .halted => false

/-- STATUS.BUSY. -/
def State.busy (s : State) : Bool := s.seq.busy

/-- STATUS.PHASE_ON. -/
def State.phaseOn (s : State) : Bool := s.seq.phaseOn

/-- The block takes a host write: it is not held in reset (R250), FAULT = 0 and BUSY = 0 (R202, R234). -/
def State.ready (s : State) : Bool := !s.env.rst && !s.flt.fault && !s.busy

/-- STATUS as the host reads it: `FCODE[7:4] PHASE_ON[3] ARMED[2] FAULT[1] BUSY[0]` (R23). -/
def State.statusWord (s : State) : Word :=
  0#8 ++ s.flt.fcode ++ BitVec.ofBool s.phaseOn ++ BitVec.ofBool s.emitter.armed
    ++ BitVec.ofBool s.flt.fault ++ BitVec.ofBool s.busy

/-- BUF as the host reads it: `S.nbits` in bits 11:8, `S.bbyte` in bits 7:0 (R32). -/
def State.bufWord (s : State) : Word := 0#4 ++ s.cursor.nbits ++ s.cursor.bbyte

/-- `use_carrier = (CARRIER != 0)` (R26, R90). -/
def State.useCarrier (s : State) : Bool := s.regs.carrier != 0#8

/-- The generator can make a carrier: ARMED and CARLAT nonzero (R160, R243). -/
def State.carrierRuns (s : State) : Bool := s.emitter.armed && s.regs.carlat != 0#8

/-- `ir_out` (R47). -/
def State.irOut (s : State) : Bool :=
  s.phaseOn && (if s.emitter.flag then s.emitter.clevel else true)

end Sys2Proof.Machine
end

