-- ==== Sys2Proof/Machine/Ops.lean ====
section
/-! DEFINITION. Ops: the named operations over memory and registers. The ROM image and its byte reads (R14, R60,
R67), the register file as the host sees it (R20, R21), taking a fault (R240) and the one way back, reset (R250),
and the acceptance check of every host write (R202, R234). -/

namespace Sys2Proof.Machine

/-! ## The ROM image -/

/-- The byte at an address; an address that is not listed reads 0x00 (log 4). -/
def Memory.read : List Host.Cell → Nat → Byte
  | [], _ => 0#8
  | c :: cs, a => if c.1 = a then c.2 else Memory.read cs a

/-- Put a byte at an address, keeping the canonical form. The block has no such path (R60): this builds images. -/
def Memory.write : List Host.Cell → Nat → Byte → List Host.Cell
  | [], a, b => if b = 0#8 then [] else [(a, b)]
  | c :: cs, a, b =>
    if a < c.1 then (if b = 0#8 then c :: cs else (a, b) :: c :: cs)
    else if a = c.1 then (if b = 0#8 then cs else (a, b) :: cs)
    else c :: Memory.write cs a b

/-- Put bytes at consecutive addresses from `a` up. -/
def Memory.load (m : List Host.Cell) (a : Nat) : List Byte → List Host.Cell
  | [] => m
  | b :: bs => Memory.load (Memory.write m a b) (a + 1) bs

/-- The canonical form: addresses strictly rising, and no byte listed that an unlisted address reads as. -/
abbrev Memory.wf (m : List Host.Cell) : Prop := m.Pairwise (fun x y => x.1 < y.1) ∧ ∀ c ∈ m, c.2 ≠ 0#8

/-- `ROM_SIZE` (R10). -/
def romSize (p : Config.Params) : Nat := p.lastRomAddr.toNat + 1

/-- `TICK_CYCLES` (R10). -/
def tickCycles (p : Config.Params) : Nat := p.tickExtra + 1

/-- `MemRead(a, 1)`: the byte, or ROM_RANGE with the address (R14, R67, R232). -/
def memRead (s : State) (a : Word) : Except Trap Byte :=
  if a.toNat < romSize s.params then .ok (Memory.read s.rom a.toNat) else .error ⟨.romRange, a⟩

/-- `MemRead(a, 2)`: little-endian, two byte reads, the lower address first (R14, R64). -/
def memRead2 (s : State) (a : Word) : Except Trap Word :=
  (memRead s a).bind fun lo => (memRead s (a + 1#16)).bind fun hi => .ok (hi ++ lo)

/-! ## Faults and reset -/

/-- FCODE of a fault (R230). -/
def FaultCode.num : FaultCode → BitVec 4
  | .illegalCmd => 1#4
  | .badCount => 2#4
  | .badWidth => 3#4
  | .noPairs => 4#4
  | .romRange => 5#4
  | .indexRange => 6#4
  | .notArmed => 7#4
  | .busyViolation => 8#4

/-- Fault entry, `raise F(info)` (R240): `s` is the state before the faulting micro-step, so nothing of that
micro-step is kept (R241). -/
def raise (t : Trap) (s : State) : State :=
  ((s.setFlt ⟨true, t.code.num, t.info⟩).setSeq .halted).log (.fault t.code.num t.info)

/-- Commit a micro-step, or take the fault it raised in the state before it (R240, R241). -/
def commit (s : State) : Except Trap State → State
  | .ok s' => s'
  | .error t => raise t s

/-- `rst` rises (R250), the only way out of HALTED (R240): every piece of block state to its value of R49. The trace so
far, the ROM, the parameters, the host and the schedule stay. -/
def applyReset (s : State) : State :=
  (((((s.setRegs .reset).setCursor .reset).setEmitter .reset).setSeq .idle).setFlt .reset).setEnv
    { s.env with rst := true }

/-- `rst` falls (R250): one `Reset` event, if it was high. -/
def releaseReset (s : State) : State :=
  if s.env.rst then (s.setEnv { s.env with rst := false }).log .reset else s

/-! ## The register file as the host sees it -/

/-- The register's number (R20). -/
def Reg.num : Reg → BitVec 4
  | .cmd => 0x0#4
  | .status => 0x1#4
  | .addr => 0x2#4
  | .data => 0x3#4
  | .carrier => 0x4#4
  | .pairs => 0x5#4
  | .width => 0x6#4
  | .ttbase => 0x7#4
  | .ptr => 0x8#4
  | .buf => 0x9#4
  | .on => 0xA#4
  | .off => 0xB#4
  | .index => 0xC#4
  | .ttlim => 0xD#4
  | .finfo => 0xE#4
  | .carlat => 0xF#4

/-- The register with a number: all sixteen exist (R20). -/
def Reg.ofNum (n : BitVec 4) : Reg :=
  match n.toNat with
  | 0x0 => .cmd
  | 0x1 => .status
  | 0x2 => .addr
  | 0x3 => .data
  | 0x4 => .carrier
  | 0x5 => .pairs
  | 0x6 => .width
  | 0x7 => .ttbase
  | 0x8 => .ptr
  | 0x9 => .buf
  | 0xA => .on
  | 0xB => .off
  | 0xC => .index
  | 0xD => .ttlim
  | 0xE => .finfo
  | _ => .carlat

/-- `HostRead(r)`: the register's value, zeros above its used width, CMD as 0 (R20, R21, R201). -/
def readReg (s : State) : Reg → Word
  | .cmd => 0#16
  | .status => s.statusWord
  | .addr => s.regs.addr
  | .data => s.regs.data.setWidth 16
  | .carrier => s.regs.carrier.setWidth 16
  | .pairs => s.regs.pairs.setWidth 16
  | .width => s.regs.width.setWidth 16
  | .ttbase => s.regs.ttbase
  | .ptr => s.cursor.ptr
  | .buf => s.bufWord
  | .on => s.regs.on
  | .off => s.regs.off
  | .index => s.regs.index.setWidth 16
  | .ttlim => s.regs.ttlim
  | .finfo => s.flt.finfo
  | .carlat => s.regs.carlat.setWidth 16

/-- Store a host's value in a register: truncated to its width if it is RW, ignored if it is read-only (R21).
CMD stores nothing (R22). -/
def storeReg (s : State) (r : Reg) (v : Word) : State :=
  match r with
  | .addr => s.setRegs { s.regs with addr := v }
  | .carrier => s.setRegs { s.regs with carrier := v.setWidth 8 }
  | .pairs => s.setRegs { s.regs with pairs := v.setWidth 8 }
  | .width => s.setRegs { s.regs with width := v.setWidth 8 }
  | .ttbase => s.setRegs { s.regs with ttbase := v }
  | .on => s.setRegs { s.regs with on := v }
  | .off => s.setRegs { s.regs with off := v }
  | .ttlim => s.setRegs { s.regs with ttlim := v }
  | .cmd | .status | .data | .ptr | .buf | .index | .finfo | .carlat => s

/-- What comes before every effect of a host write to `r`: reset takes precedence over it while `rst` is high (R250);
then the first two acceptance checks (R202, R234), ignored if FAULT = 1, BUSY_VIOLATION with the register's number if
BUSY = 1; else `k`. -/
def accept (r : Reg) (s : State) (k : State → State) : State :=
  if s.env.rst then s
  else if s.flt.fault then s
  else if s.busy then raise ⟨.busyViolation, r.num.setWidth 16⟩ s
  else k s

/-- Issue a command whose micro-step is `op`: the acceptance checks, then the micro-step, committed whole or
not at all (R81, R234, R241). -/
def issue (op : State → Except Trap State) (s : State) : Host.Outcome State Fault Refusal :=
  .next (accept .cmd s fun s => commit s (op s))

/-- A CMD word that R83 calls illegal: ILLEGAL_CMD with the word, after the acceptance checks (R234, R237). -/
def issueIllegal (w : Word) (s : State) : Host.Outcome State Fault Refusal :=
  issue (fun _ => .error ⟨.illegalCmd, w⟩) s

end Sys2Proof.Machine
end

