-- ==== Sys2Proof/Machine/Operands.lean ====
section
/-! DEFINITION. Operands: how a command's operands are assembled (R90), the code format of the ROM as a function of
the image (R12, R85 to R88, R137), and what the timing parameters mean (R10, R155, R160). The format functions are
total: they read the image whether or not the address is present. The commands read through memRead instead, which
takes ROM_RANGE. -/

namespace Sys2Proof.Machine

/-! ## Command operands -/

/-- The counts READ_BITS and NEXT accept: 1 to 8 (R84). -/
def countOk (n : Nat) : Bool := decide (1 ≤ n ∧ n ≤ 8)

/-- The byte address of a pair in the timing table: `(TTBASE + 4*idx) mod 2^16` (R90, R135). -/
def tableAddr (ttbase : Word) (idx : Byte) : Word := ttbase + 4#16 * idx.setWidth 16

/-- The range check is on, and the index fails it: `TTLIM != 0` and `idx >= TTLIM` (R37, R231). -/
def indexOutside (ttlim : Word) (idx : Byte) : Bool := decide (ttlim ≠ 0#16 ∧ ttlim.toNat ≤ idx.toNat)

/-- The five header bytes of a code record (R85). -/
structure Header where
  carrierPeriod : Byte
  pairCount : Byte
  indexWidth : Byte
  tableRef : Word
  deriving DecidableEq, Repr

/-- Read a record's header, in address order (R67, R130). -/
def readHeader (s : State) (a : Word) : Except Trap Header :=
  (memRead s a).bind fun h0 => (memRead s (a + 1#16)).bind fun h1 => (memRead s (a + 2#16)).bind fun h2 =>
    (memRead s (a + 3#16)).bind fun h3 => (memRead s (a + 4#16)).bind fun h4 => .ok ⟨h0, h1, h2, h4 ++ h3⟩

/-! ## The code format, as a function of the ROM image -/

/-- The ROM byte at an address (R60). -/
def romByte (m : List Host.Cell) (a : Word) : Byte := Memory.read m a.toNat

/-- A 16-bit value of the ROM, little-endian (R64, R88). -/
def romWord (m : List Host.Cell) (a : Word) : Word := romByte m (a + 1#16) ++ romByte m a

/-- `StreamBit(base, k) = ROM[(base + k div 8) mod 2^16][7 - (k mod 8)]` (R12). -/
def streamBit (m : List Host.Cell) (base : Word) (k : Nat) : Bool :=
  (romByte m (base + BitVec.ofNat 16 (k / 8))).getLsbD (7 - k % 8)

/-- The `n`-bit value read at stream position `k`, the first bit read its most significant bit (R12, R87). -/
def streamValue (m : List Host.Cell) (base : Word) (k : Nat) : Nat → Nat
  | 0 => 0
  | n + 1 => 2 * streamValue m base k n + (streamBit m base (k + n)).toNat

/-- The header the image holds at `a` (R85, R86). -/
def recordAt (m : List Host.Cell) (a : Word) : Header :=
  ⟨romByte m a, romByte m (a + 1#16), romByte m (a + 2#16), romWord m (a + 3#16)⟩

/-- `L = ceil(pair_count * index_width / 8)`, the bytes of `packed_indices` (R85). -/
def packedLen (pairCount indexWidth : Nat) : Nat := (pairCount * indexWidth + 7) / 8

/-- `index(A, i)` for a record at `a` whose index width is `w` (R87). -/
def indexAt (m : List Host.Cell) (a : Word) (w i : Nat) : Nat := streamValue m (a + 5#16) (i * w) w

/-- Pair `k` of the timing table at `t`: `(on_k, off_k)` (R88). -/
def tablePair (m : List Host.Cell) (t : Word) (k : Nat) : Word × Word :=
  (romWord m (t + BitVec.ofNat 16 (4 * k)), romWord m (t + BitVec.ofNat 16 (4 * k) + 2#16))

/-- Pair `i` of the code at `a` (R136). -/
def codePair (m : List Host.Cell) (a : Word) (i : Nat) : Word × Word :=
  tablePair m (recordAt m a).tableRef (indexAt m a (recordAt m a).indexWidth.toNat i)

/-- `Pairs(A)` (R137). -/
def codePairs (m : List Host.Cell) (a : Word) : List (Word × Word) :=
  (List.range (recordAt m a).pairCount.toNat).map (codePair m a)

/-! ## Timing parameters -/

/-- `car_half(cp)`: the platform's entry if it has one, else `cp + 1` (R10, R160). -/
def carHalf (p : Config.Params) (cp : Byte) : Nat :=
  match p.carHalfTable.lookup cp with
  | some h => h + 1
  | none => cp.toNat + 1

/-- The carrier's period in `car_clk` cycles (R160). -/
def carrierPeriod (p : Config.Params) (cp : Byte) : Nat := 2 * carHalf p cp

/-- The carrier's frequency, `F_CAR / (2 * car_half(cp))`, as numerator and denominator in Hz (R160). -/
def carrierFrequency (p : Config.Params) (cp : Byte) : Nat × Nat := (p.fCar, carrierPeriod p cp)

/-- The `clk` cycles of a phase of `d` units (R16, R270). -/
def phaseCycles (p : Config.Params) (d : Word) : Nat := d.toNat * tickCycles p

/-- A phase of `d` units in microseconds (R16, R155). -/
def phaseMicros (p : Config.Params) (d : Word) : Nat := d.toNat * p.tickUs

/-- `TICK_CYCLES = F_CLK * TICK_US * 1e-6`, rounded up or down (R10): the two differ by less than one cycle. -/
def tickConsistent (p : Config.Params) : Bool :=
  decide (p.fClk * p.tickUs < (tickCycles p + 1) * 1000000 ∧ tickCycles p * 1000000 < p.fClk * p.tickUs + 1000000)

end Sys2Proof.Machine
end

