-- ==== Sys2Proof/Machine/BitReader.lean ====
section
/-! DEFINITION. BitReader: the cursor's read function (R111) and SETPTR, READ_BITS, CLRBUF (R110, R112, R116). -/

namespace Sys2Proof.Machine

/-- Fetch the byte at `S.ptr` into the working copy: eight unread bits, the pointer one further (R111). -/
def fetchByte (s : State) (c : Cursor) : Except Trap Cursor :=
  (memRead s c.ptr).bind fun b => .ok ⟨c.ptr + 1#16, b, 8#4⟩

/-- The loop of `ReadBits` (R111) over the working copies `c`, `v` for `n` more bits: a byte is fetched only when
a bit is needed and none is buffered, and the first bit read ends as the most significant. -/
def readBitsLoop (s : State) : Nat → Cursor → Byte → Except Trap (Byte × Cursor)
  | 0, c, v => .ok (v, c)
  | n + 1, c, v =>
    (if c.nbits = 0#4 then fetchByte s c else .ok c).bind fun c =>
      readBitsLoop s n { c with nbits := c.nbits - 1#4 }
        ((v <<< 1) ||| (BitVec.ofBool (c.bbyte.getLsbD (c.nbits - 1#4).toNat)).setWidth 8)

/-- `ReadBits(n)` (R111): the value and the cursor to commit, or the fault of the one fetch. -/
def readBits (s : State) (n : Nat) : Except Trap (Byte × Cursor) := readBitsLoop s n s.cursor 0#8

/-- SETPTR (R110). -/
def setptrOp (s : State) : Except Trap State :=
  .ok (s.setCursor { s.cursor with ptr := s.regs.addr, nbits := 0#4 })

/-- READ_BITS n (R112): BAD_COUNT with the CMD word, else the value into DATA. -/
def readBitsOp (n : Nat) (s : State) : Except Trap State :=
  if countOk n then
    (readBits s n).bind fun vc => .ok ((s.setRegs { s.regs with data := vc.1 }).setCursor vc.2)
  else .error ⟨.badCount, encode (.readBits n)⟩

/-- CLRBUF (R116). -/
def clrbufOp (s : State) : Except Trap State :=
  .ok (s.setCursor { s.cursor with nbits := 0#4 })

/-- SETPTR, as a host write of 0x1000 to CMD (R110). -/
def execSetptr (s : State) : Host.Outcome State Fault Refusal := issue setptrOp s

/-- READ_BITS n, as a host write of 0x2000 + n to CMD (R112). -/
def execReadBits (n : Nat) (s : State) : Host.Outcome State Fault Refusal := issue (readBitsOp n) s

/-- CLRBUF, as a host write of 0x3000 to CMD (R116). -/
def execClrbuf (s : State) : Host.Outcome State Fault Refusal := issue clrbufOp s

end Sys2Proof.Machine
end

