-- ==== Sys2Proof/Machine/Decoder.lean ====
section
/-! DEFINITION. Decoder: the code decoder and pair indexer, LOAD and NEXT (R130, R135). PLAY's micro-steps run the
same operations (R181, R183). -/

namespace Sys2Proof.Machine

/-- LOAD (R130): the five header bytes, then the width check, then every write at once. -/
def loadOp (s : State) : Except Trap State :=
  (readHeader s s.regs.addr).bind fun h =>
    if countOk h.indexWidth.toNat then
      .ok ((s.setRegs { s.regs with
              carrier := h.carrierPeriod, pairs := h.pairCount, width := h.indexWidth, ttbase := h.tableRef }).setCursor
            { s.cursor with ptr := s.regs.addr + 5#16, nbits := 0#4 })
    else .error ⟨.badWidth, h.indexWidth.setWidth 16⟩

/-- NEXT (R135), its faults in the order of the rule; the cursor is committed with the other writes. -/
def nextOp (s : State) : Except Trap State :=
  if !countOk s.regs.width.toNat then .error ⟨.badWidth, s.regs.width.setWidth 16⟩
  else if s.regs.pairs = 0#8 then .error ⟨.noPairs, 0#16⟩
  else
    (readBits s s.regs.width.toNat).bind fun vc =>
      if indexOutside s.regs.ttlim vc.1 then .error ⟨.indexRange, vc.1.setWidth 16⟩
      else
        (memRead2 s (tableAddr s.regs.ttbase vc.1)).bind fun on =>
          (memRead2 s (tableAddr s.regs.ttbase vc.1 + 2#16)).bind fun off =>
            .ok ((s.setRegs { s.regs with
                    on := on, off := off, index := vc.1, pairs := s.regs.pairs - 1#8 }).setCursor vc.2)

/-- LOAD, as a host write of 0x4000 to CMD (R130). -/
def execLoad (s : State) : Host.Outcome State Fault Refusal := issue loadOp s

/-- NEXT, as a host write of 0x5000 to CMD (R135). -/
def execNext (s : State) : Host.Outcome State Fault Refusal := issue nextOp s

end Sys2Proof.Machine
end

