-- ==== Sys2Proof/Machine/Emitter.lean ====
section
/-! DEFINITION. Emitter: ARM, EMIT, DISARM (R150, R152, R154), the carrier generator (R160, R161) and the unit timer
of the on and off phases (R156 to R158). -/

namespace Sys2Proof.Machine

/-! ## Commands -/

/-- ARM (R150). -/
def armOp (s : State) : Except Trap State :=
  .ok (((s.setRegs { s.regs with carlat := s.regs.carrier }).setEmitter
    { s.emitter with armed := true, ccnt := 0, clevel := false }).log (.arm s.regs.carrier))

/-- Begin the pair in ON and OFF (R152, R183): its carrier flag, its Emit record, the unit timer at ON units, and
the sequencer at `q`. -/
def beginPair (q : Seq) (s : State) : State :=
  ((s.log (.emit s.regs.on s.regs.off s.useCarrier (if s.useCarrier then s.regs.carlat else 0#8))).setEmitter
    { s.emitter with flag := s.useCarrier, dcnt := s.regs.on, pre := 0 }).setSeq q

/-- EMIT at acceptance (R152): NOT_ARMED if there is no carrier to modulate with (R243), else the pair begins. -/
def emitOp (s : State) : Except Trap State :=
  if s.useCarrier && !s.carrierRuns then .error ⟨.notArmed, s.regs.carrier.setWidth 16⟩
  else .ok (beginPair .emitOn s)

/-- DISARM (R154). -/
def disarmOp (s : State) : Except Trap State :=
  .ok ((s.setEmitter { s.emitter with armed := false, ccnt := 0, clevel := false }).log .disarm)

/-- ARM, as a host write of 0x6000 to CMD (R150). -/
def execArm (s : State) : Host.Outcome State Fault Refusal := issue armOp s

/-- EMIT, as a host write of 0x7000 to CMD (R152). -/
def execEmit (s : State) : Host.Outcome State Fault Refusal := issue emitOp s

/-- DISARM, as a host write of 0x8000 to CMD (R154). -/
def execDisarm (s : State) : Host.Outcome State Fault Refusal := issue disarmOp s

/-! ## The carrier generator -/

/-- One `car_clk` cycle of the generator's count and level (R160): it advances while it runs, and holds 0 while it
does not. Both half-periods are of the one length that R160's pseudocode counts, a duty of 50%; that the duty is no
parameter is the model's choice, DESIGN CHOICE (log 7). -/
def carStep (runs : Bool) (half : Nat) (c : Nat × Bool) : Nat × Bool :=
  if runs then (if c.1 + 1 = half then (0, !c.2) else (c.1 + 1, c.2)) else (0, false)

/-- `k` `car_clk` cycles of the generator. -/
def carRun (runs : Bool) (half : Nat) : Nat → Nat × Bool → Nat × Bool
  | 0, c => c
  | k + 1, c => carRun runs half k (carStep runs half c)

/-- `k` `car_clk` cycles pass (R160). -/
def carCycles (k : Nat) (s : State) : State :=
  s.setEmitter { s.emitter with
    ccnt := (carRun s.carrierRuns (carHalf s.params s.regs.carlat) k (s.emitter.ccnt, s.emitter.clevel)).1,
    clevel := (carRun s.carrierRuns (carHalf s.params s.regs.carlat) k (s.emitter.ccnt, s.emitter.clevel)).2 }

/-- An open number of `car_clk` cycles passes: the draw of R161 (log 11). -/
def freeCarrier (s : State) : State :=
  (carCycles (Config.carrierDraw s.env.draws) s).setEnv { s.env with draws := s.env.draws + 1 }

/-! ## The unit timer -/

/-- One `clk` cycle of a running phase: the prescaler counts to `TICK_CYCLES - 1`, and at its wrap the phase has one
unit less to run (R156, R246). -/
def countCycle (s : State) : State :=
  if s.emitter.pre + 1 < tickCycles s.params then s.setEmitter { s.emitter with pre := s.emitter.pre + 1 }
  else s.setEmitter { s.emitter with pre := 0, dcnt := s.emitter.dcnt - 1#16 }

end Sys2Proof.Machine
end

