-- ==== Sys2Proof/Machine/Sequencer.lean ====
section
/-! DEFINITION. Sequencer: PLAY (R180), the micro-steps of a long command (R44, R181 to R186), and one `clk` cycle of
the block (R45, R156 to R158). -/

namespace Sys2Proof.Machine

/-- PLAY at acceptance (R180). -/
def playOp (s : State) : Except Trap State := .ok (s.setSeq .playLoad)

/-- PLAY, as a host write of 0x9000 to CMD (R180). -/
def execPlay (s : State) : Host.Outcome State Fault Refusal := issue playOp s

/-- Where PLAY goes after PLAY_ARM and after PLAY_OFF: PLAY_NEXT if PAIRS > 0, else PLAY_CLR (R44, R184). -/
def afterPair (s : State) : Seq := if s.regs.pairs = 0#8 then .playClr else .playNext

/-- PLAY_LOAD (R181). -/
def playLoadOp (s : State) : Except Trap State := (loadOp s).bind fun s => .ok (s.setSeq .playArm)

/-- PLAY_ARM (R182). -/
def playArmOp (s : State) : Except Trap State := (armOp s).bind fun s => .ok (s.setSeq (afterPair s))

/-- PLAY_NEXT (R183). -/
def playNextOp (s : State) : Except Trap State := (nextOp s).bind fun s => .ok (beginPair .playOn s)

/-- PLAY_CLR (R185). -/
def playClrOp (s : State) : Except Trap State := (clrbufOp s).bind fun s => .ok (s.setSeq .playDisarm)

/-- PLAY_DISARM (R186). -/
def playDisarmOp (s : State) : Except Trap State := (disarmOp s).bind fun s => .ok (s.setSeq .idle)

/-- The end of an on phase: the unit timer at OFF units, the sequencer at the off phase (R152, R180). -/
def endOn (q : Seq) (s : State) : State :=
  (s.setEmitter { s.emitter with dcnt := s.regs.off, pre := 0 }).setSeq q

/-- The end of the phase the block is in: an on phase goes to its off phase, an off phase to IDLE or to PLAY's next
micro-step (R44, R152, R184). -/
def endPhase (s : State) : State :=
  match s.seq with
  | .emitOn => endOn .emitOff s
  | .emitOff => s.setSeq .idle
  | .playOn => endOn .playOff s
  | .playOff => s.setSeq (afterPair s)
  | .idle | .playLoad | .playArm | .playNext | .playClr | .playDisarm | .halted => s

/-- What is left of the current phase runs to its end at once (R44, R156, R157). -/
def finishPhase (s : State) : State := endPhase (s.setEmitter { s.emitter with dcnt := 0#16, pre := 0 })

/-- The block's current micro-step, whole: one row of R44. IDLE and HALTED do nothing. -/
def microStep (s : State) : State :=
  match s.seq with
  | .idle | .halted => s
  | .emitOn | .emitOff | .playOn | .playOff => finishPhase s
  | .playLoad => commit s (playLoadOp s)
  | .playArm => commit s (playArmOp s)
  | .playNext => commit s (playNextOp s)
  | .playClr => commit s (playClrOp s)
  | .playDisarm => commit s (playDisarmOp s)

/-- The phase has no cycle left to run: `S.dcnt = 0` (R156, R158). -/
def State.phaseOver (s : State) : Bool := s.seq.isPhase && s.emitter.dcnt == 0#16

/-- End a phase that has no cycle left; it takes no time (R158). -/
def passPhase (s : State) : State := if s.phaseOver then endPhase s else s

/-- The state in which the next `clk` cycle passes: an on phase and then an off phase of no cycles are passed
through first (R158). -/
def settle (s : State) : State := passPhase (passPhase s)

/-- One `clk` cycle: a running phase counts it; elsewhere it is a cycle of a DECODE_GAP or of waiting (R45). -/
def clkCycle (s : State) : State := if (settle s).seq.isPhase then countCycle (settle s) else settle s

/-- `ir_out` during the next `clk` cycle (R47, R158). -/
def levelInCycle (s : State) : Bool := (settle s).irOut

end Sys2Proof.Machine
end

