-- ==== Sys2Proof/Machine/Dispatch.lean ====
section
/-! DEFINITION. Dispatch: one arm per command, each one direct call of its meaning. -/

namespace Sys2Proof.Machine

def exec (i : Instr) (s : State) : Host.Outcome State Fault Refusal :=
  match i with
  | .setptr => Sys2Proof.Machine.execSetptr s
  | .readBits n => Sys2Proof.Machine.execReadBits n s
  | .clrbuf => Sys2Proof.Machine.execClrbuf s
  | .load => Sys2Proof.Machine.execLoad s
  | .next => Sys2Proof.Machine.execNext s
  | .arm => Sys2Proof.Machine.execArm s
  | .emit => Sys2Proof.Machine.execEmit s
  | .disarm => Sys2Proof.Machine.execDisarm s
  | .play => Sys2Proof.Machine.execPlay s

end Sys2Proof.Machine
end

