-- ==== Sys2Proof/Machine/HostAgent.lean ====
section
/-! DEFINITION. HostAgent: the host's transactions (R200 to R202), its program notation (R92, R93), its ways to play a
code (R204) and the blast cycle (R207 to R211), and what each agent's turn does (R8, R71). -/

namespace Sys2Proof.Machine

/-! ## Transactions -/

/-- `HostRead(r)`: the value goes to the host's results; the block does not change (R201). -/
def hostRead (r : Reg) (s : State) : State :=
  s.setEnv { s.env with reads := s.env.reads ++ [readReg s r] }

/-- A host write of a word to CMD (R202, R234): the command it decodes to, or ILLEGAL_CMD. -/
def hostCommand (w : Word) (s : State) : Host.Outcome State Fault Refusal :=
  match decode w with
  | .ok i => exec i s
  | .error _ => issueIllegal w s

/-- `HostWrite(r, v)` (R202): a command, or a store after the acceptance checks. -/
def hostWrite (r : Reg) (v : Word) (s : State) : Host.Outcome State Fault Refusal :=
  match r with
  | .cmd => hostCommand v s
  | .status | .addr | .data | .carrier | .pairs | .width | .ttbase | .ptr | .buf | .on | .off | .index | .ttlim
  | .finfo | .carlat => .next (accept r s fun s => storeReg s r v)

/-! ## Host programs -/

/-- `CMD m` (R92). -/
def cmdLine (i : Instr) : HostLine := .wr .cmd (encode i)

/-- `PLAYC a` (R93). -/
def playCode (a : Word) : List HostLine := [.wr .addr a, cmdLine .play, .wait]

/-- The body of the manual sequence's loop (R204). -/
def pairLines : List HostLine := [cmdLine .next, cmdLine .emit, .wait]

/-- The manual sequence for a code at `a` (R204). -/
def manualCode (a : Word) : List HostLine :=
  [.wr .addr a, cmdLine .load, cmdLine .arm, .pairLoop, cmdLine .clrbuf, cmdLine .disarm]

/-- One code of the blast cycle (R207). -/
def blastCode (pauseMs : Nat) (a : Word) : List HostLine :=
  playCode a ++ [.stopIfFault, .feedback, .pause pauseMs]

/-- The blast cycle: every code of both lists, in order (R207, R208). -/
def blastCycle (p : Config.Params) : List HostLine := (p.db0 ++ p.db1).flatMap (blastCode p.pauseMs)

/-- The host's program becomes `l`. -/
def setProg (l : List HostLine) (s : State) : State := s.setEnv { s.env with prog := l }

/-- One line of the host's program, `rest` being what follows it (R92, R93, R204, R207). -/
def runLine (line : HostLine) (rest : List HostLine) (s : State) : Host.Outcome State Fault Refusal :=
  match line with
  | .wr r v => hostWrite r v (setProg rest s)
  | .rd r => .next (hostRead r (setProg rest s))
  | .wait => .next (hostRead .status (if s.busy then s else setProg rest s))
  | .stopIfFault => .next (hostRead .status (setProg (if s.flt.fault then [] else rest) s))
  | .pairLoop => .next (hostRead .pairs
      (setProg ((List.replicate s.regs.pairs.toNat pairLines).flatten ++ rest) s))
  | .feedback => .next ((setProg rest s).log .feedback)
  | .pause ms => .next ((setProg rest s).log (.pause ms))

/-- The host's turn: the next line of its program; with none left, the next wake starts a blast cycle (R209). A wake
recorded before a fault stop (R210) is still acted on, on the halted block: DESIGN CHOICE (log 18). -/
def hostTurn (s : State) : Host.Outcome State Fault Refusal :=
  match s.env.prog with
  | line :: rest => runLine line rest s
  | [] =>
    match s.env.wakes with
    | 0 => .next s
    | k + 1 => .next (s.setEnv { s.env with prog := blastCycle s.params, wakes := k })

/-! ## Turns -/

/-- What a turn does (R8, R71, log 2). -/
def turn (t : Turn) (s : State) : Host.Outcome State Fault Refusal :=
  match t with
  | .host => hostTurn s
  | .micro => .next (microStep (freeCarrier s))
  | .clk => .next (clkCycle s)
  | .carClk => .next (carCycles 1 s)
  | .wake => .next (s.setEnv { s.env with wakes := s.env.wakes + 1 })
  | .rstHigh => .next (applyReset s)
  | .rstLow => .next (releaseReset s)

/-- With no turn scheduled the system runs by itself: `rst` falls if it is high, else a busy block completes its
micro-step, else the host moves, an open number of `car_clk` cycles later (log 2). -/
def freeTurn (s : State) : Host.Outcome State Fault Refusal :=
  if s.env.rst then turn .rstLow s else if s.busy then turn .micro s else turn .host (freeCarrier s)

/-- The next turn: the head of the schedule, or a free one. -/
def takeTurn (s : State) : Host.Outcome State Fault Refusal :=
  match s.env.schedule with
  | t :: ts => turn t (s.setEnv { s.env with schedule := ts })
  | [] => freeTurn s

/-- Place a CMD word as the host's next transaction, and the next turn as the host's. -/
def placeCommand (w : Word) (s : State) : State :=
  s.setEnv { s.env with schedule := .host :: s.env.schedule, prog := .wr .cmd w :: s.env.prog }

end Sys2Proof.Machine
end

