-- ==== Sys2Proof/Machine/Step.lean ====
section
/-! DEFINITION. Step: one step is one turn of one agent (R8, R71). The block fetches no instructions (R74): a command
reaches it as the host's next write to CMD, so that is where `withFetchWord` places one (log 1). -/

namespace Sys2Proof.Machine

/-- One step of the system. -/
def step (s : State) : Host.Outcome State Fault Refusal := takeTurn s

/-- `s` with the command whose low `nbits` bits are those of `w`, the bits above them 0, as the host's next
transaction, and the next turn the host's. -/
def State.withFetchWord (s : State) (nbits w : Nat) : State := placeCommand (BitVec.ofNat 16 (w % 2 ^ nbits)) s

end Sys2Proof.Machine
end

