-- ==== Sys2Proof/Safety.lean ====
section
/-! DEFINITION. Safety: the terms claims are stated in. Register widths and access (R20), the invariants of the state
(R23, R33, R160, R180), when a code lies whole in the ROM (R253), the observation split into its two traces (R46,
R212), the ways a run ends (R213), and short names for repeated micro-steps and cycles. -/

namespace Sys2Proof.Machine

/-! ## Registers -/

/-- The width a register uses (R20). -/
def Reg.usedWidth : Reg → Nat
  | .cmd | .addr | .ttbase | .ptr | .on | .off | .ttlim | .finfo => 16
  | .buf => 12
  | .status | .data | .carrier | .pairs | .width | .index | .carlat => 8

/-- The registers the host may write, CMD apart: RW in the table of R20. -/
def Reg.hostWritable : Reg → Bool
  | .addr | .carrier | .pairs | .width | .ttbase | .on | .off | .ttlim => true
  | .cmd | .status | .data | .ptr | .buf | .index | .finfo | .carlat => false

/-- The block's own state is the same in both: registers, cursor, emitter, sequencer and fault record. -/
def State.sameBlock (s t : State) : Prop :=
  t.regs = s.regs ∧ t.cursor = s.cursor ∧ t.emitter = s.emitter ∧ t.seq = s.seq ∧ t.flt = s.flt

/-- The ROM image and the parameters are the same in both, and so is every byte the image reads (R60). -/
def State.sameRom (s t : State) : Prop :=
  t.params = s.params ∧ t.rom = s.rom ∧ ∀ a, romByte t.rom a = romByte s.rom a

/-- The state after the fault `x` is taken in `s` (R240, R241): the fault state and one Fault event, all else as
it was. -/
def State.faultedAs (s t : State) (x : Trap) : Prop :=
  t.flt = ⟨true, x.code.num, x.info⟩ ∧ t.seq = .halted ∧ t.trace = s.trace ++ [.fault x.code.num x.info] ∧
    t.regs = s.regs ∧ t.cursor = s.cursor ∧ t.emitter = s.emitter ∧ t.env = s.env ∧ s.sameRom t

/-! ## Invariants -/

/-- The ROM image is canonical and lists no address beyond the ROM. -/
def State.romOk (s : State) : Prop := Memory.wf s.rom ∧ ∀ c ∈ s.rom, c.1 < romSize s.params

/-- The cursor invariants (R33): at most 7 unread bits, and they are the tail of the byte before `S.ptr`. -/
def State.cursorOk (s : State) : Prop :=
  s.cursor.nbits.toNat ≤ 7 ∧ (s.cursor.nbits ≠ 0#4 → s.cursor.bbyte = romByte s.rom (s.cursor.ptr - 1#16))

/-- The fault record and the sequencer agree (R23, R230, R240): FAULT is 1 exactly in HALTED, FCODE is then 1 to 8,
and FCODE and FINFO are 0 while there is no fault. -/
def State.haltOk (s : State) : Prop :=
  (s.flt.fault = true ↔ s.seq = .halted) ∧
    (s.flt.fault = true → 1 ≤ s.flt.fcode.toNat ∧ s.flt.fcode.toNat ≤ 8) ∧
    (s.flt.fault = false → s.flt.fcode = 0#4 ∧ s.flt.finfo = 0#16)

/-- The carrier generator (R41, R160): its count stays below the half-period while it runs, and it holds 0 and low
while it does not. -/
def State.carrierOk (s : State) : Prop :=
  if s.carrierRuns then s.emitter.ccnt < carHalf s.params s.regs.carlat
  else s.emitter.ccnt = 0 ∧ s.emitter.clevel = false

/-- The unit timer (R40): the prescaler stays below TICK_CYCLES, and is 0 where no unit is left. -/
def State.timerOk (s : State) : Prop :=
  s.emitter.pre < tickCycles s.params ∧ (s.emitter.dcnt = 0#16 → s.emitter.pre = 0)

/-- The phases (R156, R157, R243): a phase has at most its duration left to run, and a modulated on phase has a
running carrier. -/
def State.phaseOk (s : State) : Prop :=
  ((s.seq = .emitOn ∨ s.seq = .playOn) → s.emitter.dcnt.toNat ≤ s.regs.on.toNat) ∧
    ((s.seq = .emitOff ∨ s.seq = .playOff) → s.emitter.dcnt.toNat ≤ s.regs.off.toNat) ∧
    (s.phaseOn = true → s.emitter.flag = true → s.carrierRuns = true)

/-- What PLAY has established at each of its micro-steps (R180): a usable width after PLAY_LOAD, the code's carrier
latched after PLAY_ARM, and a pair left at PLAY_NEXT. -/
def State.playOk (s : State) : Prop :=
  ((s.seq = .playArm ∨ s.seq = .playNext ∨ s.seq = .playOn ∨ s.seq = .playOff) →
      1 ≤ s.regs.width.toNat ∧ s.regs.width.toNat ≤ 8) ∧
    ((s.seq = .playNext ∨ s.seq = .playOn ∨ s.seq = .playOff ∨ s.seq = .playClr ∨ s.seq = .playDisarm) →
      s.emitter.armed = true ∧ s.regs.carlat = s.regs.carrier) ∧
    (s.seq = .playNext → s.regs.pairs ≠ 0#8)

/-- Reset (R250): while `rst` is high, every piece of block state has its value of R49. -/
def State.resetOk (s : State) : Prop :=
  s.env.rst = true →
    s.regs = .reset ∧ s.cursor = .reset ∧ s.emitter = .reset ∧ s.seq = .idle ∧ s.flt = .reset

/-- The invariant of the machine. -/
def State.inv (s : State) : Prop :=
  s.romOk ∧ s.cursorOk ∧ s.haltOk ∧ s.carrierOk ∧ s.timerOk ∧ s.phaseOk ∧ s.playOk ∧ s.resetOk

/-! ## The stream and the codes -/

/-- The ROM has a byte at the address (R61). -/
abbrev State.present (s : State) (a : Word) : Prop := a.toNat < romSize s.params

/-- The cursor's stream position `P` in bits (R33, R113). -/
def State.streamPos (s : State) : Nat := (8 * s.cursor.ptr.toNat + (2 ^ 19 - s.cursor.nbits.toNat)) % 2 ^ 19

/-- A read of `n` bits finds the byte it has to fetch, if it has to fetch one (R113). -/
abbrev State.canRead (s : State) (n : Nat) : Prop := s.cursor.nbits.toNat < n → s.present s.cursor.ptr

/-- The cursor after `n` bits are read (R113). -/
def cursorAfter (s : State) (n : Nat) : Cursor :=
  if n ≤ s.cursor.nbits.toNat then { s.cursor with nbits := s.cursor.nbits - BitVec.ofNat 4 n }
  else ⟨s.cursor.ptr + 1#16, romByte s.rom s.cursor.ptr, BitVec.ofNat 4 (8 - (n - s.cursor.nbits.toNat))⟩

/-- The `n` bits at the cursor as one byte (R113). -/
def bitsAtCursor (s : State) (n : Nat) : Byte := BitVec.ofNat 8 (streamValue s.rom 0#16 s.streamPos n)

/-- READ_BITS with each count in turn, the results concatenated behind `acc` (R114); none if one of them faults. -/
def readAll : List Nat → Nat → State → Option (Nat × State)
  | [], acc, s => some (acc, s)
  | n :: ns, acc, s =>
    match exec (.readBits n) s with
    | .next t => if t.flt.fault then none else readAll ns (acc * 2 ^ n + t.regs.data.toNat) t
    | .fault _ | .refused _ => none

/-- NEXT `k` times; none if one of them faults. -/
def nextTimes : Nat → State → Option State
  | 0, s => some s
  | k + 1, s =>
    match exec .next s with
    | .next t => if t.flt.fault then none else nextTimes k t
    | .fault _ | .refused _ => none

/-- The code at `a` lies whole in the ROM and passes the range check (R253, R89): its header and packed bytes are
present, its width is usable, and each of its indices is inside TTLIM (if that is on) and has a table entry. -/
abbrev State.codeOk (s : State) (a : Word) : Prop :=
  (∀ k < 5 + packedLen (recordAt s.rom a).pairCount.toNat (recordAt s.rom a).indexWidth.toNat,
      s.present (a + BitVec.ofNat 16 k)) ∧
    (1 ≤ (recordAt s.rom a).indexWidth.toNat ∧ (recordAt s.rom a).indexWidth.toNat ≤ 8) ∧
    ∀ i < (recordAt s.rom a).pairCount.toNat,
      (s.regs.ttlim = 0#16 ∨ indexAt s.rom a (recordAt s.rom a).indexWidth.toNat i < s.regs.ttlim.toNat) ∧
        ∀ k < 4, s.present ((recordAt s.rom a).tableRef +
          BitVec.ofNat 16 (4 * indexAt s.rom a (recordAt s.rom a).indexWidth.toNat i + k))

/-- The events one fault-free PLAY of the code at `a` logs (R187). -/
def codeEvents (m : List Host.Cell) (a : Word) : List Obs :=
  [.arm (recordAt m a).carrierPeriod] ++
    (codePairs m a).map (fun p => .emit p.1 p.2 ((recordAt m a).carrierPeriod != 0#8) (recordAt m a).carrierPeriod) ++
    [.disarm]

/-! ## Runs -/

/-- The block's events of a trace (R46). -/
def blockTrace (l : List Obs) : List Obs :=
  l.filter fun o => match o with
    | .arm _ | .emit _ _ _ _ | .disarm | .fault _ _ | .reset => true
    | .feedback | .pause _ => false

/-- The host's events of a trace (R212). -/
def hostTrace (l : List Obs) : List Obs :=
  l.filter fun o => match o with
    | .feedback | .pause _ => true
    | .arm _ | .emit _ _ _ _ | .disarm | .fault _ _ | .reset => false

/-- `k` whole micro-steps of the block. -/
def microSteps : Nat → State → State
  | 0, s => s
  | k + 1, s => microSteps k (microStep s)

/-- `k` `clk` cycles of the block. -/
def clkCycles : Nat → State → State
  | 0, s => s
  | k + 1, s => clkCycles k (clkCycle s)

/-- The `clk` cycles left in the current phase (R156). -/
def State.cyclesLeft (s : State) : Nat := phaseCycles s.params s.emitter.dcnt - s.emitter.pre

/-- The run is over: the host has nothing left to do and the block is IDLE or HALTED (R213). R213 says only that no
transaction is left; that a recorded wake, or a FEEDBACK or PAUSE line that is left, keeps the run open too is the
model's choice, DESIGN CHOICE (log 17). -/
def State.runOver (s : State) : Bool := s.env.prog.isEmpty && s.env.wakes == 0 && !s.busy

/-- A good end: IDLE with FAULT = 0 (R213). -/
def State.goodEnd (s : State) : Bool := s.runOver && s.seq == .idle && !s.flt.fault

/-- A fault end: HALTED (R213). -/
def State.faultEnd (s : State) : Bool := s.runOver && s.seq == .halted

end Sys2Proof.Machine
end

