-- ==== Sys2Proof/Certificates/Slice0/Obligations.lean ====
section
/-! DEFINITION. Obligations: the statements for the provers, one definition each, in the order of OBLIGATIONS.json. -/

open Sys2Proof Sys2Proof.Machine

/-! ## Encoding -/

/-- R82: a word decodes to a command exactly if the command is well formed and this is its word. So decoding inverts
encoding, no two commands share a word, and no word has two meanings. -/
def Obligations.DecodeInvertsEncode : Prop :=
  ∀ (w : Word) (i : Instr), decode w = .ok i ↔ i.wf = true ∧ encode i = w

/-- R82: the words of the opcode map, each written out. -/
def Obligations.OpcodeMapWords : Prop :=
  decode 0x1000#16 = .ok .setptr ∧ decode 0x2001#16 = .ok (.readBits 1) ∧ decode 0x2008#16 = .ok (.readBits 8) ∧
    decode 0x3000#16 = .ok .clrbuf ∧ decode 0x4000#16 = .ok .load ∧ decode 0x5000#16 = .ok .next ∧
    decode 0x6000#16 = .ok .arm ∧ decode 0x7000#16 = .ok .emit ∧ decode 0x8000#16 = .ok .disarm ∧
    decode 0x9000#16 = .ok .play

/-- R83: which words are illegal, in terms of the word's number; an illegal word takes ILLEGAL_CMD with the word, and
a READ_BITS word with N 0 or 9..15 is no illegal word but takes BAD_COUNT. -/
def Obligations.IllegalWordsFault : Prop :=
  ∀ w : Word,
    ((∃ e, decode w = .error e) ↔
        (w.toNat / 4096 = 0 ∨ 10 ≤ w.toNat / 4096 ∨ w.toNat / 16 % 256 ≠ 0 ∨
          (w.toNat % 16 ≠ 0 ∧ w.toNat / 4096 ≠ 2))) ∧
      ∀ s : State, s.ready = true →
        ((∃ e, decode w = .error e) → ∃ t, hostWrite .cmd w s = .next t ∧ s.faultedAs t ⟨.illegalCmd, w⟩) ∧
          ((w.toNat / 16 = 0x200 ∧ (w.toNat % 16 = 0 ∨ 9 ≤ w.toNat % 16)) →
            ∃ t, hostWrite .cmd w s = .next t ∧ s.faultedAs t ⟨.badCount, w⟩)

/-! ## Steps, acceptance, registers -/

/-- A step runs the decoded command: where the host's next line writes a word to CMD and the turn is the host's (by the
schedule, or because nothing is scheduled and the block is not busy), the step is exec of the command the word decodes
to, in the state whose turn and line are used up. The turns are the model's (log 2). -/
def Obligations.StepRunsDecodedCommand : Prop :=
  ∀ (s : State) (p : List HostLine) (w : Word) (i : Instr), s.env.prog = .wr .cmd w :: p → decode w = .ok i →
    (∀ ts, s.env.schedule = .host :: ts → step s = exec i (s.setEnv { s.env with schedule := ts, prog := p })) ∧
      (s.env.schedule = [] → s.env.rst = false → s.busy = false →
        step s = exec i ((freeCarrier s).setEnv { (freeCarrier s).env with prog := p }))

/-- The word of a well-formed command, placed where the step takes its next command, is what the step runs, in the
state it was placed in (log 1). -/
def Obligations.PlacedCommandRuns : Prop :=
  ∀ (s : State) (i : Instr), i.wf = true → step (s.withFetchWord 16 (encode i).toNat) = exec i s

/-- R202: what a host write does, in the order of the rule's checks; before them, reset takes precedence (R250). -/
def Obligations.HostWriteAcceptance : Prop :=
  ∀ (s : State) (r : Reg) (v : Word),
    (s.env.rst = true ∨ s.flt.fault = true → hostWrite r v s = .next s) ∧
      (s.env.rst = false → s.flt.fault = false → s.busy = true →
        ∃ t, hostWrite r v s = .next t ∧ s.faultedAs t ⟨.busyViolation, BitVec.ofNat 16 r.num.toNat⟩) ∧
      (s.ready = true → r = .cmd → ∀ i, decode v = .ok i → hostWrite r v s = exec i s) ∧
      (s.ready = true → r = .cmd → (∃ e, decode v = .error e) →
        ∃ t, hostWrite r v s = .next t ∧ s.faultedAs t ⟨.illegalCmd, v⟩) ∧
      (s.ready = true → r.hostWritable = true →
        ∃ t, hostWrite r v s = .next t ∧ (readReg t r).toNat = v.toNat % 2 ^ r.usedWidth ∧
          (∀ r', r' ≠ r → readReg t r' = readReg s r') ∧ t.cursor = s.cursor ∧ t.emitter = s.emitter ∧
          t.seq = s.seq ∧ t.flt = s.flt ∧ t.trace = s.trace ∧ t.env = s.env ∧ s.sameRom t) ∧
      (s.ready = true → r ≠ .cmd → r.hostWritable = false → hostWrite r v s = .next s)

/-- R233: any host write while BUSY takes BUSY_VIOLATION with the register's number, cuts the output at once, and no
micro-step runs after it; a read while BUSY is answered and changes nothing of the block. -/
def Obligations.BusyWriteCutsTransmission : Prop :=
  ∀ (s : State), s.env.rst = false → s.flt.fault = false → s.busy = true →
    (∀ (r : Reg) (v : Word), ∃ t, hostWrite r v s = .next t ∧
      s.faultedAs t ⟨.busyViolation, BitVec.ofNat 16 r.num.toNat⟩ ∧ t.irOut = false ∧ microStep t = t) ∧
      ∀ (r : Reg), s.sameBlock (hostRead r s) ∧ (hostRead r s).env.reads = s.env.reads ++ [readReg s r]

/-- R201, R20, R21: a read is allowed in every state and changes nothing of the block, the trace or the ROM; its result
is the register's value, which has zeros above its used width, and CMD reads 0. What STATUS and BUF hold is in
StatusFields and BufFields. That the host's reads come as turns is the model's choice (log 2). -/
def Obligations.HostReadHasNoSideEffect : Prop :=
  ∀ (s : State) (r : Reg) (p : List HostLine) (ts : List Turn),
    (s.env.schedule = .host :: ts → s.env.prog = .rd r :: p →
      ∃ t, step s = .next t ∧ s.sameBlock t ∧ s.sameRom t ∧ t.trace = s.trace ∧
        t.env = { s.env with schedule := ts, prog := p, reads := s.env.reads ++ [readReg s r] }) ∧
      (readReg s r).toNat < 2 ^ r.usedWidth ∧ readReg s .cmd = 0#16 ∧ readReg s .addr = s.regs.addr ∧
      (readReg s .data).toNat = s.regs.data.toNat ∧ (readReg s .carrier).toNat = s.regs.carrier.toNat ∧
      (readReg s .pairs).toNat = s.regs.pairs.toNat ∧ (readReg s .width).toNat = s.regs.width.toNat ∧
      readReg s .ttbase = s.regs.ttbase ∧ readReg s .ptr = s.cursor.ptr ∧ readReg s .on = s.regs.on ∧
      readReg s .off = s.regs.off ∧ (readReg s .index).toNat = s.regs.index.toNat ∧
      readReg s .ttlim = s.regs.ttlim ∧ readReg s .finfo = s.flt.finfo ∧
      (readReg s .carlat).toNat = s.regs.carlat.toNat

/-- R23: the fields of STATUS. -/
def Obligations.StatusFields : Prop :=
  ∀ s : State,
    (readReg s .status).toNat % 2 = (if s.seq = .idle ∨ s.seq = .halted then 0 else 1) ∧
      (readReg s .status).toNat / 2 % 2 = s.flt.fault.toNat ∧
      (readReg s .status).toNat / 4 % 2 = s.emitter.armed.toNat ∧
      (readReg s .status).toNat / 8 % 2 = (if s.seq = .emitOn ∨ s.seq = .playOn then 1 else 0) ∧
      (readReg s .status).toNat / 16 = s.flt.fcode.toNat

/-- R32: the fields of BUF. -/
def Obligations.BufFields : Prop :=
  ∀ s : State,
    (readReg s .buf).toNat % 256 = s.cursor.bbyte.toNat ∧ (readReg s .buf).toNat / 256 = s.cursor.nbits.toNat

/-- R64: a 16-bit ROM value is little-endian; its lower address is read first, so that is the one a ROM_RANGE reports
where both are absent. -/
def Obligations.RomWordIsLittleEndian : Prop :=
  ∀ (s : State) (a : Word),
    (s.present a → s.present (a + 1#16) →
      ∃ w, memRead2 s a = .ok w ∧ w.toNat = (romByte s.rom a).toNat + 256 * (romByte s.rom (a + 1#16)).toNat) ∧
      (¬ s.present a → memRead2 s a = .error ⟨.romRange, a⟩) ∧
      (s.present a → ¬ s.present (a + 1#16) → memRead2 s a = .error ⟨.romRange, a + 1#16⟩)

/-! ## Bit reader -/

/-- R110: SETPTR, for every ready state, ADDR inside the ROM or not. -/
def Obligations.SetptrResult : Prop :=
  decode 0x1000#16 = .ok .setptr ∧
    ∀ s : State, s.ready = true → exec .setptr s = .next (s.setCursor ⟨s.regs.addr, s.cursor.bbyte, 0#4⟩)

/-- R111, R112; the closed form is the spec's own inference (R113): READ_BITS with a legal count. Where the byte it
may have to fetch is there, DATA is the bits at the cursor's stream position, the cursor moves as the closed form
says, and nothing else changes; where it is not, ROM_RANGE with `S.ptr`. -/
def Obligations.ReadBitsClosedForm : Prop :=
  ∀ (s : State) (n : Nat), s.ready = true → s.cursorOk → 1 ≤ n → n ≤ 8 →
    (s.canRead n →
      exec (.readBits n) s =
          .next ((s.setRegs { s.regs with data := bitsAtCursor s n }).setCursor (cursorAfter s n)) ∧
        (bitsAtCursor s n).toNat = streamValue s.rom 0#16 s.streamPos n ∧ (bitsAtCursor s n).toNat < 2 ^ n ∧
        (s.setCursor (cursorAfter s n)).streamPos = (s.streamPos + n) % 2 ^ 19) ∧
      (¬ s.canRead n → ∃ t, exec (.readBits n) s = .next t ∧ s.faultedAs t ⟨.romRange, s.cursor.ptr⟩)

/-- R238: READ_BITS with N 0 or 9..15 takes BAD_COUNT with the CMD word, before any bit is read: nothing but the fault
state changes. -/
def Obligations.ReadBitsBadCount : Prop :=
  ∀ (s : State) (n : Nat), s.ready = true → n < 16 → ¬ (1 ≤ n ∧ n ≤ 8) →
    ∃ t, exec (.readBits n) s = .next t ∧ s.faultedAs t ⟨.badCount, BitVec.ofNat 16 (0x2000 + n)⟩

/-- The spec's own inference R114: reading any legal counts in turn and concatenating the results gives the stream's
bits from the cursor's position; and where the counts total at most 8, one read of the total gives the same value and
the same cursor. -/
def Obligations.ReadsConcatenate : Prop :=
  ∀ (s t : State) (ns : List Nat) (v : Nat), s.ready = true → s.cursorOk → (∀ n ∈ ns, 1 ≤ n ∧ n ≤ 8) →
    readAll ns 0 s = some (v, t) →
      v = streamValue s.rom 0#16 s.streamPos ns.sum ∧ t.streamPos = (s.streamPos + ns.sum) % 2 ^ 19 ∧
        (ns ≠ [] → ns.sum ≤ 8 →
          ∃ u, exec (.readBits ns.sum) s = .next u ∧ u.flt.fault = false ∧ u.regs.data.toNat = v ∧
            u.cursor = t.cursor)

/-- The spec's own inference R117: SETPTR, CLRBUF and LOAD, where they do not fault, leave the buffer empty; and with
the buffer empty, what the next READ_BITS gives depends on the ROM and `S.ptr` only. -/
def Obligations.FreshReadDependsOnPointerOnly : Prop :=
  (∀ (s : State) (i : Instr), s.ready = true → (i = .setptr ∨ i = .clrbuf ∨ i = .load) →
      ∃ t, exec i s = .next t ∧ (t.flt.fault = false → t.cursor.nbits = 0#4)) ∧
    ∀ (s₁ s₂ : State) (n : Nat), s₁.ready = true → s₂.ready = true → s₂.rom = s₁.rom → s₂.params = s₁.params →
      s₁.cursor.nbits = 0#4 → s₂.cursor.nbits = 0#4 → s₂.cursor.ptr = s₁.cursor.ptr →
      ∃ t₁ t₂, exec (.readBits n) s₁ = .next t₁ ∧ exec (.readBits n) s₂ = .next t₂ ∧ t₂.flt.fault = t₁.flt.fault ∧
        (t₁.flt.fault = false → t₂.regs.data = t₁.regs.data ∧ t₂.cursor = t₁.cursor)

/-- R116: CLRBUF. -/
def Obligations.ClrbufResult : Prop :=
  decode 0x3000#16 = .ok .clrbuf ∧
    ∀ s : State, s.ready = true → exec .clrbuf s = .next (s.setCursor ⟨s.cursor.ptr, s.cursor.bbyte, 0#4⟩)

/-! ## Code decoder -/

/-- R130: LOAD. With the five header bytes present and a usable width, the record's fields and a fresh cursor, whatever
the pair count; ROM_RANGE at the first header byte, in address order, that is not there; with all five there and a
width outside 1..8, BAD_WIDTH with the width, even where the pair count is 0. -/
def Obligations.LoadBehaviour : Prop :=
  decode 0x4000#16 = .ok .load ∧ ∀ s : State, s.ready = true →
    (∀ k < 5, (∀ j < k, s.present (s.regs.addr + BitVec.ofNat 16 j)) →
      ¬ s.present (s.regs.addr + BitVec.ofNat 16 k) →
        ∃ t, exec .load s = .next t ∧ s.faultedAs t ⟨.romRange, s.regs.addr + BitVec.ofNat 16 k⟩) ∧
      ((∀ k < 5, s.present (s.regs.addr + BitVec.ofNat 16 k)) →
        if 1 ≤ (romByte s.rom (s.regs.addr + 2#16)).toNat ∧ (romByte s.rom (s.regs.addr + 2#16)).toNat ≤ 8 then
          exec .load s = .next ((s.setRegs { s.regs with
              carrier := romByte s.rom s.regs.addr
              pairs := romByte s.rom (s.regs.addr + 1#16)
              width := romByte s.rom (s.regs.addr + 2#16)
              ttbase := romByte s.rom (s.regs.addr + 4#16) ++ romByte s.rom (s.regs.addr + 3#16) }).setCursor
            ⟨s.regs.addr + 5#16, s.cursor.bbyte, 0#4⟩)
        else
          ∃ t, exec .load s = .next t ∧
            s.faultedAs t ⟨.badWidth, BitVec.ofNat 16 (romByte s.rom (s.regs.addr + 2#16)).toNat⟩)

/-- R135, in the terms of the spec's own inferences R113 (the closed form of a read) and R33 (the cursor invariants):
NEXT, its checks in their order: a width outside 1..8, no pair left, a stream byte that is not there, an index
at or beyond TTLIM, the first table byte that is not there; the cursor moves in none of these. Where no check fails,
the index is the WIDTH bits at the cursor, the pair is the table's at `TTBASE + 4*index`, and PAIRS counts down. -/
def Obligations.NextBehaviour : Prop :=
  decode 0x5000#16 = .ok .next ∧ ∀ (s : State) (idx : Byte) (a : Word), s.ready = true → s.cursorOk →
    idx = bitsAtCursor s s.regs.width.toNat → a = BitVec.ofNat 16 (s.regs.ttbase.toNat + 4 * idx.toNat) →
    if ¬ (1 ≤ s.regs.width.toNat ∧ s.regs.width.toNat ≤ 8) then
      ∃ t, exec .next s = .next t ∧ s.faultedAs t ⟨.badWidth, BitVec.ofNat 16 s.regs.width.toNat⟩
    else if s.regs.pairs = 0#8 then
      ∃ t, exec .next s = .next t ∧ s.faultedAs t ⟨.noPairs, 0#16⟩
    else if ¬ s.canRead s.regs.width.toNat then
      ∃ t, exec .next s = .next t ∧ s.faultedAs t ⟨.romRange, s.cursor.ptr⟩
    else if s.regs.ttlim ≠ 0#16 ∧ s.regs.ttlim.toNat ≤ idx.toNat then
      ∃ t, exec .next s = .next t ∧ s.faultedAs t ⟨.indexRange, BitVec.ofNat 16 idx.toNat⟩
    else
      (∀ k < 4, (∀ j < k, s.present (a + BitVec.ofNat 16 j)) → ¬ s.present (a + BitVec.ofNat 16 k) →
        ∃ t, exec .next s = .next t ∧ s.faultedAs t ⟨.romRange, a + BitVec.ofNat 16 k⟩) ∧
        ((∀ k < 4, s.present (a + BitVec.ofNat 16 k)) →
          exec .next s = .next ((s.setRegs { s.regs with
              on := romByte s.rom (a + 1#16) ++ romByte s.rom a
              off := romByte s.rom (a + 3#16) ++ romByte s.rom (a + 2#16)
              index := idx
              pairs := BitVec.ofNat 8 (s.regs.pairs.toNat - 1) }).setCursor
            (cursorAfter s s.regs.width.toNat)))

/-- R87: index `i` of a record is the sum of its stream bits, each at its weight. -/
def Obligations.IndexIsSumOfStreamBits : Prop :=
  ∀ (m : List Host.Cell) (a : Word) (w i : Nat),
    indexAt m a w i =
      ((List.range w).map fun j => (streamBit m (a + 5#16) (i * w + j)).toNat * 2 ^ (w - 1 - j)).sum

/-- The spec's own inferences R136, R137 and R138: LOAD of a code that lies whole in the ROM, then NEXT: after `i` of
them the pair is the code's pair `i - 1`, PAIRS is what is left, the carrier is the code's (R140), and the cursor has
fetched exactly the packed bytes that the bits read so far lie in; after the last, one more NEXT takes NO_PAIRS. -/
def Obligations.CodeDecodesToItsPairs : Prop :=
  ∀ (s : State) (h : Header), s.ready = true → s.codeOk s.regs.addr → h = recordAt s.rom s.regs.addr →
    ∃ s₁, exec .load s = .next s₁ ∧ ∀ i ≤ h.pairCount.toNat, ∃ t, nextTimes i s₁ = some t ∧
      (i ≠ 0 → (t.regs.on, t.regs.off) = codePair s.rom s.regs.addr (i - 1) ∧
        t.regs.index.toNat = indexAt s.rom s.regs.addr h.indexWidth.toNat (i - 1)) ∧
      t.regs.pairs.toNat = h.pairCount.toNat - i ∧ t.regs.carrier = h.carrierPeriod ∧
      t.cursor.ptr = s.regs.addr + 5#16 + BitVec.ofNat 16 (packedLen i h.indexWidth.toNat) ∧
      t.cursor.nbits.toNat = 8 * packedLen i h.indexWidth.toNat - i * h.indexWidth.toNat ∧
      t.trace = s.trace ∧
      (i = h.pairCount.toNat → ∃ u, exec .next t = .next u ∧ t.faultedAs u ⟨.noPairs, 0#16⟩)

/-! ## Emitter -/

/-- R150: ARM, for every ready state, armed or not, CARRIER 0 or not. -/
def Obligations.ArmResult : Prop :=
  decode 0x6000#16 = .ok .arm ∧
    ∀ s : State, s.ready = true →
      exec .arm s = .next (((s.setRegs { s.regs with carlat := s.regs.carrier }).setEmitter
        { s.emitter with armed := true, ccnt := 0, clevel := false }).log (.arm s.regs.carrier))

/-- R154: DISARM, for every ready state, armed or not. -/
def Obligations.DisarmResult : Prop :=
  decode 0x8000#16 = .ok .disarm ∧
    ∀ s : State, s.ready = true →
      exec .disarm s = .next ((s.setEmitter { s.emitter with armed := false, ccnt := 0, clevel := false }).log .disarm)

/-- R152: EMIT where it needs no carrier or has one: the pair begins, for every ON and OFF, zero or not. -/
def Obligations.EmitBeginsPair : Prop :=
  ∀ s : State, s.ready = true → (s.regs.carrier ≠ 0#8 → s.emitter.armed = true ∧ s.regs.carlat ≠ 0#8) →
    exec .emit s = .next (((s.log (.emit s.regs.on s.regs.off (decide (s.regs.carrier ≠ 0#8))
        (if s.regs.carrier ≠ 0#8 then s.regs.carlat else 0#8))).setEmitter
      { s.emitter with flag := decide (s.regs.carrier ≠ 0#8), dcnt := s.regs.on, pre := 0 }).setSeq .emitOn)

/-- R243: EMIT with a carrier flag but no configured carrier takes NOT_ARMED with CARRIER. -/
def Obligations.EmitNotArmedFaults : Prop :=
  ∀ s : State, s.ready = true → s.regs.carrier ≠ 0#8 → (s.emitter.armed = false ∨ s.regs.carlat = 0#8) →
    ∃ t, exec .emit s = .next t ∧ s.faultedAs t ⟨.notArmed, BitVec.ofNat 16 s.regs.carrier.toNat⟩

/-- R47: the output is low outside the on phases, high in an unmodulated one, the carrier's level in a modulated
one. -/
def Obligations.OutputFollowsState : Prop :=
  ∀ s : State,
    (s.seq ≠ .emitOn → s.seq ≠ .playOn → s.irOut = false) ∧
      ((s.seq = .emitOn ∨ s.seq = .playOn) → s.irOut = if s.emitter.flag then s.emitter.clevel else true)

/-- R270, R156, R157, R158: the phases of an EMIT that is accepted, cycle by cycle: cycle `k` lies in the on phase for
`k < ON * TICK_CYCLES`, in the off phase for the next `OFF * TICK_CYCLES`, then in IDLE; the output is up (at the
level the carrier has, if modulated) in exactly the cycles of the on phase. Zero durations are included. -/
def Obligations.EmitPhasesLastExactly : Prop :=
  ∀ s : State, s.ready = true → (s.regs.carrier ≠ 0#8 → s.emitter.armed = true ∧ s.regs.carlat ≠ 0#8) →
    ∃ t, exec .emit s = .next t ∧ ∀ k : Nat,
      (settle (clkCycles k t)).seq =
          (if k < s.regs.on.toNat * tickCycles s.params then .emitOn
          else if k < (s.regs.on.toNat + s.regs.off.toNat) * tickCycles s.params then .emitOff else .idle) ∧
        levelInCycle (clkCycles k t) =
          (decide (k < s.regs.on.toNat * tickCycles s.params) &&
            (decide (s.regs.carrier = 0#8) || s.emitter.clevel))

/-- R183, R184, R270: a pair that PLAY_NEXT begins without a fault: the flag from CARRIER and the unit timer at ON
units; then, cycle by cycle, its on phase, its off phase, and PLAY_NEXT if pairs are left, else PLAY_CLR; the output
is up (at the level the carrier has, if modulated) in exactly the cycles of the on phase. Zero durations are included.
-/
def Obligations.PlayPhasesLastExactly : Prop :=
  ∀ s t : State, s.seq = .playNext → microStep s = t → t.seq = .playOn →
    t.emitter.flag = decide (t.regs.carrier ≠ 0#8) ∧ t.emitter.dcnt = t.regs.on ∧ t.emitter.pre = 0 ∧
      ∀ k : Nat,
        (settle (clkCycles k t)).seq =
            (if k < t.regs.on.toNat * tickCycles t.params then .playOn
            else if k < (t.regs.on.toNat + t.regs.off.toNat) * tickCycles t.params then .playOff
            else if t.regs.pairs = 0#8 then .playClr else .playNext) ∧
          levelInCycle (clkCycles k t) =
            (decide (k < t.regs.on.toNat * tickCycles t.params) &&
              (decide (t.regs.carrier = 0#8) || t.emitter.clevel))

/-- R156: a phase run as one micro-step ends in the same state as the same phase run cycle by cycle. -/
def Obligations.WholePhaseIsItsCycles : Prop :=
  ∀ s : State, s.seq.isPhase = true → s.timerOk → passPhase (clkCycles s.cyclesLeft s) = microStep s

/-- R160: from any count and level the generator can have, `k` `car_clk` cycles bring the count to `(count + k) mod
car_half` and toggle the level once for each whole half-period; where it does not run, it stays at count 0 and level
0. Without a platform's entry `car_half(cp)` is `cp + 1`; the frequency is `F_CAR / (2 * car_half(cp))`. How a
platform's entries are held, and that the duty is no parameter, is the model's choice (log 7). -/
def Obligations.CarrierIsSquareWave : Prop :=
  ∀ (s : State) (k : Nat), s.carrierOk →
    (s.carrierRuns = true →
      (carCycles k s).emitter.ccnt = (s.emitter.ccnt + k) % carHalf s.params s.regs.carlat ∧
        (carCycles k s).emitter.clevel =
          Bool.xor s.emitter.clevel (decide ((s.emitter.ccnt + k) / carHalf s.params s.regs.carlat % 2 = 1))) ∧
      (s.carrierRuns = false → (carCycles k s).emitter = s.emitter) ∧
      ∀ cp, (s.params.carHalfTable.lookup cp = none → carHalf s.params cp = cp.toNat + 1) ∧
        (∀ h, s.params.carHalfTable.lookup cp = some h → carHalf s.params cp = h + 1) ∧
        carrierFrequency s.params cp = (s.params.fCar, 2 * carHalf s.params cp)

/-- R246, R157: the two clocks are independent: a `clk` cycle and a `car_clk` cycle give the same state in either
order. -/
def Obligations.ClocksCommute : Prop :=
  ∀ s : State, carCycles 1 (clkCycle s) = clkCycle (carCycles 1 s)

/-! ## Sequencer -/

/-- R180: PLAY at acceptance. -/
def Obligations.PlayAccepted : Prop :=
  ∀ s : State, s.ready = true →
    ∃ t, exec .play s = .next t ∧ t = s.setSeq .playLoad ∧ t.busy = true ∧ s.sameRom t

/-- R44: where each micro-step leaves the sequencer; only PLAY_LOAD and PLAY_NEXT can fault. -/
def Obligations.MicroStepOrder : Prop :=
  ∀ s : State,
    match s.seq with
    | .idle | .halted => microStep s = s
    | .emitOn => (microStep s).seq = .emitOff
    | .emitOff => (microStep s).seq = .idle
    | .playLoad => (microStep s).seq = .playArm ∨ ((microStep s).seq = .halted ∧ (microStep s).flt.fault = true)
    | .playArm | .playOff => (microStep s).seq = if s.regs.pairs = 0#8 then .playClr else .playNext
    | .playNext => (microStep s).seq = .playOn ∨ ((microStep s).seq = .halted ∧ (microStep s).flt.fault = true)
    | .playOn => (microStep s).seq = .playOff
    | .playClr => (microStep s).seq = .playDisarm
    | .playDisarm => (microStep s).seq = .idle

/-- R180: in a state the invariant holds in, the only faults of PLAY's micro-steps are ROM_RANGE and BAD_WIDTH at
PLAY_LOAD and ROM_RANGE and INDEX_RANGE at PLAY_NEXT; BAD_WIDTH, NO_PAIRS and NOT_ARMED cannot arise after LOAD. -/
def Obligations.PlayFaultsOnlyAsListed : Prop :=
  ∀ s : State, s.inv → s.flt.fault = false → (microStep s).flt.fault = true →
    (s.seq = .playLoad ∧ ((microStep s).flt.fcode = FaultCode.num .romRange ∨
        (microStep s).flt.fcode = FaultCode.num .badWidth)) ∨
      (s.seq = .playNext ∧ ((microStep s).flt.fcode = FaultCode.num .romRange ∨
        (microStep s).flt.fcode = FaultCode.num .indexRange))

/-- The spec's own inferences R187, R188 and R190: a PLAY of a code that lies whole in the ROM, run by the schedule as
one host turn and `4 + 3 * pair_count` micro-steps: it ends in IDLE without a fault, the trace gains exactly the
code's events (one Emit record a pair, all with the code's carrier flag), and the end state is that of R190. The turns
are the model's (log 2). -/
def Obligations.PlayPlaysWholeCode : Prop :=
  ∀ (s : State) (h : Header) (p : List HostLine) (ts : List Turn), s.ready = true → s.codeOk s.regs.addr →
    h = recordAt s.rom s.regs.addr → s.env.prog = cmdLine .play :: p →
    s.env.schedule = .host :: (List.replicate (4 + 3 * h.pairCount.toNat) .micro ++ ts) →
    ∃ u : State, Host.Core.run Sys2Proof.core (5 + 3 * h.pairCount.toNat) s = .next u ∧
      u.trace = s.trace ++ codeEvents s.rom s.regs.addr ∧ u.seq = .idle ∧ u.flt = s.flt ∧
      u.regs = { s.regs with
        carrier := h.carrierPeriod, pairs := 0#8, width := h.indexWidth, ttbase := h.tableRef, carlat := h.carrierPeriod
        on := if h.pairCount = 0#8 then s.regs.on else (codePair s.rom s.regs.addr (h.pairCount.toNat - 1)).1
        off := if h.pairCount = 0#8 then s.regs.off else (codePair s.rom s.regs.addr (h.pairCount.toNat - 1)).2
        index := if h.pairCount = 0#8 then s.regs.index
          else BitVec.ofNat 8 (indexAt s.rom s.regs.addr h.indexWidth.toNat (h.pairCount.toNat - 1)) } ∧
      u.cursor.ptr = s.regs.addr + 5#16 + BitVec.ofNat 16 (packedLen h.pairCount.toNat h.indexWidth.toNat) ∧
      u.cursor.nbits = 0#4 ∧
      u.cursor.bbyte = (if h.pairCount = 0#8 then s.cursor.bbyte
        else romByte s.rom (s.regs.addr + 4#16 +
          BitVec.ofNat 16 (packedLen h.pairCount.toNat h.indexWidth.toNat))) ∧
      u.emitter.armed = false ∧ s.sameRom u ∧ u.env.schedule = ts ∧ u.env.prog = p

/-- The spec's own inference R204: for a code that lies whole in the ROM, the manual sequence and PLAYC, each run to its
end with nothing else scheduled, leave the same block state and the same trace. The free turns of the empty schedule
(log 2) and the one host line that stands for R204's loop (log 15) are the model's choices. -/
def Obligations.ManualSequenceEqualsPlay : Prop :=
  ∀ (s : State) (a : Word) (pc : Nat), s.ready = true → s.seq = .idle → s.env.schedule = [] → s.codeOk a →
    pc = (recordAt s.rom a).pairCount.toNat →
    ∃ u v : State, Host.Core.run Sys2Proof.core (6 + 5 * pc) (setProg (manualCode a) s) = .next u ∧
      Host.Core.run Sys2Proof.core (7 + 3 * pc) (setProg (playCode a) s) = .next v ∧
      u.sameBlock v ∧ v.trace = u.trace ∧ u.trace = s.trace ++ codeEvents s.rom a ∧
      u.env.prog = [] ∧ v.env.prog = [] ∧ u.ready = true

/-- R213: every long command ends after finitely many micro-steps: from any state, 769 of them (LOAD, ARM, 255 pairs
of three, CLR, DISARM) leave the block not busy. -/
def Obligations.LongCommandsEnd : Prop :=
  ∀ s : State, (microSteps 769 s).busy = false

/-! ## Faults and reset -/

/-- R240, R230: fault entry, and the halted state it leaves: STATUS and FINFO as R230's table has them, not busy, output
low, every host write ignored, every read answered with the register's value, no micro-step. -/
def Obligations.FaultEntryHalts : Prop :=
  ∀ (x : Trap) (s : State), s.faultedAs (raise x s) x ∧
    (readReg (raise x s) .status).toNat / 16 = x.code.num.toNat ∧ readReg (raise x s) .finfo = x.info ∧
    x.code.num.toNat = (match x.code with
      | .illegalCmd => 1
      | .badCount => 2
      | .badWidth => 3
      | .noPairs => 4
      | .romRange => 5
      | .indexRange => 6
      | .notArmed => 7
      | .busyViolation => 8) ∧
    (raise x s).busy = false ∧ (raise x s).phaseOn = false ∧ (raise x s).irOut = false ∧
    (∀ r v, hostWrite r v (raise x s) = .next (raise x s)) ∧
    (∀ r, (raise x s).sameBlock (hostRead r (raise x s)) ∧
      (hostRead r (raise x s)).env.reads = s.env.reads ++ [readReg (raise x s) r]) ∧
    microStep (raise x s) = raise x s ∧ settle (raise x s) = raise x s

/-- R241: faults are precise: a command or a micro-step that takes a fault writes the fault state and nothing else. -/
def Obligations.FaultsArePrecise : Prop :=
  ∀ s : State, s.flt.fault = false →
    (∀ i : Instr, ∃ t, exec i s = .next t ∧ (t.flt.fault = true → ∃ x, s.faultedAs t x)) ∧
      ((microStep s).flt.fault = true → ∃ x, s.faultedAs (microStep s) x)

/-- R240, R244: in a halted state (in which `rst` is low, R250) every step but a reset leaves the registers, the
cursor, the sequencer, the fault record and the unit timer alone, and logs no block event. -/
def Obligations.OnlyResetLeavesHalted : Prop :=
  ∀ s : State, s.env.rst = false → s.flt.fault = true → s.seq = .halted → s.env.schedule.head? ≠ some .rstHigh →
    ∃ t, step s = .next t ∧ t.regs = s.regs ∧ t.cursor = s.cursor ∧ t.seq = .halted ∧ t.flt = s.flt ∧
      t.emitter.flag = s.emitter.flag ∧ t.emitter.dcnt = s.emitter.dcnt ∧ t.emitter.pre = s.emitter.pre ∧
      t.emitter.armed = s.emitter.armed ∧ t.irOut = false ∧ s.sameRom t ∧ blockTrace t.trace = blockTrace s.trace

/-- R250, R252: `rst` rises, in any state, busy or halted or idle: every piece of block state is at its value of R49,
the output is low, and no event is logged; then it falls: exactly one event, Reset, is appended. The host, the ROM and
the parameters stay. That the two edges of `rst` are turns is the model's choice (log 13). -/
def Obligations.ResetRestoresBlock : Prop :=
  ∀ (s : State) (ts : List Turn),
    (s.env.schedule = .rstHigh :: ts →
      ∃ t, step s = .next t ∧ t.regs = .reset ∧ t.cursor = .reset ∧ t.emitter = .reset ∧ t.seq = .idle ∧
        t.flt = .reset ∧ t.irOut = false ∧ t.trace = s.trace ∧ s.sameRom t ∧
        t.env = { s.env with schedule := ts, rst := true }) ∧
      (s.env.schedule = .rstLow :: ts → s.env.rst = true →
        ∃ t, step s = .next t ∧ s.sameBlock t ∧ t.trace = s.trace ++ [.reset] ∧ s.sameRom t ∧
          t.env = { s.env with schedule := ts, rst := false })

/-- R49, R251: after reset every register reads 0, the cursor is empty, the block is idle and ready, and the output is
low. -/
def Obligations.ResetValues : Prop :=
  (∀ r, readReg State.reset r = 0#16) ∧ State.reset.seq = .idle ∧ State.reset.ready = true ∧
    State.reset.cursor = ⟨0#16, 0#8, 0#4⟩ ∧ State.reset.flt = ⟨false, 0#4, 0#16⟩ ∧
    State.reset.emitter = ⟨false, 0#16, 0, false, 0, false⟩ ∧ State.reset.irOut = false

/-! ## Frames and invariants -/

/-- R24, R25, R26, R27, R31, R36, R37, R39, R43, R46: whatever state a command is issued in, it answers a next state,
and it writes no register, flag, cursor field or event that its rule does not name; no command writes ADDR, TTLIM, a
ROM byte, a parameter or the other agents' state. -/
def Obligations.CommandsWriteOnlyTheirOwn : Prop :=
  ∀ (i : Instr) (s : State), ∃ t, exec i s = .next t ∧
    s.sameRom t ∧ t.env = s.env ∧ t.regs.addr = s.regs.addr ∧ t.regs.ttlim = s.regs.ttlim ∧
    ((∀ n, i ≠ .readBits n) → t.regs.data = s.regs.data) ∧
    (i ≠ .load → t.regs.carrier = s.regs.carrier ∧ t.regs.width = s.regs.width ∧ t.regs.ttbase = s.regs.ttbase) ∧
    (i ≠ .load → i ≠ .next → t.regs.pairs = s.regs.pairs) ∧
    (i ≠ .next → t.regs.on = s.regs.on ∧ t.regs.off = s.regs.off ∧ t.regs.index = s.regs.index) ∧
    (i ≠ .arm → t.regs.carlat = s.regs.carlat) ∧
    (i ≠ .arm → i ≠ .disarm → t.emitter.armed = s.emitter.armed ∧ t.emitter.ccnt = s.emitter.ccnt ∧
      t.emitter.clevel = s.emitter.clevel) ∧
    (i ≠ .emit → t.emitter.flag = s.emitter.flag ∧ t.emitter.dcnt = s.emitter.dcnt ∧ t.emitter.pre = s.emitter.pre) ∧
    (i ≠ .setptr → i ≠ .load → i ≠ .next → (∀ n, i ≠ .readBits n) → t.cursor.ptr = s.cursor.ptr) ∧
    (i ≠ .next → (∀ n, i ≠ .readBits n) → t.cursor.bbyte = s.cursor.bbyte) ∧
    (i = .arm ∨ i = .emit ∨ i = .disarm ∨ i = .play → t.cursor.nbits = s.cursor.nbits) ∧
    (t.flt.fault = false → t.flt = s.flt ∧ (i ≠ .emit → i ≠ .play → t.seq = s.seq)) ∧
    (t.trace = s.trace ∨
      (s.flt.fault = false ∧ t.flt.fault = true ∧ t.trace = s.trace ++ [.fault t.flt.fcode t.flt.finfo]) ∨
      (i = .arm ∧ t.trace = s.trace ++ [.arm s.regs.carrier]) ∨
      (i = .emit ∧ ∃ cp, t.trace = s.trace ++ [.emit s.regs.on s.regs.off (decide (s.regs.carrier ≠ 0#8)) cp]) ∨
      (i = .disarm ∧ t.trace = s.trace ++ [.disarm]))

/-- R24 to R27, R31, R36 to R41, R43, R46, R60: the frame of every micro-step. None writes ADDR, DATA, TTLIM, a ROM
byte, a parameter or the other agents' state; every other register, every cursor field, the carrier, the unit timer,
the fault record and the trace change only in the micro-steps named. -/
def Obligations.MicroStepsWriteOnlyTheirOwn : Prop :=
  ∀ s : State, s.sameRom (microStep s) ∧ (microStep s).env = s.env ∧ (microStep s).regs.addr = s.regs.addr ∧
    (microStep s).regs.data = s.regs.data ∧ (microStep s).regs.ttlim = s.regs.ttlim ∧
    ((microStep s).seq ≠ .halted → (microStep s).flt = s.flt) ∧
    (s.seq ≠ .playArm → (microStep s).regs.carlat = s.regs.carlat) ∧
    (s.seq ≠ .playArm → s.seq ≠ .playDisarm → (microStep s).emitter.armed = s.emitter.armed ∧
      (microStep s).emitter.ccnt = s.emitter.ccnt ∧ (microStep s).emitter.clevel = s.emitter.clevel) ∧
    (s.seq ≠ .playLoad → (microStep s).regs.carrier = s.regs.carrier ∧ (microStep s).regs.width = s.regs.width ∧
      (microStep s).regs.ttbase = s.regs.ttbase) ∧
    (s.seq ≠ .playLoad → s.seq ≠ .playNext → (microStep s).regs.pairs = s.regs.pairs ∧
      (microStep s).cursor.ptr = s.cursor.ptr) ∧
    (s.seq ≠ .playLoad → s.seq ≠ .playNext → s.seq ≠ .playClr → (microStep s).cursor.nbits = s.cursor.nbits) ∧
    (s.seq ≠ .playNext → (microStep s).regs.on = s.regs.on ∧ (microStep s).regs.off = s.regs.off ∧
      (microStep s).regs.index = s.regs.index ∧ (microStep s).cursor.bbyte = s.cursor.bbyte ∧
      (microStep s).emitter.flag = s.emitter.flag) ∧
    (s.seq ≠ .playNext → s.seq.isPhase = false → (microStep s).emitter.dcnt = s.emitter.dcnt ∧
      (microStep s).emitter.pre = s.emitter.pre) ∧
    ((microStep s).trace = s.trace ∨
      (s.seq ≠ .halted ∧ (microStep s).seq = .halted ∧
        (microStep s).trace = s.trace ++ [.fault (microStep s).flt.fcode (microStep s).flt.finfo]) ∨
      (s.seq = .playArm ∧ (microStep s).trace = s.trace ++ [.arm s.regs.carrier]) ∨
      (s.seq = .playNext ∧ (microStep s).trace = s.trace ++ [.emit (microStep s).regs.on (microStep s).regs.off
        (decide (s.regs.carrier ≠ 0#8)) (if s.regs.carrier ≠ 0#8 then s.regs.carlat else 0#8)]) ∨
      (s.seq = .playDisarm ∧ (microStep s).trace = s.trace ++ [.disarm]))

/-- R60, R46: every step answers a next state, leaves the ROM image, the byte at every address and the parameters
alone, and only ever appends to the trace. That no step stops is deduced (log 12); that the parameters are fields of the
state is the model's choice (log 3). -/
def Obligations.StepKeepsRomAndExtendsTrace : Prop :=
  ∀ s : State, ∃ t, step s = .next t ∧ s.sameRom t ∧ ∃ l, t.trace = s.trace ++ l

/-- Every step keeps the cursor invariants, the spec's own inference R33. -/
def Obligations.StepKeepsCursorInvariant : Prop :=
  ∀ s : State, s.cursorOk → ∃ t, step s = .next t ∧ t.cursorOk

/-- R23: every step keeps FAULT equal to being HALTED and FCODE, FINFO as R230 and R38 say; so BUSY and FAULT are never
1 together. -/
def Obligations.BusyAndFaultNeverTogether : Prop :=
  (∀ s : State, s.haltOk → ∃ t, step s = .next t ∧ t.haltOk) ∧
    ∀ s : State, s.haltOk → ¬ (s.busy = true ∧ s.flt.fault = true)

/-- The invariant of the machine (R23, R33, R40, R41, R160, R180, R250) is kept by every step, from every state that
meets it, on every turn: a canonical ROM image, the cursor, the fault record, the carrier's bounds, the unit timer's
bounds, the phases, PLAY's own facts, and the reset values while `rst` is high. -/
def Obligations.StepKeepsInvariant : Prop :=
  ∀ s : State, s.inv → ∃ t, step s = .next t ∧ t.inv

/-- The state after reset meets the invariant. That no ROM byte is listed in it is the model's choice (log 4). -/
def Obligations.ResetMeetsInvariant : Prop := State.reset.inv

/-! ## The host -/

/-- R93: WAIT reads STATUS, and goes on exactly if BUSY is 0. The turns are the model's (log 2). -/
def Obligations.WaitPollsBusy : Prop :=
  ∀ (s : State) (p : List HostLine) (ts : List Turn), s.env.schedule = .host :: ts → s.env.prog = .wait :: p →
    ∃ t, step s = .next t ∧ s.sameBlock t ∧ t.trace = s.trace ∧
      t.env.reads = s.env.reads ++ [readReg s .status] ∧
      t.env.prog = if (readReg s .status).toNat % 2 = 1 then s.env.prog else p

/-- R207, R210: after a code the host reads STATUS, and stops its program exactly if FAULT is 1. The turns are the
model's (log 2). -/
def Obligations.HostStopsOnFault : Prop :=
  ∀ (s : State) (p : List HostLine) (ts : List Turn), s.env.schedule = .host :: ts →
    s.env.prog = .stopIfFault :: p →
    ∃ t, step s = .next t ∧ s.sameBlock t ∧ t.trace = s.trace ∧
      t.env.reads = s.env.reads ++ [readReg s .status] ∧
      t.env.prog = if (readReg s .status).toNat / 2 % 2 = 1 then [] else p

/-- R209: a wake is only recorded; a host turn with a line of program left runs that line and leaves the recorded wakes
alone; the next cycle starts when the program is done. That wakes are counted is the model's choice (log 10). -/
def Obligations.WakeIsDeferred : Prop :=
  ∀ (s : State) (ts : List Turn),
    (s.env.schedule = .wake :: ts →
      step s = .next (s.setEnv { s.env with schedule := ts, wakes := s.env.wakes + 1 })) ∧
      (∀ line rest, s.env.schedule = .host :: ts → s.env.prog = line :: rest →
        step s = runLine line rest (s.setEnv { s.env with schedule := ts }) ∧
          ∃ t, step s = .next t ∧ t.env.wakes = s.env.wakes) ∧
      (∀ k, s.env.schedule = .host :: ts → s.env.prog = [] → s.env.wakes = k + 1 →
        step s = .next (s.setEnv { s.env with schedule := ts, prog := blastCycle s.params, wakes := k }))

/-- R207, R208, and the spec's own inference R212: a wake with nothing scheduled, where every code of both lists lies
whole in the ROM: the blast cycle runs to its end, and the merged trace gains each code's events, then Feedback, then
the pause, code by code in the order of the lists. The free turns of the empty schedule (log 2), the line that tests
FAULT (log 15) and the counted wakes (log 10) are the model's choices. -/
def Obligations.BlastCycleTrace : Prop :=
  ∀ s : State, s.ready = true → s.seq = .idle → s.env.schedule = [] → s.env.prog = [] → s.env.wakes = 1 →
    (∀ a ∈ s.params.db0 ++ s.params.db1, s.codeOk a) →
    ∃ (k : Nat) (u : State), Host.Core.run Sys2Proof.core k s = .next u ∧ u.goodEnd = true ∧ u.env.wakes = 0 ∧
      u.trace = s.trace ++ (s.params.db0 ++ s.params.db1).flatMap fun a =>
        codeEvents s.rom a ++ [.feedback, .pause s.params.pauseMs]

/-! ## Turns, register numbers, PLAY's commands, reset held -/

/-- Every other turn of the block and its clocks runs what the statements on phases, carrier and micro-steps speak of: a
`clk` turn one clkCycle, a `car_clk` turn one carCycles, a micro-step's turn, scheduled or free, one microStep after an
open number of `car_clk` cycles (R161). The turns are the model's (log 2), and so is the draw (log 11). -/
def Obligations.StepRunsTheBlocksTurns : Prop :=
  ∀ (s : State) (ts : List Turn),
    (s.env.schedule = .clk :: ts → step s = .next (clkCycle (s.setEnv { s.env with schedule := ts }))) ∧
      (s.env.schedule = .carClk :: ts → step s = .next (carCycles 1 (s.setEnv { s.env with schedule := ts }))) ∧
      (s.env.schedule = .micro :: ts → ∃ k, step s = .next (microStep
        (carCycles k (s.setEnv { s.env with schedule := ts, draws := s.env.draws + 1 })))) ∧
      (s.env.schedule = [] → s.env.rst = false → s.busy = true → ∃ k, step s = .next (microStep
        (carCycles k (s.setEnv { s.env with draws := s.env.draws + 1 }))))

/-- R20: each register's number, the bits it uses, and whether a host write stores in it; and every number has its
register. -/
def Obligations.RegisterNumbers : Prop :=
  (∀ r : Reg, (r.num.toNat, r.usedWidth, r.hostWritable) = match r with
    | .cmd => (0x0, 16, false)
    | .status => (0x1, 8, false)
    | .addr => (0x2, 16, true)
    | .data => (0x3, 8, false)
    | .carrier => (0x4, 8, true)
    | .pairs => (0x5, 8, true)
    | .width => (0x6, 8, true)
    | .ttbase => (0x7, 16, true)
    | .ptr => (0x8, 16, false)
    | .buf => (0x9, 12, false)
    | .on => (0xA, 16, true)
    | .off => (0xB, 16, true)
    | .index => (0xC, 8, false)
    | .ttlim => (0xD, 16, true)
    | .finfo => (0xE, 16, false)
    | .carlat => (0xF, 8, false)) ∧
    ∀ n : BitVec 4, (Reg.ofNum n).num = n

/-- R181, R182, R183, R185, R186: each micro-step of PLAY that is not a phase does what its command does in the same
state (the sequencer apart), with the same writes, events and faults, and then moves the sequencer; PLAY_NEXT also
begins the pair. -/
def Obligations.PlayPerformsTheCommands : Prop :=
  ∀ s : State, s.env.rst = false → s.flt.fault = false →
    (s.seq = .playLoad → ∃ u, exec .load (s.setSeq .idle) = .next u ∧
      microStep s = if u.flt.fault then u else u.setSeq .playArm) ∧
      (s.seq = .playArm → ∃ u, exec .arm (s.setSeq .idle) = .next u ∧
        microStep s = u.setSeq (if s.regs.pairs = 0#8 then .playClr else .playNext)) ∧
      (s.seq = .playNext → ∃ u, exec .next (s.setSeq .idle) = .next u ∧
        microStep s = if u.flt.fault then u else
          ((u.log (.emit u.regs.on u.regs.off (decide (u.regs.carrier ≠ 0#8))
              (if u.regs.carrier ≠ 0#8 then u.regs.carlat else 0#8))).setEmitter
            { u.emitter with flag := decide (u.regs.carrier ≠ 0#8), dcnt := u.regs.on, pre := 0 }).setSeq .playOn) ∧
      (s.seq = .playClr → ∃ u, exec .clrbuf (s.setSeq .idle) = .next u ∧ microStep s = u.setSeq .playDisarm) ∧
      (s.seq = .playDisarm → ∃ u, exec .disarm (s.setSeq .idle) = .next u ∧ microStep s = u.setSeq .idle)

/-- R250, R235: reset takes precedence over every other event while `rst` is high: a host write has no effect, and no
turn but the fall of `rst` changes the block, raises its output or logs an event of it. The turns, and that `rst`
falls by itself where nothing is scheduled, are the model's choices (logs 2 and 13). -/
def Obligations.ResetHoldsTheBlock : Prop :=
  ∀ s : State, s.env.rst = true → s.resetOk →
    (∀ r v, hostWrite r v s = .next s) ∧
      (∀ t ts, s.env.schedule = t :: ts → t ≠ .rstLow →
        ∃ u, step s = .next u ∧ s.sameBlock u ∧ u.irOut = false ∧ u.env.rst = true ∧ s.sameRom u ∧
          blockTrace u.trace = blockTrace s.trace) ∧
      (s.env.schedule = [] → ∃ u, step s = .next u ∧ s.sameBlock u ∧ s.sameRom u ∧ u.trace = s.trace ++ [.reset] ∧
        u.env = { s.env with rst := false })
end

