-- ==== Sys2Proof/Laws/Memory.lean ====
section
/-! SUPPORT. Laws about the ROM image: a read after a write, every other address left alone, and the canonical form
kept by every memory operation. -/

namespace Sys2Proof.Machine

theorem Memory.read_of_not_mem : ∀ (m : List Host.Cell) (a : Nat), (∀ c ∈ m, c.1 ≠ a) → Memory.read m a = 0#8
  | [], _, _ => rfl
  | c :: cs, a, h => by
    simp only [Memory.read, if_neg (h c (List.mem_cons_self ..))]
    exact Memory.read_of_not_mem cs a fun d hd => h d (List.mem_cons_of_mem _ hd)

theorem Memory.wf_nil : Memory.wf [] := ⟨List.Pairwise.nil, by simp⟩

theorem Memory.wf_tail {c : Host.Cell} {cs : List Host.Cell} (h : Memory.wf (c :: cs)) : Memory.wf cs :=
  ⟨(List.pairwise_cons.mp h.1).2, fun d hd => h.2 d (List.mem_cons_of_mem _ hd)⟩

theorem Memory.wf_cons {c : Host.Cell} {cs : List Host.Cell} :
    Memory.wf (c :: cs) ↔ (∀ d ∈ cs, c.1 < d.1) ∧ c.2 ≠ 0#8 ∧ Memory.wf cs := by
  simp only [Memory.wf, List.pairwise_cons, List.forall_mem_cons]
  tauto

/-- Every address a write leaves listed was listed before or is the address written. -/
theorem Memory.mem_write {m : List Host.Cell} {a : Nat} {b : Byte} {d : Host.Cell} :
    d ∈ Memory.write m a b → d = (a, b) ∧ b ≠ 0#8 ∨ d ∈ m := by
  induction m with
  | nil => simp only [Memory.write]; split <;> simp_all
  | cons c cs ih =>
    simp only [Memory.write]
    split
    · split <;> simp_all
    · split
      · split <;> simp_all
        tauto
      · simp only [List.mem_cons]
        rintro (h | h)
        · exact Or.inr (Or.inl h)
        · exact (ih h).imp id Or.inr

/-- A write keeps the canonical form. -/
theorem Memory.wf_write {m : List Host.Cell} {a : Nat} {b : Byte} (h : Memory.wf m) :
    Memory.wf (Memory.write m a b) := by
  induction m with
  | nil =>
    simp only [Memory.write]
    split
    · exact Memory.wf_nil
    · exact Memory.wf_cons.mpr ⟨by simp, by assumption, Memory.wf_nil⟩
  | cons c cs ih =>
    obtain ⟨hlt, hne, hcs⟩ := Memory.wf_cons.mp h
    simp only [Memory.write]
    split
    · rename_i hac
      split
      · exact h
      · refine Memory.wf_cons.mpr ⟨?_, by assumption, h⟩
        intro d hd
        rcases List.mem_cons.mp hd with rfl | hd
        · exact hac
        · exact lt_trans hac (hlt d hd)
    · split
      · rename_i heq
        split
        · exact hcs
        · refine Memory.wf_cons.mpr ⟨?_, by assumption, hcs⟩
          intro d hd
          exact heq ▸ hlt d hd
      · refine Memory.wf_cons.mpr ⟨?_, hne, ih hcs⟩
        intro d hd
        rcases Memory.mem_write hd with ⟨rfl, -⟩ | hd
        · show c.1 < a
          omega
        · exact hlt d hd

/-- A byte that was written is the byte read. -/
theorem Memory.read_write_same {m : List Host.Cell} {a : Nat} {b : Byte} (h : Memory.wf m) :
    Memory.read (Memory.write m a b) a = b := by
  induction m with
  | nil => simp only [Memory.write]; split <;> simp_all [Memory.read]
  | cons c cs ih =>
    obtain ⟨hlt, -, hcs⟩ := Memory.wf_cons.mp h
    have absent : ∀ d ∈ cs, a ≤ c.1 → d.1 ≠ a := fun d hd hle => by
      have := hlt d hd
      omega
    simp only [Memory.write]
    split
    · rename_i hac
      split
      · rename_i hb
        rw [hb]
        refine Memory.read_of_not_mem _ _ fun d hd => ?_
        rcases List.mem_cons.mp hd with rfl | hd
        · omega
        · exact absent d hd (by omega)
      · simp [Memory.read]
    · split
      · split
        · rename_i hb
          rw [hb]
          exact Memory.read_of_not_mem _ _ fun d hd => absent d hd (by omega)
        · simp [Memory.read]
      · rename_i hne
        simp only [Memory.read, if_neg (Ne.symm hne)]
        exact ih hcs

/-- A write leaves every other byte alone. -/
theorem Memory.read_write_other {m : List Host.Cell} {a a' : Nat} {b : Byte} (hne : a' ≠ a) :
    Memory.read (Memory.write m a b) a' = Memory.read m a' := by
  induction m with
  | nil => simp only [Memory.write]; split <;> simp [Memory.read, Ne.symm hne]
  | cons c cs ih =>
    simp only [Memory.write]
    split
    · split <;> simp [Memory.read, Ne.symm hne]
    · split
      · rename_i heq
        have hc : c.1 ≠ a' := by omega
        split <;> simp [Memory.read, hc, Ne.symm hne]
      · simp [Memory.read, ih]

/-- Loading bytes keeps the canonical form. -/
theorem Memory.wf_load {m : List Host.Cell} {a : Nat} {bs : List Byte} (h : Memory.wf m) :
    Memory.wf (Memory.load m a bs) := by
  induction bs generalizing m a with
  | nil => exact h
  | cons b bs ih => exact ih (Memory.wf_write h)

end Sys2Proof.Machine
end

