-- ==== Sys2Proof/Laws/State.lean ====
section
/-! SUPPORT. Laws about the named updates of State: what each update writes and what it leaves alone, one lemma for
each field and update. -/

namespace Sys2Proof.Machine

@[simp] theorem State.setRegs_regs (s : State) (r : Regs) : (s.setRegs r).regs = r := rfl
@[simp] theorem State.setRegs_cursor (s : State) (r : Regs) : (s.setRegs r).cursor = s.cursor := rfl
@[simp] theorem State.setRegs_emitter (s : State) (r : Regs) : (s.setRegs r).emitter = s.emitter := rfl
@[simp] theorem State.setRegs_seq (s : State) (r : Regs) : (s.setRegs r).seq = s.seq := rfl
@[simp] theorem State.setRegs_flt (s : State) (r : Regs) : (s.setRegs r).flt = s.flt := rfl
@[simp] theorem State.setRegs_rom (s : State) (r : Regs) : (s.setRegs r).rom = s.rom := rfl
@[simp] theorem State.setRegs_params (s : State) (r : Regs) : (s.setRegs r).params = s.params := rfl
@[simp] theorem State.setRegs_trace (s : State) (r : Regs) : (s.setRegs r).trace = s.trace := rfl
@[simp] theorem State.setRegs_env (s : State) (r : Regs) : (s.setRegs r).env = s.env := rfl

@[simp] theorem State.setCursor_regs (s : State) (c : Cursor) : (s.setCursor c).regs = s.regs := rfl
@[simp] theorem State.setCursor_cursor (s : State) (c : Cursor) : (s.setCursor c).cursor = c := rfl
@[simp] theorem State.setCursor_emitter (s : State) (c : Cursor) : (s.setCursor c).emitter = s.emitter := rfl
@[simp] theorem State.setCursor_seq (s : State) (c : Cursor) : (s.setCursor c).seq = s.seq := rfl
@[simp] theorem State.setCursor_flt (s : State) (c : Cursor) : (s.setCursor c).flt = s.flt := rfl
@[simp] theorem State.setCursor_rom (s : State) (c : Cursor) : (s.setCursor c).rom = s.rom := rfl
@[simp] theorem State.setCursor_params (s : State) (c : Cursor) : (s.setCursor c).params = s.params := rfl
@[simp] theorem State.setCursor_trace (s : State) (c : Cursor) : (s.setCursor c).trace = s.trace := rfl
@[simp] theorem State.setCursor_env (s : State) (c : Cursor) : (s.setCursor c).env = s.env := rfl

@[simp] theorem State.setEmitter_regs (s : State) (e : Emitter) : (s.setEmitter e).regs = s.regs := rfl
@[simp] theorem State.setEmitter_cursor (s : State) (e : Emitter) : (s.setEmitter e).cursor = s.cursor := rfl
@[simp] theorem State.setEmitter_emitter (s : State) (e : Emitter) : (s.setEmitter e).emitter = e := rfl
@[simp] theorem State.setEmitter_seq (s : State) (e : Emitter) : (s.setEmitter e).seq = s.seq := rfl
@[simp] theorem State.setEmitter_flt (s : State) (e : Emitter) : (s.setEmitter e).flt = s.flt := rfl
@[simp] theorem State.setEmitter_rom (s : State) (e : Emitter) : (s.setEmitter e).rom = s.rom := rfl
@[simp] theorem State.setEmitter_params (s : State) (e : Emitter) : (s.setEmitter e).params = s.params := rfl
@[simp] theorem State.setEmitter_trace (s : State) (e : Emitter) : (s.setEmitter e).trace = s.trace := rfl
@[simp] theorem State.setEmitter_env (s : State) (e : Emitter) : (s.setEmitter e).env = s.env := rfl

@[simp] theorem State.setSeq_regs (s : State) (q : Seq) : (s.setSeq q).regs = s.regs := rfl
@[simp] theorem State.setSeq_cursor (s : State) (q : Seq) : (s.setSeq q).cursor = s.cursor := rfl
@[simp] theorem State.setSeq_emitter (s : State) (q : Seq) : (s.setSeq q).emitter = s.emitter := rfl
@[simp] theorem State.setSeq_seq (s : State) (q : Seq) : (s.setSeq q).seq = q := rfl
@[simp] theorem State.setSeq_flt (s : State) (q : Seq) : (s.setSeq q).flt = s.flt := rfl
@[simp] theorem State.setSeq_rom (s : State) (q : Seq) : (s.setSeq q).rom = s.rom := rfl
@[simp] theorem State.setSeq_params (s : State) (q : Seq) : (s.setSeq q).params = s.params := rfl
@[simp] theorem State.setSeq_trace (s : State) (q : Seq) : (s.setSeq q).trace = s.trace := rfl
@[simp] theorem State.setSeq_env (s : State) (q : Seq) : (s.setSeq q).env = s.env := rfl

@[simp] theorem State.setFlt_regs (s : State) (f : FaultRecord) : (s.setFlt f).regs = s.regs := rfl
@[simp] theorem State.setFlt_cursor (s : State) (f : FaultRecord) : (s.setFlt f).cursor = s.cursor := rfl
@[simp] theorem State.setFlt_emitter (s : State) (f : FaultRecord) : (s.setFlt f).emitter = s.emitter := rfl
@[simp] theorem State.setFlt_seq (s : State) (f : FaultRecord) : (s.setFlt f).seq = s.seq := rfl
@[simp] theorem State.setFlt_flt (s : State) (f : FaultRecord) : (s.setFlt f).flt = f := rfl
@[simp] theorem State.setFlt_rom (s : State) (f : FaultRecord) : (s.setFlt f).rom = s.rom := rfl
@[simp] theorem State.setFlt_params (s : State) (f : FaultRecord) : (s.setFlt f).params = s.params := rfl
@[simp] theorem State.setFlt_trace (s : State) (f : FaultRecord) : (s.setFlt f).trace = s.trace := rfl
@[simp] theorem State.setFlt_env (s : State) (f : FaultRecord) : (s.setFlt f).env = s.env := rfl

@[simp] theorem State.setEnv_regs (s : State) (v : Env) : (s.setEnv v).regs = s.regs := rfl
@[simp] theorem State.setEnv_cursor (s : State) (v : Env) : (s.setEnv v).cursor = s.cursor := rfl
@[simp] theorem State.setEnv_emitter (s : State) (v : Env) : (s.setEnv v).emitter = s.emitter := rfl
@[simp] theorem State.setEnv_seq (s : State) (v : Env) : (s.setEnv v).seq = s.seq := rfl
@[simp] theorem State.setEnv_flt (s : State) (v : Env) : (s.setEnv v).flt = s.flt := rfl
@[simp] theorem State.setEnv_rom (s : State) (v : Env) : (s.setEnv v).rom = s.rom := rfl
@[simp] theorem State.setEnv_params (s : State) (v : Env) : (s.setEnv v).params = s.params := rfl
@[simp] theorem State.setEnv_trace (s : State) (v : Env) : (s.setEnv v).trace = s.trace := rfl
@[simp] theorem State.setEnv_env (s : State) (v : Env) : (s.setEnv v).env = v := rfl

@[simp] theorem State.log_regs (s : State) (o : Obs) : (s.log o).regs = s.regs := rfl
@[simp] theorem State.log_cursor (s : State) (o : Obs) : (s.log o).cursor = s.cursor := rfl
@[simp] theorem State.log_emitter (s : State) (o : Obs) : (s.log o).emitter = s.emitter := rfl
@[simp] theorem State.log_seq (s : State) (o : Obs) : (s.log o).seq = s.seq := rfl
@[simp] theorem State.log_flt (s : State) (o : Obs) : (s.log o).flt = s.flt := rfl
@[simp] theorem State.log_rom (s : State) (o : Obs) : (s.log o).rom = s.rom := rfl
@[simp] theorem State.log_params (s : State) (o : Obs) : (s.log o).params = s.params := rfl
@[simp] theorem State.log_trace (s : State) (o : Obs) : (s.log o).trace = s.trace ++ [o] := rfl
@[simp] theorem State.log_env (s : State) (o : Obs) : (s.log o).env = s.env := rfl

/-- A state is its fields: two states that agree on each are equal. -/
theorem State.eq_of_fields {s t : State} (h1 : s.regs = t.regs) (h2 : s.cursor = t.cursor)
    (h3 : s.emitter = t.emitter) (h4 : s.seq = t.seq) (h5 : s.flt = t.flt) (h6 : s.rom = t.rom)
    (h7 : s.params = t.params) (h8 : s.trace = t.trace) (h9 : s.env = t.env) : s = t := by
  cases s
  cases t
  simp_all

end Sys2Proof.Machine
end

