-- ==== Sys2Proof/Laws/Ops.lean ====
section
/-! SUPPORT. Laws about the shared operations: what a ROM read can answer, what taking a fault writes, and what the
acceptance checks of a host write can lead to. -/

namespace Sys2Proof.Machine

/-! ## Sequencing of operations that may fault -/

theorem Except.bind_eq_ok {α β : Type} {x : Except Trap α} {f : α → Except Trap β} {b : β} :
    x.bind f = .ok b ↔ ∃ a, x = .ok a ∧ f a = .ok b := by
  cases x <;> simp [Except.bind]

theorem Except.bind_eq_error {α β : Type} {x : Except Trap α} {f : α → Except Trap β} {t : Trap} :
    x.bind f = .error t ↔ x = .error t ∨ ∃ a, x = .ok a ∧ f a = .error t := by
  cases x <;> simp [Except.bind]

/-! ## ROM reads -/

theorem memRead_eq_ok {s : State} {a : Word} {b : Byte} :
    memRead s a = .ok b ↔ a.toNat < romSize s.params ∧ b = romByte s.rom a := by
  unfold memRead romByte
  split <;> simp_all [eq_comm]

theorem memRead_eq_error {s : State} {a : Word} {t : Trap} :
    memRead s a = .error t ↔ ¬ a.toNat < romSize s.params ∧ t = ⟨.romRange, a⟩ := by
  unfold memRead
  split <;> simp_all [eq_comm]

theorem memRead2_eq_ok {s : State} {a w : Word} :
    memRead2 s a = .ok w ↔
      a.toNat < romSize s.params ∧ (a + 1#16).toNat < romSize s.params ∧ w = romWord s.rom a := by
  unfold memRead2 romWord
  simp only [Except.bind_eq_ok, memRead_eq_ok, Except.ok.injEq]
  constructor
  · rintro ⟨lo, ⟨h1, rfl⟩, hi, ⟨h2, rfl⟩, rfl⟩
    exact ⟨h1, h2, rfl⟩
  · rintro ⟨h1, h2, rfl⟩
    exact ⟨_, ⟨h1, rfl⟩, _, ⟨h2, rfl⟩, rfl⟩

/-- A two-byte read faults at the first of its bytes, lower address first, that is not there. -/
theorem memRead2_eq_error {s : State} {a : Word} {t : Trap} :
    memRead2 s a = .error t ↔
      (¬ a.toNat < romSize s.params ∧ t = ⟨.romRange, a⟩) ∨
        (a.toNat < romSize s.params ∧ ¬ (a + 1#16).toNat < romSize s.params ∧ t = ⟨.romRange, a + 1#16⟩) := by
  unfold memRead2
  simp only [Except.bind_eq_error, memRead_eq_error, memRead_eq_ok, reduceCtorEq, and_false, exists_false, or_false]
  constructor
  · rintro (h | ⟨lo, ⟨h1, -⟩, h2⟩)
    · exact Or.inl h
    · exact Or.inr ⟨h1, h2⟩
  · rintro (h | ⟨h1, h2⟩)
    · exact Or.inl h
    · exact Or.inr ⟨_, ⟨h1, rfl⟩, h2⟩

/-- A ROM read depends on the image and its size only. -/
theorem memRead_congr {s t : State} (hr : t.rom = s.rom) (hp : t.params = s.params) (a : Word) :
    memRead t a = memRead s a := by
  simp only [memRead, hr, hp]

/-- A header read that answers read the five bytes of the record, all of them present. -/
theorem readHeader_eq_ok {s : State} {a : Word} {h : Header} :
    readHeader s a = .ok h ↔
      (a.toNat < romSize s.params ∧ (a + 1#16).toNat < romSize s.params ∧ (a + 2#16).toNat < romSize s.params ∧
        (a + 3#16).toNat < romSize s.params ∧ (a + 4#16).toNat < romSize s.params) ∧ h = recordAt s.rom a := by
  have e : a + 3#16 + 1#16 = a + 4#16 := by rw [BitVec.add_assoc]; rfl
  unfold readHeader recordAt romWord
  simp only [Except.bind_eq_ok, memRead_eq_ok, Except.ok.injEq, e]
  constructor
  · rintro ⟨_, ⟨h0, rfl⟩, _, ⟨h1, rfl⟩, _, ⟨h2, rfl⟩, _, ⟨h3, rfl⟩, _, ⟨h4, rfl⟩, rfl⟩
    exact ⟨⟨h0, h1, h2, h3, h4⟩, rfl⟩
  · rintro ⟨⟨h0, h1, h2, h3, h4⟩, rfl⟩
    exact ⟨_, ⟨h0, rfl⟩, _, ⟨h1, rfl⟩, _, ⟨h2, rfl⟩, _, ⟨h3, rfl⟩, _, ⟨h4, rfl⟩, rfl⟩

/-! ## Faults -/

@[simp] theorem raise_regs (x : Trap) (s : State) : (raise x s).regs = s.regs := rfl
@[simp] theorem raise_cursor (x : Trap) (s : State) : (raise x s).cursor = s.cursor := rfl
@[simp] theorem raise_emitter (x : Trap) (s : State) : (raise x s).emitter = s.emitter := rfl
@[simp] theorem raise_seq (x : Trap) (s : State) : (raise x s).seq = .halted := rfl
@[simp] theorem raise_flt (x : Trap) (s : State) : (raise x s).flt = ⟨true, x.code.num, x.info⟩ := rfl
@[simp] theorem raise_rom (x : Trap) (s : State) : (raise x s).rom = s.rom := rfl
@[simp] theorem raise_params (x : Trap) (s : State) : (raise x s).params = s.params := rfl
@[simp] theorem raise_trace (x : Trap) (s : State) :
    (raise x s).trace = s.trace ++ [.fault x.code.num x.info] := rfl
@[simp] theorem raise_env (x : Trap) (s : State) : (raise x s).env = s.env := rfl

@[simp] theorem commit_ok (s s' : State) : commit s (.ok s') = s' := rfl
@[simp] theorem commit_error (s : State) (x : Trap) : commit s (.error x) = raise x s := rfl

/-- A committed micro-step either did all its writes or took one fault in the state before it. -/
theorem commit_cases {s t : State} {r : Except Trap State} (h : commit s r = t) :
    r = .ok t ∨ ∃ x, r = .error x ∧ t = raise x s := by
  cases r with
  | ok s' => exact Or.inl (by rw [← h]; rfl)
  | error x => exact Or.inr ⟨x, rfl, h.symm⟩

/-- Every fault code is one of 1 to 8. -/
theorem FaultCode.num_range (c : FaultCode) : 1 ≤ c.num.toNat ∧ c.num.toNat ≤ 8 := by
  cases c <;> decide

/-! ## Reset -/

@[simp] theorem applyReset_regs (s : State) : (applyReset s).regs = .reset := rfl
@[simp] theorem applyReset_cursor (s : State) : (applyReset s).cursor = .reset := rfl
@[simp] theorem applyReset_emitter (s : State) : (applyReset s).emitter = .reset := rfl
@[simp] theorem applyReset_seq (s : State) : (applyReset s).seq = .idle := rfl
@[simp] theorem applyReset_flt (s : State) : (applyReset s).flt = .reset := rfl
@[simp] theorem applyReset_rom (s : State) : (applyReset s).rom = s.rom := rfl
@[simp] theorem applyReset_params (s : State) : (applyReset s).params = s.params := rfl
@[simp] theorem applyReset_trace (s : State) : (applyReset s).trace = s.trace := rfl
@[simp] theorem applyReset_env (s : State) : (applyReset s).env = { s.env with rst := true } := rfl

/-- Releasing reset: one Reset event if `rst` was high, nothing else. -/
theorem releaseReset_cases (s : State) :
    (s.env.rst = true ∧ releaseReset s = (s.setEnv { s.env with rst := false }).log .reset) ∨
      (s.env.rst = false ∧ releaseReset s = s) := by
  unfold releaseReset
  cases s.env.rst <;> simp

/-! ## Acceptance -/

theorem ready_iff {s : State} :
    s.ready = true ↔ s.env.rst = false ∧ s.flt.fault = false ∧ s.busy = false := by
  simp [State.ready, and_assoc]

theorem accept_of_ready {s : State} {r : Reg} {k : State → State} (h : s.ready = true) : accept r s k = k s := by
  obtain ⟨h0, h1, h2⟩ := ready_iff.mp h
  simp [accept, h0, h1, h2]

/-- A host write falls to reset, is ignored, violates BUSY, or is accepted in a state that is ready for it. -/
theorem accept_cases (r : Reg) (s : State) (k : State → State) :
    ((s.env.rst = true ∨ s.flt.fault = true) ∧ accept r s k = s) ∨
      (s.env.rst = false ∧ s.flt.fault = false ∧ s.busy = true ∧
        accept r s k = raise ⟨.busyViolation, r.num.setWidth 16⟩ s) ∨
      (s.ready = true ∧ accept r s k = k s) := by
  unfold accept
  cases hr : s.env.rst <;> cases hf : s.flt.fault <;> cases hb : s.busy <;> simp [State.ready, hr, hf, hb]

/-- A command issued in a ready state commits its micro-step. -/
theorem issue_of_ready {op : State → Except Trap State} {s : State} (h : s.ready = true) :
    issue op s = .next (commit s (op s)) := by
  rw [issue, accept_of_ready h]

/-- Everything issuing a command can do: it always answers a next state, which is the old one (reset or halted), a
BUSY_VIOLATION, the micro-step's fault, or the micro-step's writes. -/
theorem issue_cases (op : State → Except Trap State) (s : State) :
    ∃ t, issue op s = .next t ∧
      (((s.env.rst = true ∨ s.flt.fault = true) ∧ t = s) ∨
        (s.env.rst = false ∧ s.flt.fault = false ∧ s.busy = true ∧ t = raise ⟨.busyViolation, 0#16⟩ s) ∨
        (s.ready = true ∧ ((∃ x, op s = .error x ∧ t = raise x s) ∨ op s = .ok t))) := by
  refine ⟨_, rfl, ?_⟩
  rcases accept_cases .cmd s (fun s => commit s (op s)) with ⟨h, e⟩ | ⟨hr, h, hb, e⟩ | ⟨h, e⟩
  · exact Or.inl ⟨h, e⟩
  · exact Or.inr (Or.inl ⟨hr, h, hb, e⟩)
  · refine Or.inr (Or.inr ⟨h, ?_⟩)
    rw [e]
    rcases commit_cases (rfl : commit s (op s) = _) with h1 | h1
    · exact Or.inr h1
    · exact Or.inl h1

/-- A store touches registers only. -/
theorem storeReg_frame (s : State) (r : Reg) (v : Word) : ∃ g, storeReg s r v = s.setRegs g := by
  cases r <;> exact ⟨_, rfl⟩

/-- A store leaves the registers alone that only the block writes (R21). -/
theorem storeReg_keeps (s : State) (r : Reg) (v : Word) :
    (storeReg s r v).regs.data = s.regs.data ∧ (storeReg s r v).regs.index = s.regs.index ∧
      (storeReg s r v).regs.carlat = s.regs.carlat := by
  cases r <;> exact ⟨rfl, rfl, rfl⟩

/-- The ROM size is between 1 and 65536 (R10). -/
theorem romSize_range (p : Config.Params) : 1 ≤ romSize p ∧ romSize p ≤ 65536 := by
  have := p.lastRomAddr.isLt
  unfold romSize
  omega

/-- TICK_CYCLES is at least 1 (R10). -/
theorem tickCycles_pos (p : Config.Params) : 0 < tickCycles p := Nat.succ_pos _

/-- `car_half` is at least 1 (R10). -/
theorem carHalf_pos (p : Config.Params) (cp : Byte) : 0 < carHalf p cp := by
  unfold carHalf
  split <;> omega

end Sys2Proof.Machine
end

