-- ==== Sys2Proof/Laws/Cursor.lean ====
section
/-! SUPPORT. Laws about the cursor's read function (R111): what a fetch answers, what the loop keeps, what it reads
from the state, and which fault it can raise. -/

namespace Sys2Proof.Machine

/-- A cursor with at most 7 unread bits that are the tail of the byte before its pointer (R33). -/
def Cursor.tailOf (m : List Host.Cell) (c : Cursor) : Prop :=
  c.nbits.toNat ≤ 7 ∧ (c.nbits ≠ 0#4 → c.bbyte = romByte m (c.ptr - 1#16))

theorem fetchByte_eq_ok {s : State} {c d : Cursor} :
    fetchByte s c = .ok d ↔ c.ptr.toNat < romSize s.params ∧ d = ⟨c.ptr + 1#16, romByte s.rom c.ptr, 8#4⟩ := by
  unfold fetchByte
  simp only [Except.bind_eq_ok, memRead_eq_ok, Except.ok.injEq]
  constructor
  · rintro ⟨b, ⟨h, rfl⟩, rfl⟩
    exact ⟨h, rfl⟩
  · rintro ⟨h, rfl⟩
    exact ⟨_, ⟨h, rfl⟩, rfl⟩

theorem fetchByte_eq_error {s : State} {c : Cursor} {t : Trap} :
    fetchByte s c = .error t ↔ ¬ c.ptr.toNat < romSize s.params ∧ t = ⟨.romRange, c.ptr⟩ := by
  unfold fetchByte
  simp only [Except.bind_eq_error, memRead_eq_error, reduceCtorEq, and_false, exists_false, or_false]

/-- The cursor from which a bit is taken: the one at hand, or the one a fetch leaves. -/
theorem refill_eq_ok {s : State} {c d : Cursor} :
    (if c.nbits = 0#4 then fetchByte s c else .ok c) = .ok d ↔
      (c.nbits ≠ 0#4 ∧ d = c) ∨
        (c.nbits = 0#4 ∧ c.ptr.toNat < romSize s.params ∧ d = ⟨c.ptr + 1#16, romByte s.rom c.ptr, 8#4⟩) := by
  split
  · rename_i h
    rw [fetchByte_eq_ok]
    constructor
    · rintro ⟨h1, h2⟩
      exact Or.inr ⟨h, h1, h2⟩
    · rintro (⟨h1, -⟩ | ⟨-, h1, h2⟩)
      · exact absurd h h1
      · exact ⟨h1, h2⟩
  · rename_i h
    rw [Except.ok.injEq]
    constructor
    · exact fun e => Or.inl ⟨h, e.symm⟩
    · rintro (⟨-, e⟩ | ⟨h1, -⟩)
      · exact e.symm
      · exact absurd h1 h

theorem nbits_sub_one {k : BitVec 4} (h : k ≠ 0#4) : (k - 1#4).toNat = k.toNat - 1 := by
  have : k.toNat ≠ 0 := fun e => h (BitVec.eq_of_toNat_eq (by simpa using e))
  have := k.isLt
  simp [BitVec.toNat_sub]
  omega

/-- One bit taken from a refilled cursor leaves the tail of the same byte. -/
theorem tailOf_take {s : State} {c d : Cursor} (hc : c.tailOf s.rom)
    (h : (if c.nbits = 0#4 then fetchByte s c else .ok c) = .ok d) :
    Cursor.tailOf s.rom { d with nbits := d.nbits - 1#4 } := by
  rcases refill_eq_ok.mp h with ⟨hne, rfl⟩ | ⟨-, -, rfl⟩
  · exact ⟨by rw [nbits_sub_one hne]; have := hc.1; omega, fun _ => hc.2 hne⟩
  · refine ⟨(by decide : (8#4 - 1#4).toNat ≤ 7), fun _ => ?_⟩
    show romByte s.rom c.ptr = romByte s.rom (c.ptr + 1#16 - 1#16)
    rw [BitVec.add_sub_cancel]

/-- The read loop keeps the cursor invariant (R33). -/
theorem readBitsLoop_tailOf {s : State} : ∀ {n : Nat} {c d : Cursor} {v w : Byte},
    c.tailOf s.rom → readBitsLoop s n c v = .ok (w, d) → d.tailOf s.rom
  | 0, c, d, v, w, hc, h => by
    simp only [readBitsLoop, Except.ok.injEq, Prod.mk.injEq] at h
    exact h.2 ▸ hc
  | n + 1, c, d, v, w, hc, h => by
    rw [readBitsLoop] at h
    obtain ⟨e, he, h⟩ := Except.bind_eq_ok.mp h
    exact readBitsLoop_tailOf (tailOf_take hc he) h

/-- A read that succeeds keeps the cursor invariant (R33). -/
theorem readBits_tailOf {s : State} {n : Nat} {v : Byte} {c : Cursor} (hs : s.cursor.tailOf s.rom)
    (h : readBits s n = .ok (v, c)) : c.tailOf s.rom := readBitsLoop_tailOf hs h

/-- The only fault of the read loop is ROM_RANGE, at an address that is not there (R111). -/
theorem readBitsLoop_error {s : State} : ∀ {n : Nat} {c : Cursor} {v : Byte} {t : Trap},
    readBitsLoop s n c v = .error t → t.code = .romRange ∧ ¬ t.info.toNat < romSize s.params
  | 0, c, v, t, h => by simp [readBitsLoop] at h
  | n + 1, c, v, t, h => by
    rw [readBitsLoop] at h
    rcases Except.bind_eq_error.mp h with h | ⟨e, -, h⟩
    · split at h
      · obtain ⟨h1, rfl⟩ := fetchByte_eq_error.mp h
        exact ⟨rfl, h1⟩
      · simp at h
    · exact readBitsLoop_error h

/-- The only fault of a read is ROM_RANGE, at an address that is not there (R111, R232). -/
theorem readBits_error {s : State} {n : Nat} {t : Trap} (h : readBits s n = .error t) :
    t.code = .romRange ∧ ¬ t.info.toNat < romSize s.params := readBitsLoop_error h

/-- The read loop depends on the ROM image and its size only, beside the working copies. -/
theorem readBitsLoop_congr {s t : State} (hr : t.rom = s.rom) (hp : t.params = s.params) :
    ∀ (n : Nat) (c : Cursor) (v : Byte), readBitsLoop t n c v = readBitsLoop s n c v
  | 0, c, v => rfl
  | n + 1, c, v => by
    have hf : fetchByte t c = fetchByte s c := by simp only [fetchByte, memRead_congr hr hp]
    simp only [readBitsLoop, hf]
    congr 1
    funext d
    exact readBitsLoop_congr hr hp n _ _

end Sys2Proof.Machine
end

