-- ==== Sys2Proof/Laws/Commands.lean ====
section
/-! SUPPORT. Laws about the commands' micro-steps: for each, everything it can do, as writes to the named fields. -/

namespace Sys2Proof.Machine

theorem countOk_iff {n : Nat} : countOk n = true ↔ 1 ≤ n ∧ n ≤ 8 := by simp [countOk]

theorem indexOutside_iff {l : Word} {i : Byte} : indexOutside l i = true ↔ l ≠ 0#16 ∧ l.toNat ≤ i.toNat := by
  simp [indexOutside]

/-- READ_BITS, if it answers: a legal count, and DATA and the cursor as the read function gives them. -/
theorem readBitsOp_eq_ok {n : Nat} {s t : State} :
    readBitsOp n s = .ok t ↔ (1 ≤ n ∧ n ≤ 8) ∧ ∃ v c, readBits s n = .ok (v, c) ∧
      t = (s.setRegs { s.regs with data := v }).setCursor c := by
  unfold readBitsOp
  split
  · rename_i h
    simp only [Except.bind_eq_ok, countOk_iff.mp h, and_self, true_and, Prod.exists, Except.ok.injEq]
    constructor
    · rintro ⟨v, c, h1, rfl⟩
      exact ⟨v, c, h1, rfl⟩
    · rintro ⟨v, c, h1, rfl⟩
      exact ⟨v, c, h1, rfl⟩
  · rename_i h
    simp only [reduceCtorEq, false_iff]
    rintro ⟨h1, -⟩
    exact h (countOk_iff.mpr h1)

/-- READ_BITS, if it faults: BAD_COUNT with the CMD word, or the fault of the read. -/
theorem readBitsOp_eq_error {n : Nat} {s : State} {x : Trap} :
    readBitsOp n s = .error x ↔
      (¬ (1 ≤ n ∧ n ≤ 8) ∧ x = ⟨.badCount, encode (.readBits n)⟩) ∨
        ((1 ≤ n ∧ n ≤ 8) ∧ readBits s n = .error x) := by
  unfold readBitsOp
  split
  · rename_i h
    simp [Except.bind_eq_error, countOk_iff.mp h]
  · rename_i h
    have h' : ¬ (1 ≤ n ∧ n ≤ 8) := fun k => h (countOk_iff.mpr k)
    simp only [Except.error.injEq, h', not_false_eq_true, true_and, false_and, or_false]
    exact eq_comm

/-- LOAD, if it answers: the whole header is present, its width is usable, and the registers and the cursor are those
of the record. -/
theorem loadOp_eq_ok {s t : State} :
    loadOp s = .ok t ↔ ∃ h, readHeader s s.regs.addr = .ok h ∧ (1 ≤ h.indexWidth.toNat ∧ h.indexWidth.toNat ≤ 8) ∧
      t = (s.setRegs { s.regs with
            carrier := h.carrierPeriod, pairs := h.pairCount, width := h.indexWidth, ttbase := h.tableRef }).setCursor
          { s.cursor with ptr := s.regs.addr + 5#16, nbits := 0#4 } := by
  unfold loadOp
  simp only [Except.bind_eq_ok]
  refine exists_congr fun h => and_congr_right fun _ => ?_
  split
  · rename_i hw
    simp only [Except.ok.injEq, countOk_iff.mp hw, and_self, true_and]
    exact eq_comm
  · rename_i hw
    have hw' : ¬ (1 ≤ h.indexWidth.toNat ∧ h.indexWidth.toNat ≤ 8) := fun k => hw (countOk_iff.mpr k)
    simp [hw']

/-- NEXT, if it answers: every check passed, and the registers and the cursor are those of the pair decoded. -/
theorem nextOp_eq_ok {s t : State} :
    nextOp s = .ok t ↔ (1 ≤ s.regs.width.toNat ∧ s.regs.width.toNat ≤ 8) ∧ s.regs.pairs ≠ 0#8 ∧
      ∃ v c on off, readBits s s.regs.width.toNat = .ok (v, c) ∧ indexOutside s.regs.ttlim v = false ∧
        memRead2 s (tableAddr s.regs.ttbase v) = .ok on ∧ memRead2 s (tableAddr s.regs.ttbase v + 2#16) = .ok off ∧
        t = (s.setRegs { s.regs with on := on, off := off, index := v, pairs := s.regs.pairs - 1#8 }).setCursor c := by
  unfold nextOp
  split
  · rename_i h
    have h' : ¬ (1 ≤ s.regs.width.toNat ∧ s.regs.width.toNat ≤ 8) := fun k => by
      simp [countOk_iff.mpr k] at h
    simp [h']
  · rename_i h
    have hw : 1 ≤ s.regs.width.toNat ∧ s.regs.width.toNat ≤ 8 := countOk_iff.mp (by simpa using h)
    split
    · rename_i hp
      simp [hp]
    · rename_i hp
      simp only [Except.bind_eq_ok, Prod.exists, hw, and_self, true_and, hp, ne_eq, not_false_eq_true]
      constructor
      · rintro ⟨v, c, h1, h2⟩
        split at h2
        · simp at h2
        · rename_i hi
          obtain ⟨on, h3, h4⟩ := Except.bind_eq_ok.mp h2
          obtain ⟨off, h5, h6⟩ := Except.bind_eq_ok.mp h4
          exact ⟨v, c, on, off, h1, by simpa using hi, h3, h5, (Except.ok.inj h6).symm⟩
      · rintro ⟨v, c, on, off, h1, h2, h3, h4, rfl⟩
        exact ⟨v, c, h1, by simp [h2, h3, h4, Except.bind]⟩

/-- NEXT, if it faults: one of its five faults (R135). -/
theorem nextOp_error_code {s : State} {x : Trap} (h : nextOp s = .error x) :
    (x.code = .badWidth ∧ ¬ (1 ≤ s.regs.width.toNat ∧ s.regs.width.toNat ≤ 8)) ∨
      (x.code = .noPairs ∧ s.regs.pairs = 0#8) ∨
      (x.code = .romRange ∧ ¬ x.info.toNat < romSize s.params) ∨ (x.code = .indexRange ∧ s.regs.ttlim ≠ 0#16) := by
  unfold nextOp at h
  split at h
  · rename_i hw
    refine Or.inl ⟨by rw [← Except.error.inj h], fun k => ?_⟩
    simp [countOk_iff.mpr k] at hw
  · split at h
    · rename_i hp
      exact Or.inr (Or.inl ⟨by rw [← Except.error.inj h], hp⟩)
    · refine Or.inr (Or.inr ?_)
      rcases Except.bind_eq_error.mp h with h | ⟨vc, -, h⟩
      · exact Or.inl (readBits_error h)
      · split at h
        · rename_i hi
          exact Or.inr ⟨by rw [← Except.error.inj h], (indexOutside_iff.mp hi).1⟩
        · refine Or.inl ?_
          rcases Except.bind_eq_error.mp h with h | ⟨_, -, h⟩
          · rcases memRead2_eq_error.mp h with ⟨h1, rfl⟩ | ⟨-, h1, rfl⟩ <;> exact ⟨rfl, h1⟩
          · rcases Except.bind_eq_error.mp h with h | ⟨_, -, h⟩
            · rcases memRead2_eq_error.mp h with ⟨h1, rfl⟩ | ⟨-, h1, rfl⟩ <;> exact ⟨rfl, h1⟩
            · simp at h

/-- EMIT, if it answers: it needs no carrier or has one, and the pair begins. -/
theorem emitOp_eq_ok {s t : State} :
    emitOp s = .ok t ↔ (s.useCarrier = true → s.carrierRuns = true) ∧ t = beginPair .emitOn s := by
  unfold emitOp
  cases hu : s.useCarrier <;> cases hr : s.carrierRuns <;> simp [eq_comm]

@[simp] theorem beginPair_regs (q : Seq) (s : State) : (beginPair q s).regs = s.regs := rfl
@[simp] theorem beginPair_cursor (q : Seq) (s : State) : (beginPair q s).cursor = s.cursor := rfl
@[simp] theorem beginPair_emitter (q : Seq) (s : State) :
    (beginPair q s).emitter = { s.emitter with flag := s.useCarrier, dcnt := s.regs.on, pre := 0 } := rfl
@[simp] theorem beginPair_seq (q : Seq) (s : State) : (beginPair q s).seq = q := rfl
@[simp] theorem beginPair_flt (q : Seq) (s : State) : (beginPair q s).flt = s.flt := rfl
@[simp] theorem beginPair_rom (q : Seq) (s : State) : (beginPair q s).rom = s.rom := rfl
@[simp] theorem beginPair_params (q : Seq) (s : State) : (beginPair q s).params = s.params := rfl
@[simp] theorem beginPair_trace (q : Seq) (s : State) : (beginPair q s).trace =
    s.trace ++ [.emit s.regs.on s.regs.off s.useCarrier (if s.useCarrier then s.regs.carlat else 0#8)] := rfl
@[simp] theorem beginPair_env (q : Seq) (s : State) : (beginPair q s).env = s.env := rfl

/-- After a pair PLAY goes on to PLAY_NEXT exactly if pairs are left (R44). -/
theorem afterPair_cases (s : State) :
    (s.regs.pairs = 0#8 ∧ afterPair s = .playClr) ∨ (s.regs.pairs ≠ 0#8 ∧ afterPair s = .playNext) := by
  unfold afterPair
  split <;> simp_all

end Sys2Proof.Machine
end

