-- ==== Sys2Proof/Laws/Clock.lean ====
section
/-! SUPPORT. Laws about the two clocks: the carrier generator (R160) and the unit timer with the ends of the phases
(R156 to R158). -/

namespace Sys2Proof.Machine

/-! ## The carrier generator -/

/-- While it runs, the count stays below the half-period. -/
theorem carStep_count_lt {half : Nat} {c : Nat × Bool} (h : c.1 < half) : (carStep true half c).1 < half := by
  unfold carStep
  simp only [if_true]
  split
  · show 0 < half
    omega
  · show c.1 + 1 < half
    omega

theorem carRun_count_lt {half : Nat} : ∀ (k : Nat) {c : Nat × Bool}, c.1 < half → (carRun true half k c).1 < half
  | 0, _, h => h
  | k + 1, _, h => carRun_count_lt k (carStep_count_lt h)

/-- While it does not run, it holds count 0 and level 0. -/
theorem carRun_holds {half : Nat} : ∀ (k : Nat), carRun false half k (0, false) = (0, false)
  | 0 => rfl
  | k + 1 => by
    rw [carRun, carStep]
    exact carRun_holds k

/-- Cycles add up. -/
theorem carRun_add (runs : Bool) (half : Nat) : ∀ (j k : Nat) (c : Nat × Bool),
    carRun runs half (j + k) c = carRun runs half k (carRun runs half j c)
  | 0, k, c => by simp [carRun]
  | j + 1, k, c => by
    rw [Nat.add_right_comm, carRun, carRun, carRun_add runs half j k]

@[simp] theorem carCycles_regs (k : Nat) (s : State) : (carCycles k s).regs = s.regs := rfl
@[simp] theorem carCycles_cursor (k : Nat) (s : State) : (carCycles k s).cursor = s.cursor := rfl
@[simp] theorem carCycles_seq (k : Nat) (s : State) : (carCycles k s).seq = s.seq := rfl
@[simp] theorem carCycles_flt (k : Nat) (s : State) : (carCycles k s).flt = s.flt := rfl
@[simp] theorem carCycles_rom (k : Nat) (s : State) : (carCycles k s).rom = s.rom := rfl
@[simp] theorem carCycles_params (k : Nat) (s : State) : (carCycles k s).params = s.params := rfl
@[simp] theorem carCycles_trace (k : Nat) (s : State) : (carCycles k s).trace = s.trace := rfl
@[simp] theorem carCycles_env (k : Nat) (s : State) : (carCycles k s).env = s.env := rfl
@[simp] theorem carCycles_flag (k : Nat) (s : State) : (carCycles k s).emitter.flag = s.emitter.flag := rfl
@[simp] theorem carCycles_dcnt (k : Nat) (s : State) : (carCycles k s).emitter.dcnt = s.emitter.dcnt := rfl
@[simp] theorem carCycles_pre (k : Nat) (s : State) : (carCycles k s).emitter.pre = s.emitter.pre := rfl
@[simp] theorem carCycles_armed (k : Nat) (s : State) : (carCycles k s).emitter.armed = s.emitter.armed := rfl

@[simp] theorem freeCarrier_regs (s : State) : (freeCarrier s).regs = s.regs := rfl
@[simp] theorem freeCarrier_cursor (s : State) : (freeCarrier s).cursor = s.cursor := rfl
@[simp] theorem freeCarrier_seq (s : State) : (freeCarrier s).seq = s.seq := rfl
@[simp] theorem freeCarrier_flt (s : State) : (freeCarrier s).flt = s.flt := rfl
@[simp] theorem freeCarrier_rom (s : State) : (freeCarrier s).rom = s.rom := rfl
@[simp] theorem freeCarrier_params (s : State) : (freeCarrier s).params = s.params := rfl
@[simp] theorem freeCarrier_trace (s : State) : (freeCarrier s).trace = s.trace := rfl
@[simp] theorem freeCarrier_flag (s : State) : (freeCarrier s).emitter.flag = s.emitter.flag := rfl
@[simp] theorem freeCarrier_dcnt (s : State) : (freeCarrier s).emitter.dcnt = s.emitter.dcnt := rfl
@[simp] theorem freeCarrier_pre (s : State) : (freeCarrier s).emitter.pre = s.emitter.pre := rfl
@[simp] theorem freeCarrier_armed (s : State) : (freeCarrier s).emitter.armed = s.emitter.armed := rfl
@[simp] theorem freeCarrier_schedule (s : State) : (freeCarrier s).env.schedule = s.env.schedule := rfl
@[simp] theorem freeCarrier_prog (s : State) : (freeCarrier s).env.prog = s.env.prog := rfl
@[simp] theorem freeCarrier_wakes (s : State) : (freeCarrier s).env.wakes = s.env.wakes := rfl
@[simp] theorem freeCarrier_reads (s : State) : (freeCarrier s).env.reads = s.env.reads := rfl
@[simp] theorem freeCarrier_rst (s : State) : (freeCarrier s).env.rst = s.env.rst := rfl

/-- A free carrier run is some number of `car_clk` cycles and one draw. -/
theorem freeCarrier_spec (s : State) :
    ∃ k, freeCarrier s = (carCycles k s).setEnv { s.env with draws := s.env.draws + 1 } := ⟨_, rfl⟩

/-! ## The unit timer -/

/-- One counted cycle either advances the prescaler or, at its wrap, takes one unit off. -/
theorem countCycle_cases (s : State) :
    (s.emitter.pre + 1 < tickCycles s.params ∧
        countCycle s = s.setEmitter { s.emitter with pre := s.emitter.pre + 1 }) ∨
      (tickCycles s.params ≤ s.emitter.pre + 1 ∧
        countCycle s = s.setEmitter { s.emitter with pre := 0, dcnt := s.emitter.dcnt - 1#16 }) := by
  unfold countCycle
  split
  · exact Or.inl ⟨by assumption, rfl⟩
  · exact Or.inr ⟨by omega, rfl⟩

/-- The end of a phase: which phase it was, and what is written. -/
theorem endPhase_cases (s : State) :
    (s.seq = .emitOn ∧ endPhase s = endOn .emitOff s) ∨ (s.seq = .emitOff ∧ endPhase s = s.setSeq .idle) ∨
      (s.seq = .playOn ∧ endPhase s = endOn .playOff s) ∨ (s.seq = .playOff ∧ endPhase s = s.setSeq (afterPair s)) ∨
      (s.seq.isPhase = false ∧ endPhase s = s) := by
  unfold endPhase
  cases h : s.seq <;> simp [Seq.isPhase]

theorem passPhase_of_over {s : State} (h : s.phaseOver = true) : passPhase s = endPhase s := by
  simp [passPhase, h]

theorem passPhase_of_running {s : State} (h : s.phaseOver = false) : passPhase s = s := by
  simp [passPhase, h]

theorem phaseOver_iff {s : State} : s.phaseOver = true ↔ s.seq.isPhase = true ∧ s.emitter.dcnt = 0#16 := by
  simp [State.phaseOver]

/-- After settling, a phase has a unit left to run. -/
theorem settle_not_over (s : State) : (settle s).phaseOver = false := by
  have off : ∀ t : State, (t.seq = .emitOff ∨ t.seq = .playOff) → (passPhase t).phaseOver = false := by
    intro t ht
    by_cases h : t.phaseOver = true
    · rw [passPhase_of_over h]
      rcases ht with ht | ht
      · simp [endPhase, ht, State.phaseOver, Seq.isPhase]
      · rcases afterPair_cases t with ⟨-, e⟩ | ⟨-, e⟩ <;> simp [endPhase, ht, State.phaseOver, e, Seq.isPhase]
    · rw [passPhase_of_running (by simpa using h)]
      simpa using h
  unfold settle
  by_cases h : s.phaseOver = true
  · rw [passPhase_of_over h]
    rcases endPhase_cases s with ⟨-, e⟩ | ⟨hs, e⟩ | ⟨-, e⟩ | ⟨hs, e⟩ | ⟨hs, -⟩
    · exact off _ (by rw [e]; exact Or.inl rfl)
    · rw [e, passPhase_of_running] <;> simp [State.phaseOver, Seq.isPhase]
    · exact off _ (by rw [e]; exact Or.inr rfl)
    · rw [e]
      rcases afterPair_cases s with ⟨-, e'⟩ | ⟨-, e'⟩ <;>
        (rw [e', passPhase_of_running] <;> simp [State.phaseOver, Seq.isPhase])
    · simp [phaseOver_iff, hs] at h
  · have h' : s.phaseOver = false := by simpa using h
    rw [passPhase_of_running h', passPhase_of_running h']
    exact h'

end Sys2Proof.Machine
end

