-- ==== Sys2Proof/Laws/PerInstr.lean ====
section
/-! SUPPORT. Statements made for each command: the fields of its word (R80). -/

namespace Sys2Proof.Laws

/-- The word of a well-formed command has RSV 0, an OP between 0x1 and 0x9, and N 0 unless it is READ_BITS
(R80, R82). -/
def WordFields.Statement (i : Instr) : Prop :=
  i.wf = true →
    rsvField (encode i) = 0#8 ∧ (1 ≤ (opField (encode i)).toNat ∧ (opField (encode i)).toNat ≤ 9) ∧
      (opField (encode i) ≠ 2#4 → nField (encode i) = 0#4)

theorem WordFields.setptr : WordFields.Statement .setptr := fun _ => by decide
theorem WordFields.readBits (n : Nat) : WordFields.Statement (.readBits n) := fun h => by
  have hn : n < 16 := by simpa [Instr.wf] using h
  have : ∀ k < 16, rsvField (encode (.readBits k)) = 0#8 ∧
      (1 ≤ (opField (encode (.readBits k))).toNat ∧ (opField (encode (.readBits k))).toNat ≤ 9) ∧
        (opField (encode (.readBits k)) ≠ 2#4 → nField (encode (.readBits k)) = 0#4) := by decide
  exact this n hn
theorem WordFields.clrbuf : WordFields.Statement .clrbuf := fun _ => by decide
theorem WordFields.load : WordFields.Statement .load := fun _ => by decide
theorem WordFields.next : WordFields.Statement .next := fun _ => by decide
theorem WordFields.arm : WordFields.Statement .arm := fun _ => by decide
theorem WordFields.emit : WordFields.Statement .emit := fun _ => by decide
theorem WordFields.disarm : WordFields.Statement .disarm := fun _ => by decide
theorem WordFields.play : WordFields.Statement .play := fun _ => by decide

end Sys2Proof.Laws
end

