-- ==== Sys2Proof/Laws/Turn.lean ====
section
/-! SUPPORT. Laws about what can move the machine: every command as one issued operation, every micro-step, every line
of a host program and every turn, each as a list of the cases there are. -/

namespace Sys2Proof.Machine

/-- The micro-step a command issues. -/
def opOf : Instr → State → Except Trap State
  | .setptr => setptrOp
  | .readBits n => readBitsOp n
  | .clrbuf => clrbufOp
  | .load => loadOp
  | .next => nextOp
  | .arm => armOp
  | .emit => emitOp
  | .disarm => disarmOp
  | .play => playOp

/-- Every command is its micro-step, issued. -/
theorem exec_eq_issue (i : Instr) (s : State) : exec i s = issue (opOf i) s := by
  cases i <;> rfl

/-- Where a command's micro-step leaves the sequencer. -/
def seqAfter (i : Instr) (s : State) : Seq :=
  match i with
  | .emit => .emitOn
  | .play => .playLoad
  | .setptr | .readBits _ | .clrbuf | .load | .next | .arm | .disarm => s.seq

/-- The event a command's micro-step logs, if it logs one (R46). -/
def eventOf (i : Instr) (s : State) : List Obs :=
  match i with
  | .arm => [.arm s.regs.carrier]
  | .emit => [.emit s.regs.on s.regs.off s.useCarrier (if s.useCarrier then s.regs.carlat else 0#8)]
  | .disarm => [.disarm]
  | .setptr | .readBits _ | .clrbuf | .load | .next | .play => []

/-- What a command's micro-step that answers can do to the state beside registers, cursor and emitter. -/
theorem opOf_shape {i : Instr} {s t : State} (h : opOf i s = .ok t) :
    t.flt = s.flt ∧ t.rom = s.rom ∧ t.params = s.params ∧ t.env = s.env ∧ t.seq = seqAfter i s ∧
      t.trace = s.trace ++ eventOf i s := by
  cases i with
  | setptr => obtain rfl := Except.ok.inj h; simp [seqAfter, eventOf]
  | readBits n => obtain ⟨-, v, c, -, rfl⟩ := readBitsOp_eq_ok.mp h; simp [seqAfter, eventOf]
  | clrbuf => obtain rfl := Except.ok.inj h; simp [seqAfter, eventOf]
  | load => obtain ⟨g, -, -, rfl⟩ := loadOp_eq_ok.mp h; simp [seqAfter, eventOf]
  | next => obtain ⟨-, -, v, c, on, off, -, -, -, -, rfl⟩ := nextOp_eq_ok.mp h; simp [seqAfter, eventOf]
  | arm => obtain rfl := Except.ok.inj h; simp [seqAfter, eventOf]
  | emit => obtain ⟨-, rfl⟩ := emitOp_eq_ok.mp h; simp [seqAfter, eventOf]
  | disarm => obtain rfl := Except.ok.inj h; simp [seqAfter, eventOf]
  | play => obtain rfl := Except.ok.inj h; simp [seqAfter, eventOf]

/-- The operation of a block micro-step that is not a phase (R44). -/
def microOp (s : State) : Option (Except Trap State) :=
  match s.seq with
  | .playLoad => some (playLoadOp s)
  | .playArm => some (playArmOp s)
  | .playNext => some (playNextOp s)
  | .playClr => some (playClrOp s)
  | .playDisarm => some (playDisarmOp s)
  | .idle | .emitOn | .emitOff | .playOn | .playOff | .halted => none

/-- Every micro-step: nothing (IDLE, HALTED), a phase run to its end, or one of PLAY's operations, committed. -/
theorem microStep_cases (s : State) :
    ((s.seq = .idle ∨ s.seq = .halted) ∧ microStep s = s) ∨
      (s.seq.isPhase = true ∧ microStep s = finishPhase s) ∨
      (∃ r, microOp s = some r ∧ microStep s = commit s r) := by
  unfold microStep microOp
  cases h : s.seq <;> simp [Seq.isPhase]

/-- A block that is not busy takes no micro-step. -/
theorem microStep_of_not_busy {s : State} (h : s.busy = false) : microStep s = s := by
  unfold microStep
  cases hs : s.seq <;> simp_all [State.busy, Seq.busy]

/-- A host write to a register other than CMD. -/
theorem hostWrite_of_ne_cmd {r : Reg} (h : r ≠ .cmd) (v : Word) (s : State) :
    hostWrite r v s = .next (accept r s fun s => storeReg s r v) := by
  cases r <;> first | exact absurd rfl h | rfl

/-- A host write to CMD of a word that decodes is that command. -/
theorem hostWrite_cmd_of_decode {w : Word} {i : Instr} (h : decode w = .ok i) (s : State) :
    hostWrite .cmd w s = exec i s := by
  simp [hostWrite, hostCommand, h]

/-- A host write to CMD of an illegal word issues ILLEGAL_CMD. -/
theorem hostWrite_cmd_of_illegal {w : Word} {e : Illegal} (h : decode w = .error e) (s : State) :
    hostWrite .cmd w s = issueIllegal w s := by
  simp [hostWrite, hostCommand, h]

/-- Every host write: to CMD with a command, to CMD with an illegal word, or to another register. -/
theorem hostWrite_cases (r : Reg) (v : Word) (s : State) :
    (∃ i, r = .cmd ∧ decode v = .ok i ∧ hostWrite r v s = exec i s) ∨
      (∃ e, r = .cmd ∧ decode v = .error e ∧ hostWrite r v s = issueIllegal v s) ∨
      (r ≠ .cmd ∧ hostWrite r v s = .next (accept r s fun s => storeReg s r v)) := by
  by_cases h : r = .cmd
  · subst h
    cases hd : decode v with
    | ok i => exact Or.inl ⟨i, rfl, rfl, hostWrite_cmd_of_decode hd s⟩
    | error e => exact Or.inr (Or.inl ⟨e, rfl, rfl, hostWrite_cmd_of_illegal hd s⟩)
  · exact Or.inr (Or.inr ⟨h, hostWrite_of_ne_cmd h v s⟩)

/-- Every step: the scheduled turn, or with none scheduled the end of a reset, a micro-step, or the host's turn after a
free carrier run. -/
theorem step_cases (s : State) :
    (∃ t ts, s.env.schedule = t :: ts ∧ step s = turn t (s.setEnv { s.env with schedule := ts })) ∨
      (s.env.schedule = [] ∧ s.env.rst = true ∧ step s = turn .rstLow s) ∨
      (s.env.schedule = [] ∧ s.env.rst = false ∧ s.busy = true ∧ step s = turn .micro s) ∨
      (s.env.schedule = [] ∧ s.env.rst = false ∧ s.busy = false ∧ step s = turn .host (freeCarrier s)) := by
  unfold step takeTurn freeTurn
  cases h : s.env.schedule with
  | nil => cases hr : s.env.rst <;> cases hb : s.busy <;> simp
  | cons t ts => exact Or.inl ⟨t, ts, rfl, rfl⟩

end Sys2Proof.Machine
end

