-- ==== Sys2Proof/Tests/Slice0.lean ====
section
/-! SUPPORT. Tests: words written out from R82, and one step at a time against the vectors of `95_test_vectors.md`
(named in each comment). The witnesses of the obligations are in Tests/Witnesses.lean. -/

namespace Sys2Proof.Tests

open Sys2Proof Sys2Proof.Machine

/-! ## Helpers -/

/-- The next state of an outcome. -/
def after : Host.Outcome State Fault Refusal → State
  | .next t => t
  | .fault _ | .refused _ => State.reset

/-- The bytes of image V that a test needs: record R-A, table T-A (the §8 end-to-end code). -/
def romA : List Host.Cell :=
  Memory.load (Memory.load [] 0x10 [0x68, 2, 1, 0x20, 0, 0x80]) 0x20 [0x64, 0, 0x32, 0, 0xC8, 0, 0x19, 0]

/-- The §8 bit-reader bytes at 0x0100. -/
def romBits : List Host.Cell := [(0x100, 0xB5), (0x101, 0x66)]

/-- A reset state with a ROM image of a given size. -/
def withRom (m : List Host.Cell) (last : Word) : State :=
  { State.reset with rom := m, params := { Config.Params.default with lastRomAddr := last } }

/-- The §8 code, in 64K of ROM, ADDR at its record. -/
def stA : State := (withRom romA 0xFFFF).setRegs { Regs.reset with addr := 0x10 }

/-- The §8 code after LOAD (vector D-CD-1). -/
def stLoaded : State := after (execLoad stA)

/-- The bit-reader bytes, the cursor at 0x0100 with an empty buffer, the ROM ending at a given address. -/
def stBits (last : Word) : State := (withRom romBits last).setCursor ⟨0x100, 0, 0⟩

/-- The cursor of D-BR-5: three bits of 0xB5 left. -/
def stBits3 (last : Word) : State := (withRom romBits last).setCursor ⟨0x101, 0xB5, 3⟩

/-- An armed block with carrier 0x68 and a pair in ON and OFF (vector D-EM-2). -/
def stArmed : State :=
  (State.reset.setRegs { Regs.reset with carrier := 0x68, carlat := 0x68, on := 200, off := 25 }).setEmitter
    { Emitter.reset with armed := true }

/-- A block with an EMIT in its on phase (vector D-EM-11). -/
def stEmitting : State := after (execEmit (State.reset.setRegs { Regs.reset with on := 100, off := 50 }))

/-- A halted block (vector D-BR-11). -/
def stHalted : State := after (execReadBits 0 State.reset)

/-- A state whose next turn is `t` and whose host program is `p`. -/
def queued (t : Turn) (p : List HostLine) (s : State) : State :=
  s.setEnv { s.env with schedule := [t], prog := p }

/-! ## Words (R82, R83) -/

theorem test_setptr_word : decode 0b0001_00000000_0000#16 = .ok .setptr := by decide
theorem test_readBits_word : decode 0b0010_00000000_0011#16 = .ok (.readBits 3) := by decide
theorem test_readBits_word_max : decode 0b0010_00000000_1111#16 = .ok (.readBits 15) := by decide
theorem test_clrbuf_word : decode 0b0011_00000000_0000#16 = .ok .clrbuf := by decide
theorem test_load_word : decode 0b0100_00000000_0000#16 = .ok .load := by decide
theorem test_next_word : decode 0b0101_00000000_0000#16 = .ok .next := by decide
theorem test_arm_word : decode 0b0110_00000000_0000#16 = .ok .arm := by decide
theorem test_emit_word : decode 0b0111_00000000_0000#16 = .ok .emit := by decide
theorem test_disarm_word : decode 0b1000_00000000_0000#16 = .ok .disarm := by decide
theorem test_play_word : decode 0b1001_00000000_0000#16 = .ok .play := by decide

/-- D-HI-6 and D-BR-14: each illegal word with its reason. -/
theorem test_illegal_words :
    decode 0x0000#16 = .error .reservedOp ∧ decode 0xA000#16 = .error .reservedOp ∧
      decode 0xF000#16 = .error .reservedOp ∧ decode 0x1010#16 = .error .reservedBits ∧
      decode 0x4800#16 = .error .reservedBits ∧ decode 0x2013#16 = .error .reservedBits ∧
      decode 0x3001#16 = .error .operandNotZero ∧ decode 0x9001#16 = .error .operandNotZero := by decide

theorem test_decodeTableWord : decodeTableWord 16 0x2005 = some (.readBits 5) ∧ decodeTableWord 16 0x0 = none := by
  decide

/-- The smoke test of WellFormed: a count that no 4-bit field holds. -/
theorem test_wf_refuses_wide_count : (Instr.readBits 16).wf = false ∧ (Instr.readBits 15).wf = true := by decide

/-- R20: the register numbers, each its own. -/
theorem test_reg_numbers : ∀ n : BitVec 4, (Reg.ofNum n).num = n := by decide

/-! ## One step each -/

/-- D-BR-8: the stale byte stays, the count is 0. -/
theorem test_setptr :
    (after (exec .setptr ((withRom romBits 0xFFFF).setCursor ⟨0x102, 0x66, 7⟩))).cursor = ⟨0, 0x66, 0⟩ := by decide

/-- L1-2: the second read, 6 bits of which 5 are buffered, straddles into 0x66. -/
theorem test_readBits_straddle :
    (after (exec (.readBits 6) ((withRom romBits 0xFFFF).setCursor ⟨0x101, 0xB5, 5⟩))).regs.data = 42 ∧
      (after (exec (.readBits 6) ((withRom romBits 0xFFFF).setCursor ⟨0x101, 0xB5, 5⟩))).cursor = ⟨0x102, 0x66, 7⟩ := by
  decide

/-- D-BR-9: a read that ends on a byte boundary fetches nothing more, even at the end of the ROM. -/
theorem test_readBits_lazy :
    (after (exec (.readBits 8) (stBits 0x100))).regs.data = 0xB5 ∧
      (after (exec (.readBits 8) (stBits 0x100))).cursor = ⟨0x101, 0xB5, 0⟩ := by decide

/-- The example of R116. -/
theorem test_clrbuf :
    (after (exec .clrbuf ((withRom romBits 0xFFFF).setCursor ⟨0x102, 0x66, 7⟩))).cursor = ⟨0x102, 0x66, 0⟩ := by decide

/-- The example of R130 (vector D-CD-1). -/
theorem test_load :
    stLoaded.regs = { stA.regs with carrier := 0x68, pairs := 2, width := 1, ttbase := 0x20 } ∧
      stLoaded.cursor = ⟨0x15, 0, 0⟩ := by decide

/-- D-CD-13: the header's fourth byte is past the end. -/
theorem test_load_range :
    (after (exec .load (stA.setRegs stA.regs))).flt.fault = false ∧
      (after (exec .load { stA with params := { stA.params with lastRomAddr := 0x12 } })).flt = ⟨true, 5, 0x13⟩ := by
  decide

/-- The example of R135 (vector D-CD-2). -/
theorem test_next :
    (after (exec .next stLoaded)).regs =
        { stLoaded.regs with on := 200, off := 25, index := 1, pairs := 1 } ∧
      (after (exec .next stLoaded)).cursor = ⟨0x16, 0x80, 7⟩ := by decide

/-- D-CD-12: the table byte is past the end; the cursor move is not committed. -/
theorem test_next_precise :
    (after (exec .next { stLoaded with params := { stA.params with lastRomAddr := 0x23 } })).flt = ⟨true, 5, 0x24⟩ ∧
      (after (exec .next { stLoaded with params := { stA.params with lastRomAddr := 0x23 } })).cursor = ⟨0x15, 0, 0⟩ := by
  decide

/-- D-EM-9: ARM while armed re-latches. -/
theorem test_arm :
    (after (exec .arm (stArmed.setRegs { stArmed.regs with carrier := 0x20 }))).regs.carlat = 0x20 ∧
      (after (exec .arm (stArmed.setRegs { stArmed.regs with carrier := 0x20 }))).trace = [.arm 0x20] := by decide

/-- D-EM-2: the Emit record, and STATUS in the on phase. -/
theorem test_emit :
    (after (exec .emit stArmed)).trace = [.emit 200 25 true 0x68] ∧
      readReg (after (exec .emit stArmed)) .status = 0x000D := by decide

/-- D-EM-10: the flag is from CARRIER, the frequency from CARLAT. -/
theorem test_emit_latched :
    (after (exec .emit (stArmed.setRegs { stArmed.regs with carrier := 0x20, on := 1, off := 0 }))).trace =
      [.emit 1 0 true 0x68] := by decide

/-- D-EM-3. -/
theorem test_disarm :
    readReg (after (exec .disarm stArmed)) .status = 0 ∧ (after (exec .disarm stArmed)).regs.carlat = 0x68 := by decide

/-- D-SQ-6: PAIRS before PLAY_LOAD is still 0. -/
theorem test_play :
    readReg (after (exec .play stA)) .status = 1 ∧ readReg (after (exec .play stA)) .pairs = 0 := by decide

/-- P2: PLAY_LOAD, and after it PLAY_ARM goes to PLAY_NEXT. -/
theorem test_play_microsteps :
    (microStep (stA.setSeq .playLoad)).regs.pairs = 2 ∧ (microStep (stLoaded.setSeq .playArm)).seq = .playNext ∧
      (microStep (stLoaded.setSeq .playArm)).trace = [.arm 0x68] := by decide

/-- D-EM-11 and D-EM-12: a write while busy, to a RW register and to a read-only one. -/
theorem test_busy_write :
    readReg (after (hostWrite .on 1 stEmitting)) .status = 0x82 ∧ (after (hostWrite .on 1 stEmitting)).regs.on = 100 ∧
      (after (hostWrite .ptr 0 stEmitting)).flt.finfo = 8 := by decide

/-- D-HI-1, D-HI-2 and D-HI-3: truncation, and a read-only register. -/
theorem test_truncation :
    readReg (after (hostWrite .carrier 0x1234 State.reset)) .carrier = 0x34 ∧
      readReg (after (hostWrite .width 0x0109 State.reset)) .width = 9 ∧
      after (hostWrite .data 0xFFFF State.reset) = State.reset := by decide

/-- D-EM-5: with ON = 0 and OFF = 0 the first cycle after acceptance finds the block idle. -/
theorem test_zero_phases : (clkCycle (after (execEmit State.reset))).seq = .idle := by decide

/-- P1: BUF reads 0x0766. -/
theorem test_buf : readReg ((withRom romBits 0xFFFF).setCursor ⟨0x102, 0x66, 7⟩) .buf = 0x0766 := by decide

/-- D-EM-15: the half-period of CARLAT 0x68 is 105. -/
theorem test_car_half : carHalf Config.Params.default 0x68 = 105 ∧ carrierPeriod Config.Params.default 0x68 = 210 := by
  decide

/-- L1-5: the pairs of the §8 code, read from the image. -/
theorem test_code_pairs : codePairs romA 0x10 = [(200, 25), (100, 50)] := by decide

/-- R10: the default parameters agree with each other. -/
theorem test_default_params : tickConsistent Config.Params.default = true ∧ romSize Config.Params.default = 65536 := by
  decide

/-- R250: a write of ARM in a reset has no effect, before or after it; the trace gains one Reset event. -/
theorem test_reset_precedence :
    let s := queued .rstHigh [cmdLine .arm] stEmitting
    let u := after (turn .rstLow (after (turn .host (after (step s)))))
    u.trace = stEmitting.trace ++ [.reset] ∧ u.emitter.armed = false ∧ u.env.prog = [] := by decide

/-- A command placed on the reset state runs in the next step. -/
theorem test_first_command : (after (step (State.reset.withFetchWord 16 0x9000))).seq = .playLoad := by decide

end Sys2Proof.Tests
end

