-- ==== Sys2Proof/Tests/Witnesses.lean ====
section
/-! SUPPORT. Witnesses: for every obligation with hypotheses, a concrete state and operands that meet all of them
together, and one for each of its clauses at the edge of its range. -/

namespace Sys2Proof.Tests

open Sys2Proof Sys2Proof.Machine

/-- The §8 code with PLAY_NEXT due: a state of a running PLAY. -/
def stPlayNext : State := microStep (stLoaded.setSeq .playArm)

/-- The same, its pair begun. -/
def stPlayOn : State := microStep stPlayNext

/-- A block whose EMIT a reset has cut, `rst` still high. -/
def stInReset : State := applyReset stEmitting

/-! ## Words, acceptance, registers -/

theorem witness_IllegalWordsFault :
    State.reset.ready = true ∧ (∃ e, decode 0xA000#16 = .error e) ∧
      ((0x2000#16).toNat / 16 = 0x200 ∧ (0x2000#16).toNat % 16 = 0) ∧
      ((0x2009#16).toNat / 16 = 0x200 ∧ 9 ≤ (0x2009#16).toNat % 16) :=
  ⟨by decide, ⟨.reservedOp, by decide⟩, by decide, by decide⟩

theorem witness_StepRunsDecodedCommand :
    ((queued .host [.wr .cmd 0x9000] stA).env.prog = .wr .cmd 0x9000 :: [] ∧ decode 0x9000 = .ok .play ∧
        (queued .host [.wr .cmd 0x9000] stA).env.schedule = .host :: []) ∧
      ((setProg [.wr .cmd 0x9000] stA).env.prog = .wr .cmd 0x9000 :: [] ∧
        (setProg [.wr .cmd 0x9000] stA).env.schedule = [] ∧ (setProg [.wr .cmd 0x9000] stA).env.rst = false ∧
        (setProg [.wr .cmd 0x9000] stA).busy = false) := by decide

theorem witness_PlacedCommandRuns : (Instr.readBits 15).wf = true ∧ Instr.play.wf = true := by decide

theorem witness_HostWriteAcceptance :
    stHalted.flt.fault = true ∧ stInReset.env.rst = true ∧
      (stEmitting.env.rst = false ∧ stEmitting.flt.fault = false ∧ stEmitting.busy = true) ∧
      (State.reset.ready = true ∧ decode 0x6000 = .ok .arm ∧ decode 0x0000 = .error .reservedOp) ∧
      (Reg.hostWritable .width = true ∧ Reg.hostWritable .ptr = false) := by decide

theorem witness_BusyWriteCutsTransmission :
    stEmitting.env.rst = false ∧ stEmitting.flt.fault = false ∧ stEmitting.busy = true := by decide

theorem witness_HostReadHasNoSideEffect :
    (queued .host [.rd .status] stEmitting).env.schedule = .host :: [] ∧
      (queued .host [.rd .status] stEmitting).env.prog = .rd .status :: [] := by decide

theorem witness_RomWordIsLittleEndian :
    ((withRom romBits 0x100).present 0xFF ∧ (withRom romBits 0x100).present (0xFF + 1#16)) ∧
      ((withRom romBits 0x100).present 0x100 ∧ ¬ (withRom romBits 0x100).present (0x100 + 1#16)) ∧
      ¬ (withRom romBits 0x100).present 0x101 := by decide

/-! ## Bit reader -/

theorem witness_SetptrResult : State.reset.ready = true := by decide

theorem witness_ReadBitsClosedForm :
    ((stBits 0x100).ready = true ∧ (stBits 0x100).cursorOk ∧ (stBits 0x100).canRead 8) ∧
      ((stBits3 0x100).ready = true ∧ (stBits3 0x100).cursorOk ∧ (stBits3 0x100).canRead 3 ∧
        ¬ (stBits3 0x100).canRead 4) := by
  refine ⟨⟨by decide, ⟨by decide, by decide⟩, by decide⟩, by decide, ⟨by decide, by decide⟩, by decide, by decide⟩

theorem witness_ReadBitsBadCount :
    State.reset.ready = true ∧ (0 < 16 ∧ ¬ (1 ≤ 0 ∧ 0 ≤ 8)) ∧ (9 < 16 ∧ ¬ (1 ≤ 9 ∧ 9 ≤ 8)) ∧
      (15 < 16 ∧ ¬ (1 ≤ 15 ∧ 15 ≤ 8)) := by decide

theorem witness_ReadsConcatenate :
    (stBits 0x101).ready = true ∧ (stBits 0x101).cursorOk ∧ (∀ n ∈ [3, 5], 1 ≤ n ∧ n ≤ 8) ∧
      [3, 5] ≠ [] ∧ [3, 5].sum ≤ 8 ∧
      ∃ t, readAll [3, 5] 0 (stBits 0x101) = some (0xB5, t) :=
  ⟨by decide, ⟨by decide, by decide⟩, by decide, by decide, by decide, _, rfl⟩

theorem witness_FreshReadDependsOnPointerOnly :
    let s₁ := stBits 0x101
    let s₂ := (stBits 0x101).setCursor ⟨0x100, 0xFF, 0⟩
    s₁.ready = true ∧ s₂.ready = true ∧ s₂.rom = s₁.rom ∧ s₂.params = s₁.params ∧ s₁.cursor.nbits = 0#4 ∧
      s₂.cursor.nbits = 0#4 ∧ s₂.cursor.ptr = s₁.cursor.ptr ∧ s₂ ≠ s₁ := by decide

theorem witness_ClrbufResult : (stBits3 0x101).ready = true := by decide

/-! ## Code decoder -/

theorem witness_LoadBehaviour :
    stA.ready = true ∧ (∀ k < 5, stA.present (stA.regs.addr + BitVec.ofNat 16 k)) ∧
      (1 ≤ (romByte stA.rom (stA.regs.addr + 2#16)).toNat ∧ (romByte stA.rom (stA.regs.addr + 2#16)).toNat ≤ 8) := by
  decide

/-- The first header byte absent, the last header byte absent, and a width of 0. -/
theorem witness_LoadBehaviour_faults :
    (∀ k ∈ [0, 4],
      (∀ j < k, State.present { stA with params := { stA.params with lastRomAddr := 0xF + BitVec.ofNat 16 k } }
          (stA.regs.addr + BitVec.ofNat 16 j)) ∧
        ¬ State.present { stA with params := { stA.params with lastRomAddr := 0xF + BitVec.ofNat 16 k } }
          (stA.regs.addr + BitVec.ofNat 16 k)) ∧
      State.reset.ready = true ∧ (∀ k < 5, State.reset.present (State.reset.regs.addr + BitVec.ofNat 16 k)) ∧
      ¬ (1 ≤ (romByte State.reset.rom (State.reset.regs.addr + 2#16)).toNat ∧
        (romByte State.reset.rom (State.reset.regs.addr + 2#16)).toNat ≤ 8) := by decide

/-- The state of each branch of NEXT's checks, and the index and table address each has. -/
def nextCase (width pairs : Byte) (ttlim : Word) (last : Word) : State :=
  { stLoaded with
    regs := { stLoaded.regs with width := width, pairs := pairs, ttlim := ttlim }
    params := { stLoaded.params with lastRomAddr := last } }

theorem nextCase_cursorOk (w p : Byte) (l a : Word) : (nextCase w p l a).cursorOk :=
  ⟨(by decide : stLoaded.cursor.nbits.toNat ≤ 7), fun h => absurd (by decide : stLoaded.cursor.nbits = 0#4) h⟩

theorem witness_NextBehaviour :
    (∀ w : Byte, w = 0#8 ∨ w = 9#8 → (nextCase w 1 0 0xFFFF).ready = true ∧
        ¬ (1 ≤ (nextCase w 1 0 0xFFFF).regs.width.toNat ∧ (nextCase w 1 0 0xFFFF).regs.width.toNat ≤ 8)) ∧
      (nextCase 1 0 0 0xFFFF).regs.pairs = 0#8 ∧ ¬ (nextCase 1 1 0 0x14).canRead 1 ∧
      ((nextCase 1 1 1 0xFFFF).canRead 1 ∧ (nextCase 1 1 1 0xFFFF).regs.ttlim ≠ 0#16 ∧
        (nextCase 1 1 1 0xFFFF).regs.ttlim.toNat ≤ (bitsAtCursor (nextCase 1 1 1 0xFFFF) 1).toNat) ∧
      ((nextCase 1 1 2 0x27).canRead 1 ∧ (bitsAtCursor (nextCase 1 1 2 0x27) 1).toNat < 2 ∧
        ∀ k < 4, (nextCase 1 1 2 0x27).present (0x24 + BitVec.ofNat 16 k)) ∧
      ((nextCase 1 1 2 0x26).canRead 1 ∧ (∀ j < 3, (nextCase 1 1 2 0x26).present (0x24 + BitVec.ofNat 16 j)) ∧
        ¬ (nextCase 1 1 2 0x26).present (0x24 + BitVec.ofNat 16 3)) ∧
      0x24#16 = BitVec.ofNat 16 ((nextCase 1 1 2 0x27).regs.ttbase.toNat +
        4 * (bitsAtCursor (nextCase 1 1 2 0x27) 1).toNat) := by decide

theorem witness_CodeDecodesToItsPairs : stA.ready = true ∧ stA.codeOk stA.regs.addr := by decide

/-! ## Emitter -/

theorem witness_ArmResult : stA.ready = true ∧ stArmed.ready = true := by decide

theorem witness_DisarmResult : stArmed.ready = true ∧ State.reset.ready = true := by decide

theorem witness_EmitBeginsPair :
    (stArmed.ready = true ∧ stArmed.regs.carrier ≠ 0#8 ∧ stArmed.emitter.armed = true ∧ stArmed.regs.carlat ≠ 0#8) ∧
      (State.reset.ready = true ∧ ¬ State.reset.regs.carrier ≠ 0#8) := by decide

theorem witness_EmitNotArmedFaults :
    let s₁ := State.reset.setRegs { Regs.reset with carrier := 0x68 }
    let s₂ := s₁.setEmitter { Emitter.reset with armed := true }
    (s₁.ready = true ∧ s₁.regs.carrier ≠ 0#8 ∧ s₁.emitter.armed = false) ∧
      (s₂.ready = true ∧ s₂.regs.carrier ≠ 0#8 ∧ s₂.emitter.armed = true ∧ s₂.regs.carlat = 0#8) := by decide

theorem witness_EmitPhasesLastExactly :
    stArmed.ready = true ∧ stArmed.regs.carrier ≠ 0#8 ∧ stArmed.emitter.armed = true ∧ stArmed.regs.carlat ≠ 0#8 := by
  decide

theorem witness_PlayPhasesLastExactly :
    stPlayNext.seq = .playNext ∧ microStep stPlayNext = stPlayOn ∧ stPlayOn.seq = .playOn := by decide

theorem witness_WholePhaseIsItsCycles : stPlayOn.seq.isPhase = true ∧ stPlayOn.timerOk :=
  ⟨by decide, by decide, by decide⟩

theorem witness_CarrierIsSquareWave :
    (stArmed.carrierOk ∧ stArmed.carrierRuns = true) ∧ (State.reset.carrierOk ∧ State.reset.carrierRuns = false) ∧
      (State.reset.params.carHalfTable.lookup 0x68 = none ∧
        [(0x68#8, 7)].lookup 0x68#8 = some 7) := by
  simp only [State.carrierOk]
  decide

/-! ## Sequencer -/

theorem witness_PlayAccepted : stA.ready = true := by decide

theorem witness_StepRunsTheBlocksTurns :
    (queued .clk [] stEmitting).env.schedule = .clk :: [] ∧ (queued .carClk [] stArmed).env.schedule = .carClk :: [] ∧
      (queued .micro [] stPlayNext).env.schedule = .micro :: [] ∧
      (stPlayNext.env.schedule = [] ∧ stPlayNext.env.rst = false ∧ stPlayNext.busy = true) := by decide

theorem witness_PlayPerformsTheCommands :
    stPlayNext.env.rst = false ∧ stPlayNext.flt.fault = false ∧ stPlayNext.seq = .playNext ∧
      ∀ q ∈ [Seq.playLoad, .playArm, .playClr, .playDisarm],
        (stPlayNext.setSeq q).env.rst = false ∧ (stPlayNext.setSeq q).flt.fault = false ∧
          (stPlayNext.setSeq q).seq = q := by decide

theorem witness_PlayPlaysWholeCode :
    let s := (stA.setEnv { stA.env with schedule := .host :: List.replicate 10 .micro, prog := [cmdLine .play] })
    s.ready = true ∧ s.codeOk s.regs.addr ∧ 4 + 3 * (recordAt s.rom s.regs.addr).pairCount.toNat = 10 ∧
      s.env.prog = cmdLine .play :: [] ∧ s.env.schedule = .host :: (List.replicate 10 .micro ++ []) := by decide

theorem witness_ManualSequenceEqualsPlay :
    stA.ready = true ∧ stA.seq = .idle ∧ stA.env.schedule = [] ∧ stA.codeOk 0x10 ∧
      2 = (recordAt stA.rom 0x10).pairCount.toNat := by decide

/-! ## Invariants -/

/-- The invariant of a running PLAY, at PLAY_NEXT. -/
theorem witness_StepKeepsInvariant : stPlayNext.inv :=
  ⟨⟨by decide +kernel, by decide +kernel⟩, ⟨by decide +kernel, by decide +kernel⟩,
    ⟨by decide +kernel, by decide +kernel, by decide +kernel⟩, by simp only [State.carrierOk]; decide +kernel,
    ⟨by decide +kernel, by decide +kernel⟩, ⟨by decide +kernel, by decide +kernel, by decide +kernel⟩,
    ⟨by decide +kernel, by decide +kernel, by decide +kernel⟩, fun h => absurd h (by decide +kernel)⟩

/-- PLAY_NEXT with the range check on and an index outside it. -/
def stIndexOutside : State := stPlayNext.setRegs { stPlayNext.regs with ttlim := 1 }

theorem stIndexOutside_inv : stIndexOutside.inv :=
  ⟨⟨by decide +kernel, by decide +kernel⟩, ⟨by decide +kernel, by decide +kernel⟩,
    ⟨by decide +kernel, by decide +kernel, by decide +kernel⟩, by simp only [State.carrierOk]; decide +kernel,
    ⟨by decide +kernel, by decide +kernel⟩, ⟨by decide +kernel, by decide +kernel, by decide +kernel⟩,
    ⟨by decide +kernel, by decide +kernel, by decide +kernel⟩, fun h => absurd h (by decide +kernel)⟩

theorem witness_PlayFaultsOnlyAsListed :
    stIndexOutside.inv ∧ stIndexOutside.flt.fault = false ∧ (microStep stIndexOutside).flt.fault = true :=
  ⟨stIndexOutside_inv, by decide +kernel, by decide +kernel⟩

/-- PLAY_LOAD due, of a record of width 0. -/
def stLoadDue : State := State.reset.setSeq .playLoad

theorem stLoadDue_carrierOk : stLoadDue.carrierOk := by
  simp only [State.carrierOk]
  decide

theorem stLoadDue_phaseOk : stLoadDue.phaseOk := ⟨by decide, by decide, by decide⟩

theorem stLoadDue_playOk : stLoadDue.playOk := ⟨by decide, by decide, by decide⟩

theorem stLoadDue_haltOk : stLoadDue.haltOk := ⟨by decide, by decide, by decide⟩

theorem stLoadDue_inv : stLoadDue.inv :=
  ⟨⟨by decide, by decide⟩, ⟨by decide, by decide⟩, stLoadDue_haltOk, stLoadDue_carrierOk, ⟨by decide, by decide⟩,
    stLoadDue_phaseOk, stLoadDue_playOk, fun h => absurd h (by decide)⟩

theorem witness_PlayFaultsOnlyAsListed_load :
    stLoadDue.inv ∧ stLoadDue.flt.fault = false ∧ (microStep stLoadDue).flt.fault = true :=
  ⟨stLoadDue_inv, by decide, by decide⟩

theorem witness_FaultsArePrecise :
    State.reset.flt.fault = false ∧ (after (exec (.readBits 0) State.reset)).flt.fault = true ∧
      (microStep stLoadDue).flt.fault = true := by decide

theorem witness_OnlyResetLeavesHalted :
    let s := queued .micro [] stHalted
    s.env.rst = false ∧ s.flt.fault = true ∧ s.seq = .halted ∧ s.env.schedule.head? ≠ some .rstHigh := by decide

theorem witness_ResetRestoresBlock :
    (queued .rstHigh [] stEmitting).env.schedule = .rstHigh :: [] ∧
      ((queued .rstLow [] stInReset).env.schedule = .rstLow :: [] ∧ (queued .rstLow [] stInReset).env.rst = true) := by
  decide

/-- A write queued while `rst` is high, and nothing scheduled while it is high. -/
theorem witness_ResetHoldsTheBlock :
    ((queued .host [cmdLine .arm] stInReset).env.rst = true ∧ (queued .host [cmdLine .arm] stInReset).resetOk ∧
        (queued .host [cmdLine .arm] stInReset).env.schedule = .host :: [] ∧ Turn.host ≠ .rstLow) ∧
      (stInReset.env.rst = true ∧ stInReset.resetOk ∧ stInReset.env.schedule = []) :=
  ⟨⟨by decide, fun _ => by decide, by decide, by decide⟩, by decide, fun _ => by decide, by decide⟩

theorem witness_StepKeepsCursorInvariant : (stBits3 0x101).cursorOk := ⟨by decide, by decide⟩

theorem witness_BusyAndFaultNeverTogether : stHalted.haltOk ∧ stEmitting.haltOk :=
  ⟨⟨by decide, by decide, by decide⟩, ⟨by decide, by decide, by decide⟩⟩

/-! ## The host -/

theorem witness_WaitPollsBusy :
    let s := queued .host [.wait, .feedback] stEmitting
    let t := queued .host [.wait, .feedback] stA
    (s.env.schedule = .host :: [] ∧ s.env.prog = .wait :: [.feedback] ∧ (readReg s .status).toNat % 2 = 1) ∧
      (t.env.schedule = .host :: [] ∧ t.env.prog = .wait :: [.feedback] ∧ (readReg t .status).toNat % 2 = 0) := by
  decide

theorem witness_HostStopsOnFault :
    let s := queued .host [.stopIfFault, .feedback] stHalted
    let t := queued .host [.stopIfFault, .feedback] stA
    (s.env.schedule = .host :: [] ∧ s.env.prog = .stopIfFault :: [.feedback] ∧
        (readReg s .status).toNat / 2 % 2 = 1) ∧
      (t.env.schedule = .host :: [] ∧ t.env.prog = .stopIfFault :: [.feedback] ∧
        (readReg t .status).toNat / 2 % 2 = 0) := by decide

theorem witness_WakeIsDeferred :
    (queued .wake [.wait] stEmitting).env.schedule = .wake :: [] ∧
      ((queued .host [.wait] stEmitting).env.schedule = .host :: [] ∧
        (queued .host [.wait] stEmitting).env.prog = .wait :: []) ∧
      (let s := (queued .host [] stA).setEnv { (queued .host [] stA).env with wakes := 1 };
        s.env.schedule = .host :: [] ∧ s.env.prog = [] ∧ s.env.wakes = 0 + 1) := by decide

/-- A wake, and the §8 code in both lists. -/
def stWake : State :=
  { stA with params := { stA.params with db0 := [0x10], db1 := [0x10] }, env := { stA.env with wakes := 1 } }

theorem stWake_lists : stWake.params.db0 ++ stWake.params.db1 = [0x10#16, 0x10#16] := by decide

theorem stWake_codeOk : stWake.codeOk 0x10#16 := by decide

theorem witness_BlastCycleTrace :
    stWake.ready = true ∧ stWake.seq = .idle ∧ stWake.env.schedule = [] ∧ stWake.env.prog = [] ∧
      stWake.env.wakes = 1 ∧ ∀ a ∈ stWake.params.db0 ++ stWake.params.db1, stWake.codeOk a := by
  refine ⟨by decide, by decide, by decide, by decide, by decide, fun a ha => ?_⟩
  have h : a = 0x10#16 := by simpa [stWake_lists] using ha
  exact h ▸ stWake_codeOk

end Sys2Proof.Tests
end

section
/-!
The ROM's 16-bit values (O11).
-/

namespace Sys2Proof.Machine

/-- R64: the number of a little-endian value, from the numbers of its two bytes. -/
theorem romWord_toNat (m : List Host.Cell) (a : Word) :
    (romWord m a).toNat = (romByte m a).toNat + 256 * (romByte m (a + 1#16)).toNat := by
  have hlo : (romByte m a).toNat < 2 ^ 8 := (romByte m a).isLt
  unfold romWord
  rw [BitVec.toNat_append, ← Nat.shiftLeft_add_eq_or_of_lt hlo, Nat.shiftLeft_eq]
  omega

/-- Settles O11: the three clauses are the outcomes of `memRead2`, and a value that is read is `romWord`. -/
theorem romWordIsLittleEndian : Obligations.RomWordIsLittleEndian := by
  unfold Obligations.RomWordIsLittleEndian
  intro s a
  refine ⟨fun hlo hhi => ?present, fun hlo => ?lowAbsent, fun hlo hhi => ?highAbsent⟩
  case present => exact ⟨romWord s.rom a, memRead2_eq_ok.mpr ⟨hlo, hhi, rfl⟩, romWord_toNat s.rom a⟩
  case lowAbsent => exact memRead2_eq_error.mpr (.inl ⟨hlo, rfl⟩)
  case highAbsent => exact memRead2_eq_error.mpr (.inr ⟨hlo, hhi, rfl⟩)

end Sys2Proof.Machine
end

section
/-!
What one step keeps (O46, O47, O48): the induction over one step, packaged once as `Kept`, and the parts of the
machine's invariant, each shown to be kept.
-/

namespace Sys2Proof.Machine

/-! ## PLAY's micro-steps as commands -/

/-- The command that a micro-step of PLAY performs (R181 to R183, R185, R186). -/
def playCommand : Seq → Option Instr
  | .playLoad => some .load
  | .playArm => some .arm
  | .playNext => some .next
  | .playClr => some .clrbuf
  | .playDisarm => some .disarm
  | .idle | .emitOn | .emitOff | .playOn | .playOff | .halted => none

/-- What a micro-step of PLAY does after its command: the sequencer moves on, and NEXT's pair begins (R44, R183). -/
def playThen (i : Instr) (u : State) : State :=
  match i with
  | .load => u.setSeq .playArm
  | .arm => u.setSeq (afterPair u)
  | .next => beginPair .playOn u
  | .clrbuf => u.setSeq .playDisarm
  | .disarm => u.setSeq .idle
  | .setptr | .readBits _ | .emit | .play => u

/-- The micro-steps that are operations are PLAY's: the command, then what follows it. -/
theorem microOp_eq (s : State) :
    microOp s = (playCommand s.seq).map fun i => (opOf i s).bind fun u => .ok (playThen i u) := by
  unfold microOp
  cases s.seq <;> rfl

/-- A micro-step of PLAY takes its command's fault, or does its writes and moves on. -/
theorem microStep_of_playCommand {s : State} {i : Instr} (h : playCommand s.seq = some i) :
    (∃ x, opOf i s = .error x ∧ microStep s = raise x s) ∨ ∃ u, opOf i s = .ok u ∧ microStep s = playThen i u := by
  rcases microStep_cases s with ⟨hq | hq, -⟩ | ⟨hq, -⟩ | ⟨r, hr, hm⟩
  · simp [hq, playCommand] at h
  · simp [hq, playCommand] at h
  · cases hs : s.seq <;> simp [hs, playCommand, Seq.isPhase] at h hq
  · rw [microOp_eq, h] at hr
    have hc : microStep s = commit s ((opOf i s).bind fun u => .ok (playThen i u)) := by
      rw [hm, ← Option.some.inj hr]
    cases ho : opOf i s with
    | error x => exact .inl ⟨x, rfl, by rw [hc, ho]; rfl⟩
    | ok u => exact .inr ⟨u, rfl, by rw [hc, ho]; rfl⟩

/-- Every micro-step: nothing, a phase run to its end, or one of PLAY's commands. -/
theorem microStep_kinds (s : State) :
    ((s.seq = .idle ∨ s.seq = .halted) ∧ microStep s = s) ∨ (s.seq.isPhase = true ∧ microStep s = finishPhase s) ∨
      ∃ i, playCommand s.seq = some i := by
  refine (microStep_cases s).imp_right (Or.imp_right ?_)
  rintro ⟨r, hr, -⟩
  rw [microOp_eq] at hr
  obtain ⟨i, hi, -⟩ := Option.map_eq_some_iff.mp hr
  exact ⟨i, hi⟩

/-- PLAY's micro-steps, state by state. -/
theorem playCommand_cases {q : Seq} {i : Instr} (h : playCommand q = some i) :
    (q = .playLoad ∧ i = .load) ∨ (q = .playArm ∧ i = .arm) ∨ (q = .playNext ∧ i = .next) ∨
      (q = .playClr ∧ i = .clrbuf) ∨ (q = .playDisarm ∧ i = .disarm) := by
  cases q <;> simp_all [playCommand]

/-- The block is busy while it performs one of PLAY's commands. -/
theorem busy_of_playCommand {q : Seq} {i : Instr} (h : playCommand q = some i) : q.busy = true := by
  cases q <;> simp_all [playCommand, Seq.busy]

theorem busy_of_isPhase {q : Seq} (h : q.isPhase = true) : q.busy = true := by
  cases q <;> simp_all [Seq.isPhase, Seq.busy]

@[simp] theorem playThen_regs (i : Instr) (u : State) : (playThen i u).regs = u.regs := by cases i <;> rfl
@[simp] theorem playThen_cursor (i : Instr) (u : State) : (playThen i u).cursor = u.cursor := by cases i <;> rfl
@[simp] theorem playThen_flt (i : Instr) (u : State) : (playThen i u).flt = u.flt := by cases i <;> rfl
@[simp] theorem playThen_rom (i : Instr) (u : State) : (playThen i u).rom = u.rom := by cases i <;> rfl
@[simp] theorem playThen_params (i : Instr) (u : State) : (playThen i u).params = u.params := by cases i <;> rfl
@[simp] theorem playThen_env (i : Instr) (u : State) : (playThen i u).env = u.env := by cases i <;> rfl
@[simp] theorem playThen_armed (i : Instr) (u : State) : (playThen i u).emitter.armed = u.emitter.armed := by
  cases i <;> rfl
@[simp] theorem playThen_ccnt (i : Instr) (u : State) : (playThen i u).emitter.ccnt = u.emitter.ccnt := by
  cases i <;> rfl
@[simp] theorem playThen_clevel (i : Instr) (u : State) : (playThen i u).emitter.clevel = u.emitter.clevel := by
  cases i <;> rfl

/-! ## One step, packaged -/

/-- The unit timer moves within a phase: to `d` units and prescaler `p`. -/
def State.setTimer (s : State) (d : Word) (p : Nat) : State := s.setEmitter { s.emitter with dcnt := d, pre := p }

/-- `P` is kept by each of the moves that steps are made of. -/
structure Kept (P : State → Prop) : Prop where
  /-- The other agents move, and `rst` does not rise. -/
  setEnv : ∀ {s : State} {v : Env}, P s → (v.rst = true → s.env.rst = true) → P (s.setEnv v)
  log : ∀ {s : State} {o : Obs}, P s → P (s.log o)
  carCycles : ∀ {s : State} {k : Nat}, P s → P (carCycles k s)
  store : ∀ {s : State} {r : Reg} {v : Word}, P s → s.ready = true → P (storeReg s r v)
  fault : ∀ {s : State} {x : Trap}, P s → (s.ready = true ∨ s.busy = true) → P (raise x s)
  command : ∀ {s t : State} {i : Instr}, P s → s.ready = true → opOf i s = .ok t → P t
  play : ∀ {s u : State} {i : Instr}, P s → playCommand s.seq = some i → opOf i s = .ok u → P (playThen i u)
  /-- A phase counts down: never up, and with the prescaler as R40 has it. -/
  timer : ∀ {s : State} {d : Word} {p : Nat}, P s → s.seq.isPhase = true → d.toNat ≤ s.emitter.dcnt.toNat →
    p < tickCycles s.params → (d = 0#16 → p = 0) → P (s.setTimer d p)
  endPhase : ∀ {s : State}, P s → s.seq.isPhase = true → P (endPhase s)
  reset : ∀ {s : State}, P s → P (applyReset s)

section
variable {P : State → Prop} {s : State}

theorem Kept.freeCarrier (k : Kept P) (h : P s) : P (freeCarrier s) := k.setEnv (k.carCycles h) id

theorem Kept.microStep (k : Kept P) (h : P s) : P (microStep s) := by
  rcases microStep_kinds s with ⟨-, e⟩ | ⟨hq, e⟩ | ⟨i, hi⟩
  · rwa [e]
  · have ht : P (s.setTimer 0#16 0) := k.timer h hq (Nat.zero_le _) (tickCycles_pos _) fun _ => rfl
    exact e ▸ k.endPhase ht hq
  · rcases microStep_of_playCommand hi with ⟨x, -, e⟩ | ⟨u, hu, e⟩
    · exact e ▸ k.fault h (.inr (busy_of_playCommand hi))
    · exact e ▸ k.play h hi hu

theorem Kept.passPhase (k : Kept P) (h : P s) : P (passPhase s) := by
  by_cases ho : s.phaseOver = true
  · rw [passPhase_of_over ho]
    exact k.endPhase h (phaseOver_iff.mp ho).1
  · rwa [passPhase_of_running (by simpa using ho)]

theorem Kept.settle (k : Kept P) (h : P s) : P (settle s) := k.passPhase (k.passPhase h)

/-- A cycle is counted in a phase that is not over. -/
theorem Kept.countCycle (k : Kept P) (h : P s) (hq : s.seq.isPhase = true) (ho : s.phaseOver = false) :
    P (countCycle s) := by
  have hd : s.emitter.dcnt ≠ 0#16 := fun e => by simp [phaseOver_iff.mpr ⟨hq, e⟩] at ho
  rcases countCycle_cases s with ⟨hp, e⟩ | ⟨-, e⟩
  · exact e ▸ k.timer h hq le_rfl hp fun e => absurd e hd
  · have hle : (s.emitter.dcnt - 1#16).toNat ≤ s.emitter.dcnt.toNat := by bv_omega
    exact e ▸ k.timer h hq hle (tickCycles_pos _) fun _ => rfl

theorem Kept.clkCycle (k : Kept P) (h : P s) : P (clkCycle s) := by
  unfold Machine.clkCycle
  split
  case isTrue hq => exact k.countCycle (k.settle h) hq (settle_not_over s)
  case isFalse => exact k.settle h

theorem Kept.releaseReset (k : Kept P) (h : P s) : P (releaseReset s) := by
  rcases releaseReset_cases s with ⟨-, e⟩ | ⟨-, e⟩
  · exact e ▸ k.log (k.setEnv h nofun)
  · rwa [e]

/-- An issued operation that keeps `P` where the block is ready keeps it everywhere. -/
theorem Kept.issue (k : Kept P) {op : State → Except Trap State} (h : P s)
    (hop : ∀ {t}, s.ready = true → op s = .ok t → P t) : ∃ t, issue op s = .next t ∧ P t := by
  obtain ⟨t, ht, ⟨-, rfl⟩ | ⟨-, -, hb, rfl⟩ | ⟨hr, ⟨x, -, rfl⟩ | ho⟩⟩ := issue_cases op s
  · exact ⟨_, ht, h⟩
  · exact ⟨_, ht, k.fault h (.inr hb)⟩
  · exact ⟨_, ht, k.fault h (.inl hr)⟩
  · exact ⟨_, ht, hop hr ho⟩

theorem Kept.hostWrite (k : Kept P) (h : P s) (r : Reg) (v : Word) : ∃ t, hostWrite r v s = .next t ∧ P t := by
  rcases hostWrite_cases r v s with ⟨i, -, -, e⟩ | ⟨-, -, -, e⟩ | ⟨-, e⟩
  · rw [e, exec_eq_issue]
    exact k.issue h (k.command h)
  · rw [e]
    exact k.issue h nofun
  · refine ⟨_, e, ?_⟩
    rcases accept_cases r s (fun s => storeReg s r v) with ⟨-, e⟩ | ⟨-, -, hb, e⟩ | ⟨hr, e⟩
    · rwa [e]
    · exact e ▸ k.fault h (.inr hb)
    · exact e ▸ k.store h hr

theorem Kept.hostRead (k : Kept P) (h : P s) (r : Reg) : P (hostRead r s) := k.setEnv h id

theorem Kept.setProg (k : Kept P) (h : P s) (l : List HostLine) : P (setProg l s) := k.setEnv h id

theorem Kept.runLine (k : Kept P) (h : P s) (line : HostLine) (rest : List HostLine) :
    ∃ t, runLine line rest s = .next t ∧ P t := by
  cases line with
  | wr r v => exact k.hostWrite (k.setProg h rest) r v
  | rd r => exact ⟨_, rfl, k.hostRead (k.setProg h rest) r⟩
  | wait =>
    refine ⟨_, rfl, k.hostRead ?_ .status⟩
    split
    · exact h
    · exact k.setProg h rest
  | stopIfFault => exact ⟨_, rfl, k.hostRead (k.setProg h _) .status⟩
  | pairLoop => exact ⟨_, rfl, k.hostRead (k.setProg h _) .pairs⟩
  | feedback => exact ⟨_, rfl, k.log (k.setProg h rest)⟩
  | pause ms => exact ⟨_, rfl, k.log (k.setProg h rest)⟩

theorem Kept.hostTurn (k : Kept P) (h : P s) : ∃ t, hostTurn s = .next t ∧ P t := by
  unfold Machine.hostTurn
  split
  next line rest _ => exact k.runLine h line rest
  next =>
    split
    next => exact ⟨_, rfl, h⟩
    next => exact ⟨_, rfl, k.setEnv h id⟩

theorem Kept.turn (k : Kept P) (h : P s) (t : Turn) : ∃ u, turn t s = .next u ∧ P u := by
  cases t with
  | host => exact k.hostTurn h
  | micro => exact ⟨_, rfl, k.microStep (k.freeCarrier h)⟩
  | clk => exact ⟨_, rfl, k.clkCycle h⟩
  | carClk => exact ⟨_, rfl, k.carCycles h⟩
  | wake => exact ⟨_, rfl, k.setEnv h id⟩
  | rstHigh => exact ⟨_, rfl, k.reset h⟩
  | rstLow => exact ⟨_, rfl, k.releaseReset h⟩

/-- What the moves keep, every step keeps, whatever the turn. -/
theorem Kept.step (k : Kept P) (h : P s) : ∃ t, step s = .next t ∧ P t := by
  rcases step_cases s with ⟨t, ts, -, e⟩ | ⟨-, -, e⟩ | ⟨-, -, -, e⟩ | ⟨-, -, -, e⟩ <;> rw [e]
  · exact k.turn (s := s.setEnv { s.env with schedule := ts }) (k.setEnv h id) t
  · exact k.turn h .rstLow
  · exact k.turn h .micro
  · exact k.turn (k.freeCarrier h) .host

theorem Kept.and {Q : State → Prop} (kP : Kept P) (kQ : Kept Q) : Kept fun s => P s ∧ Q s where
  setEnv h hr := ⟨kP.setEnv h.1 hr, kQ.setEnv h.2 hr⟩
  log h := ⟨kP.log h.1, kQ.log h.2⟩
  carCycles h := ⟨kP.carCycles h.1, kQ.carCycles h.2⟩
  store h hr := ⟨kP.store h.1 hr, kQ.store h.2 hr⟩
  fault h hr := ⟨kP.fault h.1 hr, kQ.fault h.2 hr⟩
  command h hr ho := ⟨kP.command h.1 hr ho, kQ.command h.2 hr ho⟩
  play h hi ho := ⟨kP.play h.1 hi ho, kQ.play h.2 hi ho⟩
  timer h hq hd hp hz := ⟨kP.timer h.1 hq hd hp hz, kQ.timer h.2 hq hd hp hz⟩
  endPhase h hq := ⟨kP.endPhase h.1 hq, kQ.endPhase h.2 hq⟩
  reset h := ⟨kP.reset h.1, kQ.reset h.2⟩

end

end Sys2Proof.Machine
end

section
/-!
The frame of a command's micro-step: the registers, the cursor and the emitter (O43, O44, O48).
-/

namespace Sys2Proof.Machine

/-- What the command `i`, from `s` to `t`, leaves alone of the registers (R24 to R27, R36 to R39), of the cursor (R31)
and of the emitter (R40, R41). -/
structure CommandFrame (i : Instr) (s t : State) : Prop where
  addr : t.regs.addr = s.regs.addr
  ttlim : t.regs.ttlim = s.regs.ttlim
  data : (∀ n, i ≠ .readBits n) → t.regs.data = s.regs.data
  loaded : i ≠ .load → t.regs.carrier = s.regs.carrier ∧ t.regs.width = s.regs.width ∧ t.regs.ttbase = s.regs.ttbase
  pairs : i ≠ .load → i ≠ .next → t.regs.pairs = s.regs.pairs
  decoded : i ≠ .next → t.regs.on = s.regs.on ∧ t.regs.off = s.regs.off ∧ t.regs.index = s.regs.index
  carlat : i ≠ .arm → t.regs.carlat = s.regs.carlat
  generator : i ≠ .arm → i ≠ .disarm → t.emitter.armed = s.emitter.armed ∧ t.emitter.ccnt = s.emitter.ccnt ∧
    t.emitter.clevel = s.emitter.clevel
  timer : i ≠ .emit → t.emitter.flag = s.emitter.flag ∧ t.emitter.dcnt = s.emitter.dcnt ∧ t.emitter.pre = s.emitter.pre
  ptr : i ≠ .setptr → i ≠ .load → i ≠ .next → (∀ n, i ≠ .readBits n) → t.cursor.ptr = s.cursor.ptr
  bbyte : i ≠ .next → (∀ n, i ≠ .readBits n) → t.cursor.bbyte = s.cursor.bbyte
  nbits : i = .arm ∨ i = .emit ∨ i = .disarm ∨ i = .play → t.cursor.nbits = s.cursor.nbits

/-- A command that writes none of the three keeps its frame. -/
theorem CommandFrame.of_eq {i : Instr} {s t : State} (hr : t.regs = s.regs) (hc : t.cursor = s.cursor)
    (he : t.emitter = s.emitter) : CommandFrame i s t := by
  constructor <;> simp [hr, hc, he]

/-- Every command's micro-step that answers keeps the frame. -/
theorem opOf_frame {i : Instr} {s t : State} (h : opOf i s = .ok t) : CommandFrame i s t := by
  cases i with
  | setptr => obtain rfl := Except.ok.inj h; constructor <;> simp
  | readBits n => obtain ⟨-, v, c, -, rfl⟩ := readBitsOp_eq_ok.mp h; constructor <;> simp
  | clrbuf => obtain rfl := Except.ok.inj h; constructor <;> simp
  | load => obtain ⟨g, -, -, rfl⟩ := loadOp_eq_ok.mp h; constructor <;> simp
  | next => obtain ⟨-, -, v, c, on, off, -, -, -, -, rfl⟩ := nextOp_eq_ok.mp h; constructor <;> simp
  | arm => obtain rfl := Except.ok.inj h; constructor <;> simp
  | emit => obtain ⟨-, rfl⟩ := emitOp_eq_ok.mp h; constructor <;> simp
  | disarm => obtain rfl := Except.ok.inj h; constructor <;> simp
  | play => obtain rfl := Except.ok.inj h; constructor <;> simp

end Sys2Proof.Machine
end

section
/-!
The parts of the machine's invariant (R23, R33, R40, R160, R180, R250), each kept by every move.
-/

namespace Sys2Proof.Machine

/-! ## What a move leaves alone -/

@[simp] theorem endPhase_regs (s : State) : (endPhase s).regs = s.regs := by unfold endPhase; split <;> rfl
@[simp] theorem endPhase_cursor (s : State) : (endPhase s).cursor = s.cursor := by unfold endPhase; split <;> rfl
@[simp] theorem endPhase_flt (s : State) : (endPhase s).flt = s.flt := by unfold endPhase; split <;> rfl
@[simp] theorem endPhase_rom (s : State) : (endPhase s).rom = s.rom := by unfold endPhase; split <;> rfl
@[simp] theorem endPhase_params (s : State) : (endPhase s).params = s.params := by unfold endPhase; split <;> rfl
@[simp] theorem endPhase_trace (s : State) : (endPhase s).trace = s.trace := by unfold endPhase; split <;> rfl
@[simp] theorem endPhase_env (s : State) : (endPhase s).env = s.env := by unfold endPhase; split <;> rfl
@[simp] theorem endPhase_flag (s : State) : (endPhase s).emitter.flag = s.emitter.flag := by
  unfold endPhase; split <;> rfl
@[simp] theorem endPhase_armed (s : State) : (endPhase s).emitter.armed = s.emitter.armed := by
  unfold endPhase; split <;> rfl
@[simp] theorem endPhase_ccnt (s : State) : (endPhase s).emitter.ccnt = s.emitter.ccnt := by
  unfold endPhase; split <;> rfl
@[simp] theorem endPhase_clevel (s : State) : (endPhase s).emitter.clevel = s.emitter.clevel := by
  unfold endPhase; split <;> rfl

@[simp] theorem storeReg_cursor (s : State) (r : Reg) (v : Word) : (storeReg s r v).cursor = s.cursor := by
  cases r <;> rfl
@[simp] theorem storeReg_emitter (s : State) (r : Reg) (v : Word) : (storeReg s r v).emitter = s.emitter := by
  cases r <;> rfl
@[simp] theorem storeReg_seq (s : State) (r : Reg) (v : Word) : (storeReg s r v).seq = s.seq := by cases r <;> rfl
@[simp] theorem storeReg_flt (s : State) (r : Reg) (v : Word) : (storeReg s r v).flt = s.flt := by cases r <;> rfl
@[simp] theorem storeReg_rom (s : State) (r : Reg) (v : Word) : (storeReg s r v).rom = s.rom := by cases r <;> rfl
@[simp] theorem storeReg_params (s : State) (r : Reg) (v : Word) : (storeReg s r v).params = s.params := by
  cases r <;> rfl
@[simp] theorem storeReg_env (s : State) (r : Reg) (v : Word) : (storeReg s r v).env = s.env := by cases r <;> rfl

/-- A block that is not busy is IDLE or HALTED (R23). -/
theorem seq_of_not_busy {q : Seq} (h : q.busy = false) : q = .idle ∨ q = .halted := by
  cases q <;> simp_all [Seq.busy]

theorem not_busy_of_ready {s : State} (h : s.ready = true) : s.seq.busy = false := by
  obtain ⟨-, -, hb⟩ := ready_iff.mp h
  exact hb

theorem rst_low_of_ready {s : State} (h : s.ready = true) : s.env.rst = false := by
  obtain ⟨hr, -⟩ := ready_iff.mp h
  exact hr

/-! ## The ROM -/

theorem romOk_of_eq {s t : State} (hr : t.rom = s.rom) (hp : t.params = s.params) (h : s.romOk) : t.romOk := by
  unfold State.romOk
  rwa [hr, hp]

theorem romOk_kept : Kept State.romOk where
  setEnv h _ := h
  log h := h
  carCycles h := h
  store h _ := romOk_of_eq (by simp) (by simp) h
  fault h _ := h
  command h _ ho := by
    obtain ⟨-, hr, hp, -⟩ := opOf_shape ho
    exact romOk_of_eq hr hp h
  play h _ ho := by
    obtain ⟨-, hr, hp, -⟩ := opOf_shape ho
    exact romOk_of_eq (by simpa using hr) (by simpa using hp) h
  timer h _ _ _ _ := h
  endPhase h _ := romOk_of_eq (by simp) (by simp) h
  reset h := h

/-! ## The cursor -/

/-- An empty buffer meets the cursor invariant. -/
theorem cursorOk_of_empty {s : State} (h : s.cursor.nbits = 0#4) : s.cursorOk := by simp [State.cursorOk, h]

theorem cursorOk_of_eq {s t : State} (hc : t.cursor = s.cursor) (hr : t.rom = s.rom) (h : s.cursorOk) :
    t.cursorOk := by
  unfold State.cursorOk
  rwa [hc, hr]

/-- Every command keeps the cursor invariant: it empties the buffer, reads through `readBits`, or leaves it alone. -/
theorem opOf_cursorOk {i : Instr} {s t : State} (h : s.cursorOk) (ho : opOf i s = .ok t) : t.cursorOk := by
  cases i with
  | setptr | clrbuf => obtain rfl := Except.ok.inj ho; exact cursorOk_of_empty rfl
  | load => obtain ⟨_, -, -, rfl⟩ := loadOp_eq_ok.mp ho; exact cursorOk_of_empty rfl
  | readBits n => obtain ⟨-, v, c, hr, rfl⟩ := readBitsOp_eq_ok.mp ho; exact readBits_tailOf (s := s) h hr
  | next => obtain ⟨-, -, v, c, _, _, hr, -, -, -, rfl⟩ := nextOp_eq_ok.mp ho; exact readBits_tailOf (s := s) h hr
  | emit => obtain ⟨-, rfl⟩ := emitOp_eq_ok.mp ho; exact h
  | arm | disarm | play => obtain rfl := Except.ok.inj ho; exact h

theorem cursorOk_kept : Kept State.cursorOk where
  setEnv h _ := h
  log h := h
  carCycles h := h
  store h _ := cursorOk_of_eq (by simp) (by simp) h
  fault h _ := h
  command h _ ho := opOf_cursorOk h ho
  play h _ ho := cursorOk_of_eq (by simp) (by simp) (opOf_cursorOk h ho)
  timer h _ _ _ _ := h
  endPhase h _ := cursorOk_of_eq (by simp) (by simp) h
  reset _ := cursorOk_of_empty rfl

/-! ## The fault record -/

theorem not_halted_of_busy {q : Seq} (h : q.busy = true) : q ≠ .halted := by
  rintro rfl
  simp [Seq.busy] at h

/-- With the same fault record as a state that is not halted, and not halted either. -/
theorem haltOk_of_not_halted {s t : State} (h : s.haltOk) (hs : s.seq ≠ .halted) (hf : t.flt = s.flt)
    (ht : t.seq ≠ .halted) : t.haltOk := by
  obtain ⟨hiff, -, hzero⟩ := h
  have hn : s.flt.fault = false := by simpa [hs] using hiff
  refine ⟨?_, ?_, ?_⟩ <;> rw [hf] <;> simp [hn, ht, hzero]

theorem not_halted_of_ready {s : State} (h : s.haltOk) (hr : s.ready = true) : s.seq ≠ .halted := by
  obtain ⟨hiff, -⟩ := h
  obtain ⟨-, hf, -⟩ := ready_iff.mp hr
  simpa [hf] using hiff

theorem haltOk_of_eq {s t : State} (hf : t.flt = s.flt) (hq : t.seq = s.seq) (h : s.haltOk) : t.haltOk := by
  unfold State.haltOk
  rwa [hf, hq]

theorem haltOk_of_reset {s : State} (hf : s.flt = .reset) (hq : s.seq = .idle) : s.haltOk := by
  simp [State.haltOk, hf, hq, FaultRecord.reset]

theorem raise_haltOk (x : Trap) (s : State) : (raise x s).haltOk := by
  simp [State.haltOk, x.code.num_range]

theorem seqAfter_ne_halted {i : Instr} {s : State} (h : s.seq ≠ .halted) : seqAfter i s ≠ .halted := by
  cases i <;> simp [seqAfter, h]

theorem playThen_ne_halted {i : Instr} {u : State} (h : u.seq ≠ .halted) : (playThen i u).seq ≠ .halted := by
  cases i with
  | arm => rcases afterPair_cases u with ⟨-, e⟩ | ⟨-, e⟩ <;> simp [playThen, e]
  | _ => simp [playThen, h]

theorem endPhase_ne_halted {s : State} (h : s.seq ≠ .halted) : (endPhase s).seq ≠ .halted := by
  rcases endPhase_cases s with ⟨-, e⟩ | ⟨-, e⟩ | ⟨-, e⟩ | ⟨-, e⟩ | ⟨-, e⟩
  · simp [e, endOn]
  · simp [e]
  · simp [e, endOn]
  · rcases afterPair_cases s with ⟨-, e'⟩ | ⟨-, e'⟩ <;> simp [e, e']
  · rwa [e]

theorem haltOk_kept : Kept State.haltOk where
  setEnv h _ := h
  log h := h
  carCycles h := h
  store h _ := haltOk_of_eq (by simp) (by simp) h
  fault {s x} _ _ := raise_haltOk x s
  command {s t i} h hr ho := by
    obtain ⟨hf, -, -, -, hq, -⟩ := opOf_shape ho
    have hs := not_halted_of_ready h hr
    exact haltOk_of_not_halted h hs hf (hq ▸ seqAfter_ne_halted hs)
  play h hi ho := by
    obtain ⟨hf, -, -, -, hq, -⟩ := opOf_shape ho
    have hs := not_halted_of_busy (busy_of_playCommand hi)
    exact haltOk_of_not_halted h hs (by simpa using hf) (playThen_ne_halted (hq ▸ seqAfter_ne_halted hs))
  timer h _ _ _ _ := h
  endPhase h hq := by
    have hs := not_halted_of_busy (busy_of_isPhase hq)
    exact haltOk_of_not_halted h hs (by simp) (endPhase_ne_halted hs)
  reset _ := haltOk_of_reset rfl rfl

/-! ## The carrier generator -/

theorem carrierRuns_of_eq {s t : State} (ha : t.emitter.armed = s.emitter.armed)
    (hl : t.regs.carlat = s.regs.carlat) : t.carrierRuns = s.carrierRuns := by
  simp only [State.carrierRuns, ha, hl]

theorem carrierOk_of_eq {s t : State} (ha : t.emitter.armed = s.emitter.armed ∧ t.emitter.ccnt = s.emitter.ccnt ∧
      t.emitter.clevel = s.emitter.clevel) (hl : t.regs.carlat = s.regs.carlat) (hp : t.params = s.params)
    (h : s.carrierOk) : t.carrierOk := by
  obtain ⟨harmed, hccnt, hclevel⟩ := ha
  unfold State.carrierOk
  rwa [carrierRuns_of_eq harmed hl, hccnt, hclevel, hl, hp]

/-- A generator at count 0 and level 0 meets the invariant, running or not. -/
theorem carrierOk_of_zero {s : State} (hc : s.emitter.ccnt = 0) (hl : s.emitter.clevel = false) : s.carrierOk := by
  unfold State.carrierOk
  split
  · rw [hc]
    exact carHalf_pos _ _
  · exact ⟨hc, hl⟩

theorem carCycles_carrierOk {s : State} (k : Nat) (h : s.carrierOk) : (carCycles k s).carrierOk := by
  have e : (carCycles k s).carrierRuns = s.carrierRuns := rfl
  unfold State.carrierOk at h ⊢
  rw [e]
  cases hr : s.carrierRuns
  case true =>
    rw [hr] at h
    simp only [carCycles, hr]
    exact carRun_count_lt k h
  case false =>
    obtain ⟨hc, hl⟩ : s.emitter.ccnt = 0 ∧ s.emitter.clevel = false := by simpa [hr] using h
    simp [carCycles, hr, hc, hl, carRun_holds]

/-- ARM and DISARM restart the generator from 0; the others leave it alone. -/
theorem opOf_carrierOk {i : Instr} {s t : State} (h : s.carrierOk) (ho : opOf i s = .ok t) : t.carrierOk := by
  by_cases hi : i = .arm ∨ i = .disarm
  · rcases hi with rfl | rfl <;> (obtain rfl := Except.ok.inj ho; exact carrierOk_of_zero rfl rfl)
  · obtain ⟨harm, hdisarm⟩ := not_or.mp hi
    have frame := opOf_frame ho
    obtain ⟨-, -, hp, -⟩ := opOf_shape ho
    exact carrierOk_of_eq (frame.generator harm hdisarm) (frame.carlat harm) hp h

theorem carrierOk_kept : Kept State.carrierOk where
  setEnv h _ := h
  log h := h
  carCycles h := carCycles_carrierOk _ h
  store {s r v} h _ := by
    obtain ⟨-, -, hl⟩ := storeReg_keeps s r v
    exact carrierOk_of_eq (by simp) hl (by simp) h
  fault h _ := h
  command h _ ho := opOf_carrierOk h ho
  play h _ ho := carrierOk_of_eq (by simp) (by simp) (by simp) (opOf_carrierOk h ho)
  timer h _ _ _ _ := h
  endPhase h _ := carrierOk_of_eq (by simp) (by simp) (by simp) h
  reset _ := carrierOk_of_zero rfl rfl

/-! ## The unit timer -/

theorem timerOk_of_eq {s t : State} (hd : t.emitter.dcnt = s.emitter.dcnt) (hp : t.emitter.pre = s.emitter.pre)
    (hpar : t.params = s.params) (h : s.timerOk) : t.timerOk := by
  unfold State.timerOk
  rwa [hd, hp, hpar]

/-- A timer that has just been set meets the invariant. -/
theorem timerOk_of_pre_zero {s : State} (h : s.emitter.pre = 0) : s.timerOk := by
  simp [State.timerOk, h, tickCycles_pos]

theorem opOf_timerOk {i : Instr} {s t : State} (h : s.timerOk) (ho : opOf i s = .ok t) : t.timerOk := by
  by_cases hi : i = .emit
  · subst hi
    obtain ⟨-, rfl⟩ := emitOp_eq_ok.mp ho
    exact timerOk_of_pre_zero rfl
  · obtain ⟨-, hd, hp⟩ := (opOf_frame ho).timer hi
    obtain ⟨-, -, hpar, -⟩ := opOf_shape ho
    exact timerOk_of_eq hd hp hpar h

theorem playThen_timerOk {i : Instr} {u : State} (h : u.timerOk) : (playThen i u).timerOk := by
  cases i with
  | next => exact timerOk_of_pre_zero rfl
  | _ => exact h

theorem endPhase_timerOk {s : State} (h : s.timerOk) : (endPhase s).timerOk := by
  rcases endPhase_cases s with ⟨-, e⟩ | ⟨-, e⟩ | ⟨-, e⟩ | ⟨-, e⟩ | ⟨-, e⟩ <;> rw [e]
  · exact timerOk_of_pre_zero rfl
  · exact h
  · exact timerOk_of_pre_zero rfl
  · exact h
  · exact h

theorem timerOk_kept : Kept State.timerOk where
  setEnv h _ := h
  log h := h
  carCycles h := h
  store h _ := timerOk_of_eq (by simp) (by simp) (by simp) h
  fault h _ := h
  command h _ ho := opOf_timerOk h ho
  play h _ ho := playThen_timerOk (opOf_timerOk h ho)
  timer _ _ _ hp hz := ⟨hp, hz⟩
  endPhase h _ := endPhase_timerOk h
  reset _ := timerOk_of_pre_zero rfl

/-! ## The phases and PLAY -/

theorem phaseOk_of_not_phase {s : State} (h : s.seq.isPhase = false) : s.phaseOk := by
  unfold State.phaseOk State.phaseOn
  cases hs : s.seq <;> simp_all [Seq.isPhase, Seq.phaseOn]

/-- The states of the sequencer of which `playOk` says something: PLAY after its LOAD. -/
def Seq.pastLoad : Seq → Bool
  | .playArm | .playNext | .playOn | .playOff | .playClr | .playDisarm => true
  | .idle | .emitOn | .emitOff | .playLoad | .halted => false

theorem playOk_of_not_pastLoad {s : State} (h : s.seq.pastLoad = false) : s.playOk := by
  unfold State.playOk
  cases hs : s.seq <;> simp_all [Seq.pastLoad]

/-- Outside the phases and PLAY there is nothing to show. -/
theorem phaseOk_and_playOk_of_not_busy {s : State} (h : s.seq.busy = false) : s.phaseOk ∧ s.playOk := by
  rcases seq_of_not_busy h with e | e <;>
    exact ⟨phaseOk_of_not_phase (by rw [e]; rfl), playOk_of_not_pastLoad (by rw [e]; rfl)⟩

/-- A pair begins within its ON, with a carrier if it needs one. -/
theorem beginPair_phaseOk {q : Seq} {s : State} (hq : q = .emitOn ∨ q = .playOn)
    (h : s.useCarrier = true → s.carrierRuns = true) : (beginPair q s).phaseOk := by
  have e : (beginPair q s).carrierRuns = s.carrierRuns := rfl
  refine ⟨fun _ => le_rfl, fun hoff => ?_, fun _ hf => e ▸ h hf⟩
  rcases hq with rfl | rfl <;> simp at hoff

/-- Only EMIT and PLAY move the sequencer; EMIT has checked its carrier (R243), and PLAY has done nothing yet. -/
theorem command_phaseOk_playOk {i : Instr} {s t : State} (hr : s.ready = true) (ho : opOf i s = .ok t) :
    t.phaseOk ∧ t.playOk := by
  obtain ⟨-, -, -, -, hq, -⟩ := opOf_shape ho
  cases i with
  | emit =>
    obtain ⟨hc, rfl⟩ := emitOp_eq_ok.mp ho
    exact ⟨beginPair_phaseOk (.inl rfl) hc, playOk_of_not_pastLoad rfl⟩
  | play => exact ⟨phaseOk_of_not_phase (by rw [hq]; rfl), playOk_of_not_pastLoad (by rw [hq]; rfl)⟩
  | _ => exact phaseOk_and_playOk_of_not_busy (by rw [hq]; exact not_busy_of_ready hr)

/-- A latched carrier that is not 0 runs once the generator is armed (R160). -/
theorem carrierRuns_of_latched {s : State} (ha : s.emitter.armed = true) (hl : s.regs.carlat = s.regs.carrier)
    (hu : s.useCarrier = true) : s.carrierRuns = true := by
  simpa [State.carrierRuns, State.useCarrier, ha, hl] using hu

/-- Where PLAY goes after a pair, it has what it needs there, if the width is usable and the carrier latched. -/
theorem afterPair_phaseOk_playOk {s : State} (hw : 1 ≤ s.regs.width.toNat ∧ s.regs.width.toNat ≤ 8)
    (hl : s.emitter.armed = true ∧ s.regs.carlat = s.regs.carrier) :
    (s.setSeq (afterPair s)).phaseOk ∧ (s.setSeq (afterPair s)).playOk := by
  rcases afterPair_cases s with ⟨-, e⟩ | ⟨hp, e⟩ <;> rw [e] <;> refine ⟨phaseOk_of_not_phase rfl, ?_⟩
  · exact ⟨fun _ => hw, fun _ => hl, nofun⟩
  · exact ⟨fun _ => hw, fun _ => hl, fun _ => hp⟩

/-- Each of PLAY's commands establishes what `playOk` says of the next micro-step (R180 to R186). -/
theorem play_phaseOk_playOk {i : Instr} {s u : State} (h : s.playOk) (hi : playCommand s.seq = some i)
    (ho : opOf i s = .ok u) : (playThen i u).phaseOk ∧ (playThen i u).playOk := by
  obtain ⟨hwidth, hlatched, -⟩ := h
  have frame := opOf_frame ho
  rcases playCommand_cases hi with ⟨hs, rfl⟩ | ⟨hs, rfl⟩ | ⟨hs, rfl⟩ | ⟨hs, rfl⟩ | ⟨hs, rfl⟩ <;>
    simp only [hs, reduceCtorEq, true_or, or_true, or_self, true_implies, false_implies] at hwidth hlatched
  · obtain ⟨g, -, hw, rfl⟩ := loadOp_eq_ok.mp ho
    exact ⟨phaseOk_of_not_phase rfl, fun _ => hw, by simp [playThen], by simp [playThen]⟩
  · obtain rfl := Except.ok.inj ho
    exact afterPair_phaseOk_playOk hwidth ⟨rfl, rfl⟩
  · obtain ⟨hcarrier, hw, -⟩ := frame.loaded nofun
    obtain ⟨harmed, -⟩ := frame.generator nofun nofun
    have hl : u.emitter.armed = true ∧ u.regs.carlat = u.regs.carrier := by
      rw [harmed, hcarrier, frame.carlat nofun]
      exact hlatched
    refine ⟨beginPair_phaseOk (.inr rfl) (carrierRuns_of_latched hl.1 hl.2), fun _ => ?_, fun _ => hl, nofun⟩
    rw [playThen_regs, hw]
    exact hwidth
  · obtain rfl := Except.ok.inj ho
    exact ⟨phaseOk_of_not_phase rfl, by simp [playThen], fun _ => hlatched, by simp [playThen]⟩
  · exact phaseOk_and_playOk_of_not_busy rfl

/-- A phase ends in its off phase with OFF units to run, or outside the phases. -/
theorem endPhase_phaseOk_playOk {s : State} (h : s.phaseOk ∧ s.playOk) (hq : s.seq.isPhase = true) :
    (endPhase s).phaseOk ∧ (endPhase s).playOk := by
  obtain ⟨-, hwidth, hlatched, -⟩ := h
  rcases endPhase_cases s with ⟨-, e⟩ | ⟨-, e⟩ | ⟨hs, e⟩ | ⟨hs, e⟩ | ⟨hs, -⟩
  · rw [e]
    exact ⟨⟨by simp [endOn], fun _ => le_rfl, nofun⟩, playOk_of_not_pastLoad rfl⟩
  · rw [e]
    exact phaseOk_and_playOk_of_not_busy rfl
  · rw [e]
    exact ⟨⟨by simp [endOn], fun _ => le_rfl, nofun⟩, fun _ => hwidth (by simp [hs]), fun _ => hlatched (by simp [hs]),
      by simp [endOn]⟩
  · rw [e]
    exact afterPair_phaseOk_playOk (hwidth (by simp [hs])) (hlatched (by simp [hs]))
  · simp [hs] at hq

theorem timer_phaseOk {s : State} {d : Word} {p : Nat} (h : s.phaseOk) (hd : d.toNat ≤ s.emitter.dcnt.toNat) :
    (s.setTimer d p).phaseOk := by
  obtain ⟨hon, hoff, hcarrier⟩ := h
  exact ⟨fun hq => hd.trans (hon hq), fun hq => hd.trans (hoff hq), hcarrier⟩

theorem phaseOk_and_playOk_kept : Kept fun s => s.phaseOk ∧ s.playOk where
  setEnv h _ := h
  log h := h
  carCycles h := h
  store _ hr := phaseOk_and_playOk_of_not_busy (by simpa using not_busy_of_ready hr)
  fault _ _ := phaseOk_and_playOk_of_not_busy rfl
  command _ hr ho := command_phaseOk_playOk hr ho
  play h hi ho := play_phaseOk_playOk h.2 hi ho
  timer h _ hd _ _ := ⟨timer_phaseOk h.1 hd, h.2⟩
  endPhase h hq := endPhase_phaseOk_playOk h hq
  reset _ := phaseOk_and_playOk_of_not_busy rfl

/-! ## Reset -/

theorem resetOk_of_rst_low {s : State} (h : s.env.rst = false) : s.resetOk := by simp [State.resetOk, h]

/-- A busy block is not held in reset (R250). -/
theorem rst_low_of_busy {s : State} (h : s.resetOk) (hb : s.seq.busy = true) : s.env.rst = false := by
  by_contra hr
  obtain ⟨-, -, -, hq, -⟩ := h (by simpa using hr)
  simp [hq, Seq.busy] at hb

/-- Cycles of `car_clk` leave the generator of a block in reset at 0. -/
theorem carCycles_resetOk {s : State} (k : Nat) (h : s.resetOk) : (carCycles k s).resetOk := by
  intro hr
  obtain ⟨hregs, hcursor, hemitter, hq, hflt⟩ := h hr
  refine ⟨hregs, hcursor, ?_, hq, hflt⟩
  simp [carCycles, State.carrierRuns, hemitter, Emitter.reset, carRun_holds]

theorem resetOk_kept : Kept State.resetOk where
  setEnv h hv hr := h (hv hr)
  log h := h
  carCycles h := carCycles_resetOk _ h
  store _ hr := resetOk_of_rst_low (by simpa using rst_low_of_ready hr)
  fault h hrb := resetOk_of_rst_low (hrb.elim rst_low_of_ready (rst_low_of_busy h))
  command _ hr ho := by
    obtain ⟨-, -, -, henv, -⟩ := opOf_shape ho
    exact resetOk_of_rst_low (henv ▸ rst_low_of_ready hr)
  play h hi ho := by
    obtain ⟨-, -, -, henv, -⟩ := opOf_shape ho
    exact resetOk_of_rst_low (by simpa [henv] using rst_low_of_busy h (busy_of_playCommand hi))
  timer {s _ _} h hq _ _ _ := resetOk_of_rst_low (rst_low_of_busy (s := s) h (busy_of_isPhase hq))
  endPhase h hq := resetOk_of_rst_low (by simpa using rst_low_of_busy h (busy_of_isPhase hq))
  reset _ _ := ⟨rfl, rfl, rfl, rfl, rfl⟩

/-! ## The invariant -/

theorem inv_iff {s : State} : s.inv ↔ s.romOk ∧ s.cursorOk ∧ s.haltOk ∧ s.carrierOk ∧ s.timerOk ∧
    (s.phaseOk ∧ s.playOk) ∧ s.resetOk := by
  simp only [State.inv, and_assoc]

/-- Every part of the invariant is kept. -/
theorem inv_kept : Kept State.inv := by
  have parts := romOk_kept.and <| cursorOk_kept.and <| haltOk_kept.and <| carrierOk_kept.and <|
    timerOk_kept.and <| phaseOk_and_playOk_kept.and resetOk_kept
  rwa [← funext fun s => propext (inv_iff (s := s))] at parts

/-- Settles O48: every part of the invariant is kept by every move, so every step keeps the whole. -/
theorem stepKeepsInvariant : Obligations.StepKeepsInvariant := fun _ h => inv_kept.step h

/-- Settles O46: the cursor invariant is kept by every move. -/
theorem stepKeepsCursorInvariant : Obligations.StepKeepsCursorInvariant := fun _ h => cursorOk_kept.step h

/-- Settles O47: `haltOk` is kept by every move, and it puts FAULT = 1 in HALTED, where the block is not busy. -/
theorem busyAndFaultNeverTogether : Obligations.BusyAndFaultNeverTogether := by
  refine ⟨fun _ h => haltOk_kept.step h, fun s ⟨hiff, _⟩ ⟨hb, hf⟩ => ?_⟩
  exact not_halted_of_busy hb (hiff.mp hf)

/-- Settles O49: after reset the cursor is empty, nothing runs and no phase is on. -/
theorem resetMeetsInvariant : Obligations.ResetMeetsInvariant :=
  inv_iff.mpr ⟨⟨Memory.wf_nil, nofun⟩, cursorOk_of_empty rfl, haltOk_of_reset rfl rfl, carrierOk_of_zero rfl rfl,
    timerOk_of_pre_zero rfl, phaseOk_and_playOk_of_not_busy rfl, resetOk_of_rst_low rfl⟩

end Sys2Proof.Machine
end

section
/-!
The frame of every command (O43) and of every micro-step (O44), and where a micro-step leaves the sequencer (O33).
-/

namespace Sys2Proof.Machine

theorem useCarrier_eq_decide (s : State) : s.useCarrier = decide (s.regs.carrier ≠ 0#8) := by
  by_cases h : s.regs.carrier = 0#8 <;> simp [State.useCarrier, h]

theorem sameRom_of_eq {s t : State} (hr : t.rom = s.rom) (hp : t.params = s.params) : s.sameRom t :=
  ⟨hp, hr, fun _ => by rw [hr]⟩

/-! ## Commands -/

/-- The trace of a command's micro-step that answers: as it was, or one event more (R46). -/
theorem opOf_trace {i : Instr} {s t : State} (h : opOf i s = .ok t) :
    t.trace = s.trace ∨ (i = .arm ∧ t.trace = s.trace ++ [.arm s.regs.carrier]) ∨
      (i = .emit ∧ ∃ cp, t.trace = s.trace ++ [.emit s.regs.on s.regs.off (decide (s.regs.carrier ≠ 0#8)) cp]) ∨
      (i = .disarm ∧ t.trace = s.trace ++ [.disarm]) := by
  obtain ⟨-, -, -, -, -, ht⟩ := opOf_shape h
  cases i with
  | arm => exact .inr (.inl ⟨rfl, ht⟩)
  | emit =>
    refine .inr (.inr (.inl ⟨rfl, if s.useCarrier then s.regs.carlat else 0#8, ?_⟩))
    rw [← useCarrier_eq_decide]
    exact ht
  | disarm => exact .inr (.inr (.inr ⟨rfl, ht⟩))
  | _ => exact .inl (by simpa [eventOf] using ht)

theorem seqAfter_of_ne {i : Instr} (hemit : i ≠ .emit) (hplay : i ≠ .play) (s : State) : seqAfter i s = s.seq := by
  cases i <;> simp_all [seqAfter]

/-- Whatever a command does (nothing, a fault or its writes), its frame, the ROM and the other agents stay. -/
theorem exec_frame (i : Instr) (s : State) : ∃ t, exec i s = .next t ∧ s.sameRom t ∧ t.env = s.env ∧
    CommandFrame i s t ∧ (t = s ∨ (s.flt.fault = false ∧ ∃ x, t = raise x s) ∨ opOf i s = .ok t) := by
  rw [exec_eq_issue]
  have same : s.sameRom s := sameRom_of_eq rfl rfl
  obtain ⟨t, ht, ⟨-, rfl⟩ | ⟨-, hf, -, rfl⟩ | ⟨hr, ⟨x, -, rfl⟩ | ho⟩⟩ := issue_cases (opOf i) s
  · exact ⟨_, ht, same, rfl, .of_eq rfl rfl rfl, .inl rfl⟩
  · exact ⟨_, ht, same, rfl, .of_eq rfl rfl rfl, .inr (.inl ⟨hf, _, rfl⟩)⟩
  · obtain ⟨-, hf, -⟩ := ready_iff.mp hr
    exact ⟨_, ht, same, rfl, .of_eq rfl rfl rfl, .inr (.inl ⟨hf, _, rfl⟩)⟩
  · obtain ⟨-, hrom, hp, henv, -⟩ := opOf_shape ho
    exact ⟨_, ht, sameRom_of_eq hrom hp, henv, opOf_frame ho, .inr (.inr ho)⟩

/-- Settles O43: the frame of `exec_frame`, then the fault record and the trace in each of its three outcomes. -/
theorem commandsWriteOnlyTheirOwn : Obligations.CommandsWriteOnlyTheirOwn := by
  intro i s
  obtain ⟨t, ht, hrom, henv, f, houtcome⟩ := exec_frame i s
  refine ⟨t, ht, hrom, henv, f.addr, f.ttlim, f.data, f.loaded, f.pairs, f.decoded, f.carlat, f.generator, f.timer,
    f.ptr, f.bbyte, f.nbits, ?_⟩
  rcases houtcome with rfl | ⟨hf, x, rfl⟩ | ho
  · exact ⟨fun _ => ⟨rfl, fun _ _ => rfl⟩, .inl rfl⟩
  · exact ⟨nofun, .inr (.inl ⟨hf, rfl, rfl⟩)⟩
  · obtain ⟨hflt, -, -, -, hq, -⟩ := opOf_shape ho
    exact ⟨fun _ => ⟨hflt, fun hemit hplay => hq.trans (seqAfter_of_ne hemit hplay s)⟩,
      (opOf_trace ho).imp_right .inr⟩

/-! ## Micro-steps -/

/-- What a micro-step of the block, from `s` to `t`, leaves alone of the registers, the cursor and the emitter. -/
structure MicroFrame (s t : State) : Prop where
  addr : t.regs.addr = s.regs.addr
  data : t.regs.data = s.regs.data
  ttlim : t.regs.ttlim = s.regs.ttlim
  carlat : s.seq ≠ .playArm → t.regs.carlat = s.regs.carlat
  generator : s.seq ≠ .playArm → s.seq ≠ .playDisarm → t.emitter.armed = s.emitter.armed ∧
    t.emitter.ccnt = s.emitter.ccnt ∧ t.emitter.clevel = s.emitter.clevel
  loaded : s.seq ≠ .playLoad → t.regs.carrier = s.regs.carrier ∧ t.regs.width = s.regs.width ∧
    t.regs.ttbase = s.regs.ttbase
  pairs : s.seq ≠ .playLoad → s.seq ≠ .playNext → t.regs.pairs = s.regs.pairs ∧ t.cursor.ptr = s.cursor.ptr
  nbits : s.seq ≠ .playLoad → s.seq ≠ .playNext → s.seq ≠ .playClr → t.cursor.nbits = s.cursor.nbits
  decoded : s.seq ≠ .playNext → t.regs.on = s.regs.on ∧ t.regs.off = s.regs.off ∧ t.regs.index = s.regs.index ∧
    t.cursor.bbyte = s.cursor.bbyte ∧ t.emitter.flag = s.emitter.flag
  timer : s.seq ≠ .playNext → s.seq.isPhase = false → t.emitter.dcnt = s.emitter.dcnt ∧ t.emitter.pre = s.emitter.pre

theorem MicroFrame.of_eq {s t : State} (hr : t.regs = s.regs) (hc : t.cursor = s.cursor)
    (he : t.emitter = s.emitter) : MicroFrame s t := by
  constructor <;> simp [hr, hc, he]

/-- A phase that ends writes the unit timer only. -/
theorem finishPhase_microFrame {s : State} (hq : s.seq.isPhase = true) : MicroFrame s (finishPhase s) := by
  constructor <;> simp [finishPhase, hq]

/-- A micro-step of PLAY writes what its command writes, and PLAY_NEXT begins the pair. -/
theorem playThen_microFrame {i : Instr} {s u : State} (hi : playCommand s.seq = some i) (ho : opOf i s = .ok u) :
    MicroFrame s (playThen i u) := by
  rcases playCommand_cases hi with ⟨hs, rfl⟩ | ⟨hs, rfl⟩ | ⟨hs, rfl⟩ | ⟨hs, rfl⟩ | ⟨hs, rfl⟩
  case inl => obtain ⟨_, -, -, rfl⟩ := loadOp_eq_ok.mp ho; constructor <;> simp [hs, playThen]
  case inr.inr.inl =>
    obtain ⟨-, -, _, _, _, _, -, -, -, -, rfl⟩ := nextOp_eq_ok.mp ho
    constructor <;> simp [hs, playThen]
  all_goals obtain rfl := Except.ok.inj ho; constructor <;> simp [hs, playThen]

/-- Everything a micro-step does: its frame, and whether it only moves the sequencer and the unit timer, faults, or
performs one of PLAY's commands. -/
theorem microStep_frame (s : State) : s.sameRom (microStep s) ∧ (microStep s).env = s.env ∧
    MicroFrame s (microStep s) ∧
      (((microStep s).flt = s.flt ∧ (microStep s).trace = s.trace) ∨
        (s.seq ≠ .halted ∧ ∃ x, microStep s = raise x s) ∨
        ∃ i u, playCommand s.seq = some i ∧ opOf i s = .ok u ∧ microStep s = playThen i u) := by
  have same : s.sameRom s := sameRom_of_eq rfl rfl
  rcases microStep_kinds s with ⟨-, e⟩ | ⟨hq, e⟩ | ⟨i, hi⟩
  · rw [e]
    exact ⟨same, rfl, .of_eq rfl rfl rfl, .inl ⟨rfl, rfl⟩⟩
  · rw [e]
    exact ⟨sameRom_of_eq (by simp [finishPhase]) (by simp [finishPhase]), by simp [finishPhase],
      finishPhase_microFrame hq, .inl (by simp [finishPhase])⟩
  · rcases microStep_of_playCommand hi with ⟨x, -, e⟩ | ⟨u, ho, e⟩
    · rw [e]
      exact ⟨same, rfl, .of_eq rfl rfl rfl, .inr (.inl ⟨not_halted_of_busy (busy_of_playCommand hi), x, rfl⟩)⟩
    · obtain ⟨-, hrom, hp, henv, -⟩ := opOf_shape ho
      rw [e]
      exact ⟨sameRom_of_eq (by simpa using hrom) (by simpa using hp), by simpa using henv,
        playThen_microFrame hi ho, .inr (.inr ⟨i, u, hi, ho, rfl⟩)⟩

/-- The trace of one of PLAY's micro-steps that answers: as it was, or one event more (R46). -/
theorem playThen_trace {i : Instr} {s u : State} (hi : playCommand s.seq = some i) (ho : opOf i s = .ok u) :
    (playThen i u).trace = s.trace ∨
      (s.seq = .playArm ∧ (playThen i u).trace = s.trace ++ [.arm s.regs.carrier]) ∨
      (s.seq = .playNext ∧ (playThen i u).trace = s.trace ++ [.emit u.regs.on u.regs.off
        (decide (s.regs.carrier ≠ 0#8)) (if s.regs.carrier ≠ 0#8 then s.regs.carlat else 0#8)]) ∨
      (s.seq = .playDisarm ∧ (playThen i u).trace = s.trace ++ [.disarm]) := by
  obtain ⟨-, -, -, -, -, ht⟩ := opOf_shape ho
  rcases playCommand_cases hi with ⟨-, rfl⟩ | ⟨hs, rfl⟩ | ⟨hs, rfl⟩ | ⟨-, rfl⟩ | ⟨hs, rfl⟩
  · exact .inl (by simpa [eventOf, playThen] using ht)
  · exact .inr (.inl ⟨hs, ht⟩)
  · have f := opOf_frame ho
    obtain ⟨hcarrier, -, -⟩ := f.loaded nofun
    refine .inr (.inr (.inl ⟨hs, ?_⟩))
    simp [playThen, ht, eventOf, useCarrier_eq_decide, hcarrier, f.carlat]
  · exact .inl (by simpa [eventOf, playThen] using ht)
  · exact .inr (.inr (.inr ⟨hs, ht⟩))

/-- Settles O44: the frame of `microStep_frame`, then the fault record and the trace in each of its outcomes. -/
theorem microStepsWriteOnlyTheirOwn : Obligations.MicroStepsWriteOnlyTheirOwn := by
  intro s
  obtain ⟨hrom, henv, f, houtcome⟩ := microStep_frame s
  refine ⟨hrom, henv, f.addr, f.data, f.ttlim, ?flt, f.carlat, f.generator, f.loaded, f.pairs, f.nbits, f.decoded,
    f.timer, ?trace⟩
  case flt =>
    rcases houtcome with ⟨hflt, -⟩ | ⟨-, x, e⟩ | ⟨i, u, -, ho, e⟩
    · exact fun _ => hflt
    · exact fun h => absurd (e ▸ raise_seq x s) h
    · obtain ⟨hflt, -⟩ := opOf_shape ho
      exact fun _ => by rw [e, playThen_flt, hflt]
  case trace =>
    rcases houtcome with ⟨-, htrace⟩ | ⟨hs, x, e⟩ | ⟨i, u, hi, ho, e⟩
    · exact .inl htrace
    · rw [e]
      exact .inr (.inl ⟨hs, rfl, rfl⟩)
    · rw [e, playThen_regs]
      exact (playThen_trace hi ho).imp_right .inr

/-! ## The order of the micro-steps -/

/-- PLAY_LOAD and PLAY_NEXT move on or take their command's fault (R181, R183). -/
theorem microStep_seq_or_fault {s : State} {i : Instr} {q : Seq} (hi : playCommand s.seq = some i)
    (hq : ∀ u, opOf i s = .ok u → (playThen i u).seq = q) :
    (microStep s).seq = q ∨ ((microStep s).seq = .halted ∧ (microStep s).flt.fault = true) := by
  rcases microStep_of_playCommand hi with ⟨x, -, e⟩ | ⟨u, ho, e⟩ <;> rw [e]
  · exact .inr ⟨rfl, rfl⟩
  · exact .inl (hq u ho)

theorem afterPair_congr {s t : State} (h : t.regs.pairs = s.regs.pairs) : afterPair t = afterPair s := by
  simp only [afterPair, h]

/-- PLAY_ARM always answers, and goes where PLAY goes after a pair (R182). -/
theorem microStep_seq_of_playArm {s : State} (hs : s.seq = .playArm) : (microStep s).seq = afterPair s := by
  have hi : playCommand s.seq = some .arm := by rw [hs]; rfl
  rcases microStep_of_playCommand hi with ⟨x, hx, -⟩ | ⟨u, hu, e⟩
  · cases hx
  · rw [e]
    exact afterPair_congr ((opOf_frame hu).pairs nofun nofun)

/-- So does PLAY_OFF (R184). -/
theorem microStep_seq_of_playOff {s : State} (hs : s.seq = .playOff) : (microStep s).seq = afterPair s := by
  simp only [microStep, hs, finishPhase, endPhase, State.setEmitter_seq, State.setSeq_seq]
  exact afterPair_congr rfl

/-- Settles O33: one row of R44 for each state of the sequencer. -/
theorem microStepOrder : Obligations.MicroStepOrder := by
  intro s
  cases hs : s.seq <;> simp only
  case idle | halted => exact microStep_of_not_busy (by simp [State.busy, hs, Seq.busy])
  case playLoad => exact microStep_seq_or_fault (by rw [hs]; rfl) fun _ _ => rfl
  case playNext => exact microStep_seq_or_fault (by rw [hs]; rfl) fun _ _ => rfl
  case playArm => exact microStep_seq_of_playArm hs
  case playOff => exact microStep_seq_of_playOff hs
  case emitOn | emitOff | playOn => simp [microStep, hs, finishPhase, endPhase, endOn]
  case playClr | playDisarm => simp [microStep, hs, playClrOp, clrbufOp, playDisarmOp, disarmOp, Except.bind]

end Sys2Proof.Machine
end

section
/-!
The state at rest: the fields of STATUS and BUF (O9, O10), the output (O26), the reset values (O42), the register file
(O55), and the turns a step runs (O54).
-/

namespace Sys2Proof.Machine

/-! ## The view registers -/

/-- The number of a word made of two fields. -/
theorem toNat_append_fields {m n : Nat} (x : BitVec m) (y : BitVec n) :
    (x ++ y).toNat = x.toNat * 2 ^ n + y.toNat := by
  rw [BitVec.toNat_append, ← Nat.shiftLeft_add_eq_or_of_lt y.isLt, Nat.shiftLeft_eq]

/-- R23: the number of STATUS, from its fields. -/
theorem statusWord_toNat (s : State) : s.statusWord.toNat =
    16 * s.flt.fcode.toNat + 8 * s.phaseOn.toNat + 4 * s.emitter.armed.toNat + 2 * s.flt.fault.toNat + s.busy.toNat := by
  simp only [State.statusWord, toNat_append_fields, BitVec.toNat_ofBool, BitVec.toNat_ofNat]
  omega

/-- R32: the number of BUF, from its fields. -/
theorem bufWord_toNat (s : State) : s.bufWord.toNat = 256 * s.cursor.nbits.toNat + s.cursor.bbyte.toNat := by
  simp only [State.bufWord, toNat_append_fields, BitVec.toNat_ofNat]
  omega

/-- R23: BUSY is 1 but in IDLE and HALTED. -/
theorem busy_toNat (s : State) : s.busy.toNat = if s.seq = .idle ∨ s.seq = .halted then 0 else 1 := by
  unfold State.busy
  cases s.seq <;> rfl

/-- R43: PHASE_ON is 1 in EMIT_ON and PLAY_ON. -/
theorem phaseOn_iff {s : State} : s.phaseOn = true ↔ s.seq = .emitOn ∨ s.seq = .playOn := by
  unfold State.phaseOn
  cases s.seq <;> simp [Seq.phaseOn]

theorem phaseOn_toNat (s : State) : s.phaseOn.toNat = if s.seq = .emitOn ∨ s.seq = .playOn then 1 else 0 := by
  rw [← if_congr phaseOn_iff rfl rfl]
  cases s.phaseOn <;> rfl

/-- Settles O9: each field of `statusWord_toNat` by its place, the fields below it too small to reach it. -/
theorem statusFields : Obligations.StatusFields := by
  intro s
  have hbusy := s.busy.toNat_le
  have hfault := s.flt.fault.toNat_le
  have harmed := s.emitter.armed.toNat_le
  have hphase := s.phaseOn.toNat_le
  rw [← busy_toNat, ← phaseOn_toNat, readReg, statusWord_toNat]
  omega

/-- Settles O10: the two fields of `bufWord_toNat`, the byte below 256. -/
theorem bufFields : Obligations.BufFields := by
  intro s
  have hbyte := s.cursor.bbyte.isLt
  rw [readReg, bufWord_toNat]
  omega

/-! ## The output -/

/-- Settles O26: PHASE_ON is EMIT_ON or PLAY_ON, and gates the level (R47). -/
theorem outputFollowsState : Obligations.OutputFollowsState := by
  intro s
  refine ⟨fun hemit hplay => ?_, fun hon => ?_⟩
  · have hoff : s.phaseOn = false := by simp [← Bool.not_eq_true, phaseOn_iff, hemit, hplay]
    simp [State.irOut, hoff]
  · simp [State.irOut, phaseOn_iff.mpr hon]

/-! ## Reset and the register file -/

/-- Settles O42: every register of State.reset, one by one, and then the rest of the block (R49). -/
theorem resetValues : Obligations.ResetValues := by
  refine ⟨fun r => ?_, rfl, rfl, rfl, rfl, rfl, rfl⟩
  cases r <;> rfl

/-- Settles O55: the table of R20 row by row, and the sixteen numbers read back. -/
theorem registerNumbers : Obligations.RegisterNumbers := by
  refine ⟨fun r => ?_, by decide⟩
  cases r <;> rfl

/-! ## Turns -/

/-- A step takes the scheduled turn. -/
theorem step_of_scheduled {s : State} {t : Turn} {ts : List Turn} (h : s.env.schedule = t :: ts) :
    step s = turn t (s.setEnv { s.env with schedule := ts }) := by
  simp [step, takeTurn, h]

/-- With nothing scheduled and `rst` low, a busy block takes its micro-step. -/
theorem step_of_busy {s : State} (h : s.env.schedule = []) (hr : s.env.rst = false) (hb : s.busy = true) :
    step s = turn .micro s := by
  simp [step, takeTurn, freeTurn, h, hr, hb]

/-- The turn of a micro-step: some `car_clk` cycles and one draw (R161), then the micro-step, whole. -/
theorem turn_micro (s : State) : ∃ k, turn .micro s = .next (microStep
    (carCycles k (s.setEnv { s.env with draws := s.env.draws + 1 }))) := ⟨_, rfl⟩

/-- Settles O54: the turn that `step` takes, and what that turn runs. -/
theorem stepRunsTheBlocksTurns : Obligations.StepRunsTheBlocksTurns := by
  intro s ts
  refine ⟨step_of_scheduled, step_of_scheduled, fun h => ?_, fun h hr hb => ?_⟩
  · rw [step_of_scheduled h]
    exact turn_micro _
  · rw [step_of_busy h hr hb]
    exact turn_micro s

end Sys2Proof.Machine
end

section
/-!
What no step changes (O45): the ROM image and the parameters (R60), and the events already in the trace (R46).
-/

namespace Sys2Proof.Machine

@[simp] theorem storeReg_trace (s : State) (r : Reg) (v : Word) : (storeReg s r v).trace = s.trace := by
  cases r <;> rfl

/-- `t` continues `s`: the same ROM and parameters, and events after those of `s` only (R46, R60). -/
structure State.continues (t s : State) : Prop where
  rom : t.rom = s.rom
  params : t.params = s.params
  trace : ∃ l, t.trace = s.trace ++ l

theorem State.continues_self (s : State) : s.continues s := ⟨rfl, rfl, [], (List.append_nil _).symm⟩

/-- A move that leaves the ROM and the parameters alone and appends `l` to the trace continues what its state did. -/
theorem State.continues.append {s t u : State} {l : List Obs} (h : t.continues s) (hr : u.rom = t.rom)
    (hp : u.params = t.params) (ht : u.trace = t.trace ++ l) : u.continues s := by
  obtain ⟨k, hk⟩ := h.trace
  exact ⟨hr.trans h.rom, hp.trans h.params, k ++ l, by rw [ht, hk, List.append_assoc]⟩

/-- The case of a move that logs nothing. -/
theorem State.continues.of_eq {s t u : State} (h : t.continues s) (hr : u.rom = t.rom) (hp : u.params = t.params)
    (ht : u.trace = t.trace) : u.continues s :=
  h.append hr hp (ht.trans (List.append_nil _).symm)

/-- A command's micro-step that answers appends its event, if it has one (R46). -/
theorem opOf_continues {i : Instr} {s t u : State} (h : t.continues s) (ho : opOf i t = .ok u) : u.continues s := by
  obtain ⟨-, hr, hp, -, -, ht⟩ := opOf_shape ho
  exact h.append hr hp ht

/-- What follows one of PLAY's commands appends NEXT's Emit event, or nothing (R46, R183). -/
theorem playThen_continues (i : Instr) {s u : State} (h : u.continues s) : (playThen i u).continues s := by
  cases i with
  | next => exact h.append rfl rfl (beginPair_trace .playOn u)
  | _ => exact h.of_eq rfl rfl rfl

/-- Every move of a step continues the state that the step began in. -/
theorem continues_kept (s : State) : Kept fun t => t.continues s where
  setEnv h _ := h.of_eq rfl rfl rfl
  log h := h.append rfl rfl rfl
  carCycles h := h.of_eq rfl rfl rfl
  store h _ := h.of_eq (storeReg_rom _ _ _) (storeReg_params _ _ _) (storeReg_trace _ _ _)
  fault h _ := h.append rfl rfl rfl
  command h _ ho := opOf_continues h ho
  play h _ ho := playThen_continues _ (opOf_continues h ho)
  timer h _ _ _ _ := h.of_eq rfl rfl rfl
  endPhase h _ := h.of_eq (endPhase_rom _) (endPhase_params _) (endPhase_trace _)
  reset h := h.of_eq rfl rfl rfl

/-- Settles O45: a state continues itself, and every move of the step keeps that. -/
theorem stepKeepsRomAndExtendsTrace : Obligations.StepKeepsRomAndExtendsTrace := by
  intro s
  obtain ⟨t, hstep, hrom, hparams, htrace⟩ := (continues_kept s).step s.continues_self
  exact ⟨t, hstep, sameRom_of_eq hrom hparams, htrace⟩

end Sys2Proof.Machine
end

section
/-!
The command words (R80, R82, R83): the decoder and the encoder are inverses (O1), the words of the opcode map (O2), and
the illegal words (O3).
-/

namespace Sys2Proof.Machine

/-! ## The fields of a word -/

/-- R80: OP is bits 15:12. -/
theorem opField_toNat (w : Word) : (opField w).toNat = w.toNat / 4096 := by
  simp only [opField, BitVec.extractLsb'_toNat, Nat.shiftRight_eq_div_pow]
  omega

/-- R80: RSV is bits 11:4. -/
theorem rsvField_toNat (w : Word) : (rsvField w).toNat = w.toNat / 16 % 256 := by
  simp only [rsvField, BitVec.extractLsb'_toNat, Nat.shiftRight_eq_div_pow]

/-- R80: N is bits 3:0. -/
theorem nField_toNat (w : Word) : (nField w).toNat = w.toNat % 16 := by
  simp only [nField, BitVec.extractLsb'_toNat, Nat.shiftRight_eq_div_pow, pow_zero, Nat.div_one]

/-- R80: a word is its three fields. -/
theorem word_eq_of_fields {v w : Word} (hop : opField v = opField w) (hrsv : rsvField v = rsvField w)
    (hn : nField v = nField w) : v = w := by
  apply BitVec.eq_of_toNat_eq
  have hop' := congrArg BitVec.toNat hop
  have hrsv' := congrArg BitVec.toNat hrsv
  have hn' := congrArg BitVec.toNat hn
  simp only [opField_toNat, rsvField_toNat, nField_toNat] at hop' hrsv' hn'
  omega

/-! ## The encoder -/

/-- The fields of every well-formed command's word, as stated for each command. -/
theorem encode_fields (i : Instr) : Laws.WordFields.Statement i := by
  cases i with
  | setptr => exact Laws.WordFields.setptr
  | readBits n => exact Laws.WordFields.readBits n
  | clrbuf => exact Laws.WordFields.clrbuf
  | load => exact Laws.WordFields.load
  | next => exact Laws.WordFields.next
  | arm => exact Laws.WordFields.arm
  | emit => exact Laws.WordFields.emit
  | disarm => exact Laws.WordFields.disarm
  | play => exact Laws.WordFields.play

theorem readBits_wf {n : Nat} : (Instr.readBits n).wf = true ↔ n < 16 := by simp [Instr.wf]

/-- The number of a READ_BITS word whose count fits its field (R82). -/
theorem encode_readBits_toNat {n : Nat} (h : n < 16) : (encode (.readBits n)).toNat = 0x2000 + n := by
  simp only [encode, BitVec.toNat_add, BitVec.toNat_ofNat]
  omega

theorem opField_encode_readBits {n : Nat} (h : n < 16) : opField (encode (.readBits n)) = 2#4 := by
  apply BitVec.eq_of_toNat_eq
  rw [opField_toNat, encode_readBits_toNat h, BitVec.toNat_ofNat]
  omega

theorem nField_encode_readBits {n : Nat} (h : n < 16) : (nField (encode (.readBits n))).toNat = n := by
  rw [nField_toNat, encode_readBits_toNat h]
  omega

/-! ## The decoder -/

/-- R82: an OP stands for a plain command exactly if it is the OP of that command's word. -/
theorem plainOp_eq_some {op : BitVec 4} {i : Instr} :
    plainOp op = some i ↔ (∀ n, i ≠ .readBits n) ∧ opField (encode i) = op := by
  constructor
  · unfold plainOp
    split <;> rintro ⟨⟩ <;> exact ⟨nofun, BitVec.eq_of_toNat_eq (Eq.symm ‹op.toNat = _›)⟩
  · rintro ⟨hi, rfl⟩
    cases i with
    | readBits n => exact absurd rfl (hi n)
    | _ => rfl

/-- A command without an operand is well formed. -/
theorem wf_of_plain {i : Instr} (h : ∀ n, i ≠ .readBits n) : i.wf = true := by
  cases i with
  | readBits n => exact absurd rfl (h n)
  | _ => rfl

/-- R82, R83: the OPs that stand for no plain command: the reserved ones and READ_BITS. -/
theorem plainOp_eq_none {op : BitVec 4} : plainOp op = none ↔ op.toNat = 0 ∨ op.toNat = 2 ∨ 10 ≤ op.toNat := by
  revert op
  decide

/-- The words the decoder takes: RSV 0, and READ_BITS with any N or a plain command with N 0. -/
theorem decode_eq_ok {w : Word} {i : Instr} : decode w = .ok i ↔ rsvField w = 0#8 ∧
    ((opField w = 2#4 ∧ i = .readBits (nField w).toNat) ∨ (plainOp (opField w) = some i ∧ nField w = 0#4)) := by
  unfold decode
  by_cases hrsv : rsvField w = 0#8
  case neg => simp [hrsv]
  by_cases hop : opField w = 2#4
  case pos => simp [hrsv, hop, plainOp, eq_comm]
  cases hplain : plainOp (opField w) with
  | none => simp [hrsv, hop]
  | some j => by_cases hn : nField w = 0#4 <;> simp [hrsv, hop, hn]

/-- The decoder is total (R83): a word is refused exactly if it is no command's. -/
theorem decode_illegal_iff_not_ok {w : Word} : (∃ e, decode w = .error e) ↔ ¬ ∃ i, decode w = .ok i := by
  cases decode w <;> simp

/-- R83 in terms of the word's fields. -/
theorem decode_illegal_iff {w : Word} : (∃ e, decode w = .error e) ↔
    ¬ (rsvField w = 0#8 ∧ (opField w = 2#4 ∨ (plainOp (opField w) ≠ none ∧ nField w = 0#4))) := by
  simp only [decode_illegal_iff_not_ok, decode_eq_ok, exists_and_left, exists_or, exists_eq, and_true,
    exists_and_right, Option.ne_none_iff_exists']

/-- A command the decoder answers is well formed, and its word is the one decoded. -/
theorem encode_of_decode {w : Word} {i : Instr} (h : decode w = .ok i) : i.wf = true ∧ encode i = w := by
  obtain ⟨hrsv, ⟨hop, rfl⟩ | ⟨hplain, hn⟩⟩ := decode_eq_ok.mp h
  · have hlt : (nField w).toNat < 16 := (nField w).isLt
    have hwf := readBits_wf.mpr hlt
    obtain ⟨hrsv', -, -⟩ := encode_fields _ hwf
    exact ⟨hwf, word_eq_of_fields ((opField_encode_readBits hlt).trans hop.symm) (hrsv'.trans hrsv.symm)
      (BitVec.eq_of_toNat_eq (nField_encode_readBits hlt))⟩
  · obtain ⟨hi, hop⟩ := plainOp_eq_some.mp hplain
    have hwf := wf_of_plain hi
    obtain ⟨hrsv', -, hn'⟩ := encode_fields i hwf
    have hne : opField w ≠ 2#4 := fun e => by simp [e, plainOp] at hplain
    exact ⟨hwf, word_eq_of_fields hop (hrsv'.trans hrsv.symm) ((hn' (hop ▸ hne)).trans hn.symm)⟩

/-- The word of a well-formed command decodes to it. -/
theorem decode_encode {i : Instr} (h : i.wf = true) : decode (encode i) = .ok i := by
  obtain ⟨hrsv, -, hn⟩ := encode_fields i h
  refine decode_eq_ok.mpr ⟨hrsv, ?_⟩
  cases i with
  | readBits n =>
    have hlt := readBits_wf.mp h
    exact .inl ⟨opField_encode_readBits hlt, by rw [nField_encode_readBits hlt]⟩
  | _ => exact .inr ⟨plainOp_eq_some.mpr ⟨nofun, rfl⟩, hn (by decide)⟩

/-- Settles O1: `encode_of_decode` one way, `decode_encode` the other. -/
theorem decodeInvertsEncode : Obligations.DecodeInvertsEncode := by
  intro w i
  refine ⟨encode_of_decode, ?_⟩
  rintro ⟨hwf, rfl⟩
  exact decode_encode hwf

/-- Settles O2: each word is the word of its command, and so decodes to it. -/
theorem opcodeMapWords : Obligations.OpcodeMapWords :=
  ⟨decode_encode (i := .setptr) rfl, decode_encode (i := .readBits 1) rfl, decode_encode (i := .readBits 8) rfl,
    decode_encode (i := .clrbuf) rfl, decode_encode (i := .load) rfl, decode_encode (i := .next) rfl,
    decode_encode (i := .arm) rfl, decode_encode (i := .emit) rfl, decode_encode (i := .disarm) rfl,
    decode_encode (i := .play) rfl⟩

/-! ## Words that fault -/

/-- R83 in terms of the word's number. -/
theorem decode_illegal_iff_toNat {w : Word} : (∃ e, decode w = .error e) ↔
    (w.toNat / 4096 = 0 ∨ 10 ≤ w.toNat / 4096 ∨ w.toNat / 16 % 256 ≠ 0 ∨
      (w.toNat % 16 ≠ 0 ∧ w.toNat / 4096 ≠ 2)) := by
  simp only [decode_illegal_iff, plainOp_eq_none, ne_eq, ← BitVec.toNat_inj, opField_toNat, rsvField_toNat,
    nField_toNat, BitVec.toNat_ofNat]
  omega

/-- A word with OP 2 and RSV 0 is READ_BITS with its field N. -/
theorem eq_encode_readBits {w : Word} (h : w.toNat / 16 = 0x200) : encode (.readBits (w.toNat % 16)) = w := by
  apply BitVec.eq_of_toNat_eq
  rw [encode_readBits_toNat (Nat.mod_lt _ (by decide))]
  omega

/-- Taking a fault writes the fault state and logs one event (R240). -/
theorem faultedAs_raise (x : Trap) (s : State) : s.faultedAs (raise x s) x :=
  ⟨rfl, rfl, rfl, rfl, rfl, rfl, rfl, sameRom_of_eq rfl rfl⟩

/-- A command whose micro-step faults takes that fault, where the block is ready. -/
theorem issue_of_error {op : State → Except Trap State} {s : State} {x : Trap} (hr : s.ready = true)
    (h : op s = .error x) : issue op s = .next (raise x s) := by
  rw [issue_of_ready hr, h, commit_error]

/-- R237: an illegal word written to a ready block. -/
theorem hostWrite_illegal {w : Word} {s : State} (hr : s.ready = true) (h : ∃ e, decode w = .error e) :
    hostWrite .cmd w s = .next (raise ⟨.illegalCmd, w⟩ s) := by
  obtain ⟨e, he⟩ := h
  rw [hostWrite_cmd_of_illegal he]
  exact issue_of_error hr rfl

/-- R238: READ_BITS with a count that is not 1 to 8, written to a ready block. -/
theorem hostWrite_badCount {n : Nat} {s : State} (hr : s.ready = true) (hn : n < 16) (hbad : countOk n = false) :
    hostWrite .cmd (encode (.readBits n)) s = .next (raise ⟨.badCount, encode (.readBits n)⟩ s) := by
  rw [hostWrite_cmd_of_decode (decode_encode (readBits_wf.mpr hn)), exec_eq_issue]
  exact issue_of_error hr (by simp [opOf, readBitsOp, hbad])

/-- Settles O3: R83 by the word's number, then the fault of each kind of word. -/
theorem illegalWordsFault : Obligations.IllegalWordsFault := by
  intro w
  refine ⟨decode_illegal_iff_toNat, fun s hr => ⟨fun hill => ?illegal, fun ⟨hop, hn⟩ => ?badCount⟩⟩
  case illegal => exact ⟨_, hostWrite_illegal hr hill, faultedAs_raise _ s⟩
  case badCount =>
    have hbad : countOk (w.toNat % 16) = false := by
      simp only [countOk, decide_eq_false_iff_not]
      omega
    have hwrite := hostWrite_badCount hr (Nat.mod_lt _ (by decide)) hbad
    rw [eq_encode_readBits hop] at hwrite
    exact ⟨_, hwrite, faultedAs_raise _ s⟩

end Sys2Proof.Machine
end

section
/-!
The packed index stream (O20).
-/

namespace Sys2Proof.Machine

/-- R12, R87: a value of the stream is the sum of its bits at their weights, the first bit the heaviest. -/
theorem streamValue_eq_sum (m : List Host.Cell) (base : Word) (k n : Nat) :
    streamValue m base k n = ((List.range n).map fun j => (streamBit m base (k + j)).toNat * 2 ^ (n - 1 - j)).sum := by
  induction n with
  | zero => rfl
  | succ n ih =>
    have doubled : (List.range n).map (fun j => (streamBit m base (k + j)).toNat * 2 ^ (n - j)) =
        (List.range n).map fun j => 2 * ((streamBit m base (k + j)).toNat * 2 ^ (n - 1 - j)) := by
      refine List.map_congr_left fun j hj => ?_
      have hexp : n - j = n - 1 - j + 1 := by
        have := List.mem_range.mp hj
        omega
      rw [hexp, pow_succ]
      ring
    simp only [streamValue, ih, List.range_succ, List.map_append, List.sum_append, Nat.add_sub_cancel, doubled,
      List.sum_map_mul_left, List.map_singleton, List.sum_singleton, Nat.sub_self, pow_zero, mul_one]

/-- Settles O20: an index is the value of the stream at its first bit. -/
theorem indexIsSumOfStreamBits : Obligations.IndexIsSumOfStreamBits :=
  fun m a w i => streamValue_eq_sum m (a + 5#16) (i * w) w

end Sys2Proof.Machine
end

section
/-!
The host's WAIT (O50).
-/

namespace Sys2Proof.Machine

/-- What a register reads does not depend on the other agents (R201). -/
@[simp] theorem readReg_setEnv (s : State) (v : Env) (r : Reg) : readReg (s.setEnv v) r = readReg s r := by
  cases r <;> rfl

/-- Nor does BUSY depend on them. -/
@[simp] theorem busy_setEnv (s : State) (v : Env) : (s.setEnv v).busy = s.busy := rfl

/-- A scheduled host turn with a line of program left runs that line. -/
theorem step_of_host_line {s : State} {ts : List Turn} {line : HostLine} {rest : List HostLine}
    (hs : s.env.schedule = .host :: ts) (hp : s.env.prog = line :: rest) :
    step s = runLine line rest (s.setEnv { s.env with schedule := ts }) := by
  simp [step_of_scheduled hs, turn, hostTurn, hp]

/-- R93: a scheduled WAIT reads STATUS, and its line stays while the block is busy. -/
theorem step_of_wait {s : State} {ts : List Turn} {p : List HostLine} (hs : s.env.schedule = .host :: ts)
    (hp : s.env.prog = .wait :: p) : step s = .next (hostRead .status
      (s.setEnv { s.env with schedule := ts, prog := if s.busy then s.env.prog else p })) := by
  rw [step_of_host_line hs hp]
  cases hb : s.busy <;> simp only [runLine, busy_setEnv, hb] <;> rfl

/-- R23: the host sees BUSY in bit 0 of STATUS. -/
theorem status_bit0_iff_busy (s : State) : (readReg s .status).toNat % 2 = 1 ↔ s.busy = true := by
  obtain ⟨hbit, -⟩ := statusFields s
  rw [hbit, ← busy_toNat]
  exact Bool.toNat_eq_one

/-- Settles O50: the line reads STATUS, whose bit 0 is BUSY, and is used up exactly if the block is not busy. -/
theorem waitPollsBusy : Obligations.WaitPollsBusy := by
  intro s p ts hs hp
  refine ⟨_, step_of_wait hs hp, ⟨rfl, rfl, rfl, rfl, rfl⟩, rfl, ?reads, ?line⟩
  case reads => simp [hostRead]
  case line => simp [hostRead, status_bit0_iff_busy]

end Sys2Proof.Machine
end

section
/-!
The bit reader in closed form (R113): the stream's values and their wrap at 2^19 bits, the read loop over the unread
bits and over one fetch, and READ_BITS (O13).
-/

namespace Sys2Proof.Machine

/-! ## The stream -/

/-- Stream positions count modulo 2^19 bits, the bits of 2^16 bytes (R12). -/
theorem streamBit_congr (m : List Host.Cell) (base : Word) {j k : Nat} (h : j % 2 ^ 19 = k % 2 ^ 19) :
    streamBit m base j = streamBit m base k := by
  have hbyte : BitVec.ofNat 16 (j / 8) = BitVec.ofNat 16 (k / 8) := by
    apply BitVec.eq_of_toNat_eq
    simp only [BitVec.toNat_ofNat]
    omega
  have hbit : j % 8 = k % 8 := by omega
  rw [streamBit, streamBit, hbyte, hbit]

theorem streamValue_congr (m : List Host.Cell) (base : Word) {j k : Nat} (h : j % 2 ^ 19 = k % 2 ^ 19) (n : Nat) :
    streamValue m base j n = streamValue m base k n := by
  induction n with
  | zero => rfl
  | succ n ih => rw [streamValue, streamValue, ih, streamBit_congr m base (j := j + n) (k := k + n) (by omega)]

/-- A value of `i + j` bits is the first `i` bits followed by the next `j`. -/
theorem streamValue_add (m : List Host.Cell) (base : Word) (k i j : Nat) :
    streamValue m base k (i + j) = streamValue m base k i * 2 ^ j + streamValue m base (k + i) j := by
  induction j with
  | zero => simp [streamValue]
  | succ j ih =>
    rw [← Nat.add_assoc, streamValue, streamValue, ih, Nat.add_assoc k i j]
    ring

theorem streamValue_one (m : List Host.Cell) (base : Word) (k : Nat) :
    streamValue m base k 1 = (streamBit m base k).toNat := by simp [streamValue]

theorem streamValue_lt (m : List Host.Cell) (base : Word) (k n : Nat) : streamValue m base k n < 2 ^ n := by
  induction n with
  | zero => exact Nat.one_pos
  | succ n ih =>
    have hbit := Bool.toNat_le (streamBit m base (k + n))
    rw [streamValue, pow_succ]
    omega

/-! ## The accumulator -/

/-- The accumulator `v` with the `n`-bit value `x` shifted in behind it (R111). -/
def appendBits (v : Byte) (n x : Nat) : Byte := BitVec.ofNat 8 (v.toNat * 2 ^ n + x)

theorem appendBits_zero (v : Byte) : appendBits v 0 0 = v := by simp [appendBits]

/-- The loop's update of the accumulator shifts one bit in. -/
theorem appendBits_one (v : Byte) (b : Bool) :
    (v <<< 1) ||| (BitVec.ofBool b).setWidth 8 = appendBits v 1 b.toNat := by
  revert v
  cases b <;> decide

theorem appendBits_appendBits (v : Byte) (i j x y : Nat) :
    appendBits (appendBits v i x) j y = appendBits v (i + j) (x * 2 ^ j + y) := by
  apply BitVec.eq_of_toNat_eq
  simp only [appendBits, BitVec.toNat_ofNat]
  rw [← Nat.add_assoc, pow_add, ← Nat.mul_assoc, ← Nat.add_mul]
  exact Nat.ModEq.add_right y (Nat.ModEq.mul_right _ (Nat.mod_modEq _ _))

/-! ## The read loop -/

/-- The stream position of a cursor, also of the working copies of the read loop (R33): `State.streamPos` is that of the
state's cursor. -/
def Cursor.pos (c : Cursor) : Nat := (8 * c.ptr.toNat + (2 ^ 19 - c.nbits.toNat)) % 2 ^ 19

theorem nbits_ne_zero {k : BitVec 4} (h : 1 ≤ k.toNat) : k ≠ 0#4 := by
  rintro rfl
  exact absurd h (by decide)

/-- The unread bits, up to a whole byte right after a fetch, are the low bits of the byte before the pointer. -/
def Cursor.buffers (m : List Host.Cell) (c : Cursor) : Prop :=
  c.nbits.toNat ≤ 8 ∧ (c.nbits ≠ 0#4 → c.bbyte = romByte m (c.ptr - 1#16))

/-- The next unread bit is the stream's bit at the cursor's position. -/
theorem streamBit_pos {m : List Host.Cell} {c : Cursor} (hb : c.buffers m) (hne : c.nbits ≠ 0#4) :
    streamBit m 0#16 c.pos = c.bbyte.getLsbD (c.nbits - 1#4).toNat := by
  obtain ⟨hle, hbyte⟩ := hb
  have hpos : 1 ≤ c.nbits.toNat := by bv_omega
  have hptr := c.ptr.isLt
  have haddr : 0#16 + BitVec.ofNat 16 (c.pos / 8) = c.ptr - 1#16 := by
    apply BitVec.eq_of_toNat_eq
    simp only [Cursor.pos, BitVec.toNat_add, BitVec.toNat_sub, BitVec.toNat_ofNat]
    omega
  have hindex : 7 - c.pos % 8 = (c.nbits - 1#4).toNat := by
    rw [nbits_sub_one hne, Cursor.pos]
    omega
  rw [streamBit, haddr, hindex, hbyte hne]

/-- The cursor with its first `n` unread bits taken. -/
def Cursor.take (c : Cursor) (n : Nat) : Cursor := { c with nbits := c.nbits - BitVec.ofNat 4 n }

theorem Cursor.take_nbits {c : Cursor} {n : Nat} (h : n ≤ c.nbits.toNat) :
    (c.take n).nbits.toNat = c.nbits.toNat - n := by
  have := c.nbits.isLt
  simp only [Cursor.take, BitVec.toNat_sub, BitVec.toNat_ofNat]
  omega

theorem Cursor.take_take (c : Cursor) (i j : Nat) : (c.take i).take j = c.take (i + j) := by
  simp only [Cursor.take, BitVec.ofNat_add, BitVec.sub_sub]

theorem Cursor.take_pos {c : Cursor} {n : Nat} (h : n ≤ c.nbits.toNat) :
    (c.take n).pos = (c.pos + n) % 2 ^ 19 := by
  have := c.nbits.isLt
  rw [Cursor.pos, Cursor.take_nbits h, Cursor.pos]
  show (8 * c.ptr.toNat + _) % _ = _
  omega

theorem Cursor.take_buffers {m : List Host.Cell} {c : Cursor} {n : Nat} (hb : c.buffers m)
    (h : n ≤ c.nbits.toNat) : (c.take n).buffers m := by
  obtain ⟨hle, hbyte⟩ := hb
  have hn := Cursor.take_nbits h
  refine ⟨by omega, fun hne => hbyte fun h0 => hne ?_⟩
  rw [h0] at hn
  exact BitVec.eq_of_toNat_eq (by simpa using hn)

/-- Bits that are buffered are read without a fetch (R111, R113). -/
theorem readBitsLoop_buffered {s : State} {n : Nat} {c : Cursor} (v : Byte) (hb : c.buffers s.rom)
    (h : n ≤ c.nbits.toNat) :
    readBitsLoop s n c v = .ok (appendBits v n (streamValue s.rom 0#16 c.pos n), c.take n) := by
  induction n generalizing c v with
  | zero => simp [readBitsLoop, streamValue, appendBits_zero, Cursor.take]
  | succ n ih =>
    have h1 : 1 ≤ c.nbits.toNat := by omega
    have hne := nbits_ne_zero h1
    have hstep : readBitsLoop s (n + 1) c v =
        readBitsLoop s n (c.take 1) (appendBits v 1 (streamValue s.rom 0#16 c.pos 1)) := by
      rw [readBitsLoop, if_neg hne, streamValue_one, streamBit_pos hb hne, ← appendBits_one]
      rfl
    have hrest : n ≤ (c.take 1).nbits.toNat := by
      rw [Cursor.take_nbits h1]
      omega
    have hpos : streamValue s.rom 0#16 (c.take 1).pos n = streamValue s.rom 0#16 (c.pos + 1) n :=
      streamValue_congr _ _ (by rw [Cursor.take_pos h1, Nat.mod_mod]) n
    rw [hstep, ih _ (Cursor.take_buffers hb h1) hrest, appendBits_appendBits, hpos, ← streamValue_add,
      Cursor.take_take, Nat.add_comm 1 n]

/-- A read of `i + j` bits is a read of `i` and then of `j`. -/
theorem readBitsLoop_add (s : State) (i j : Nat) (c : Cursor) (v : Byte) :
    readBitsLoop s (i + j) c v = (readBitsLoop s i c v).bind fun vc => readBitsLoop s j vc.2 vc.1 := by
  induction i generalizing c v with
  | zero => rw [Nat.zero_add]; rfl
  | succ i ih =>
    rw [Nat.succ_add, readBitsLoop, readBitsLoop]
    cases (if c.nbits = 0#4 then fetchByte s c else .ok c) with
    | error x => rfl
    | ok d => exact ih _ _

/-- With no bit buffered, a read of at least one bit fetches first. -/
theorem readBitsLoop_empty {s : State} {n : Nat} {c : Cursor} (v : Byte) (hn : n ≠ 0) (h : c.nbits = 0#4) :
    readBitsLoop s n c v = (fetchByte s c).bind fun d => readBitsLoop s n d v := by
  obtain ⟨n, rfl⟩ := Nat.exists_eq_succ_of_ne_zero hn
  rw [readBitsLoop, if_pos h]
  cases hf : fetchByte s c with
  | error x => rfl
  | ok d =>
    obtain ⟨-, rfl⟩ := fetchByte_eq_ok.mp hf
    rfl

/-! ## The read function -/

/-- The cursor right after the fetch at `a`: a whole byte unread (R111). -/
def fetched (m : List Host.Cell) (a : Word) : Cursor := ⟨a + 1#16, romByte m a, 8#4⟩

theorem fetched_buffers (m : List Host.Cell) (a : Word) : (fetched m a).buffers m :=
  ⟨le_rfl, fun _ => by simp [fetched]⟩

/-- A fetch does not move the stream position. -/
theorem fetched_pos (m : List Host.Cell) (a : Word) : (fetched m a).pos = 8 * a.toNat := by
  have := a.isLt
  simp only [Cursor.pos, fetched, BitVec.toNat_add, BitVec.toNat_ofNat]
  omega

theorem buffers_of_cursorOk {s : State} (h : s.cursorOk) : s.cursor.buffers s.rom :=
  ⟨h.1.trans (by decide), h.2⟩

/-- Past the unread bits, the read goes on at the byte the pointer is at, if that is there. -/
theorem readBits_of_unread_lt {s : State} {n : Nat} (hs : s.cursorOk) (h : s.cursor.nbits.toNat < n) :
    readBits s n = (fetchByte s (s.cursor.take s.cursor.nbits.toNat)).bind fun d =>
      readBitsLoop s (n - s.cursor.nbits.toNat) d
        (appendBits 0#8 s.cursor.nbits.toNat (streamValue s.rom 0#16 s.streamPos s.cursor.nbits.toNat)) := by
  have hempty : (s.cursor.take s.cursor.nbits.toNat).nbits = 0#4 :=
    BitVec.eq_of_toNat_eq (by rw [Cursor.take_nbits le_rfl]; simp)
  have hsplit : n = s.cursor.nbits.toNat + (n - s.cursor.nbits.toNat) := by omega
  calc readBits s n
      = readBitsLoop s (s.cursor.nbits.toNat + (n - s.cursor.nbits.toNat)) s.cursor 0#8 := by rw [← hsplit]; rfl
    _ = readBitsLoop s (n - s.cursor.nbits.toNat) (s.cursor.take s.cursor.nbits.toNat)
          (appendBits 0#8 s.cursor.nbits.toNat (streamValue s.rom 0#16 s.streamPos s.cursor.nbits.toNat)) := by
      rw [readBitsLoop_add, readBitsLoop_buffered _ (buffers_of_cursorOk hs) le_rfl]
      rfl
    _ = _ := readBitsLoop_empty _ (by omega) hempty

theorem bitsAtCursor_eq_appendBits (s : State) (n : Nat) :
    bitsAtCursor s n = appendBits 0#8 n (streamValue s.rom 0#16 s.streamPos n) := by
  simp [bitsAtCursor, appendBits]

/-- R113: the closed form of a read, where the byte it may have to fetch is there. -/
theorem readBits_eq_ok_of_canRead {s : State} {n : Nat} (hs : s.cursorOk) (hn : n ≤ 8) (hc : s.canRead n) :
    readBits s n = .ok (bitsAtCursor s n, cursorAfter s n) := by
  rw [bitsAtCursor_eq_appendBits, cursorAfter]
  split
  case isTrue h => exact readBitsLoop_buffered _ (buffers_of_cursorOk hs) h
  case isFalse h =>
    have hlt : s.cursor.nbits.toNat < n := by omega
    have hfetch : fetchByte s (s.cursor.take s.cursor.nbits.toNat) = .ok (fetched s.rom s.cursor.ptr) :=
      fetchByte_eq_ok.mpr ⟨hc hlt, rfl⟩
    have hleft : n - s.cursor.nbits.toNat ≤ (fetched s.rom s.cursor.ptr).nbits.toNat := by
      show _ ≤ 8
      omega
    have hpos : streamValue s.rom 0#16 (fetched s.rom s.cursor.ptr).pos (n - s.cursor.nbits.toNat) =
        streamValue s.rom 0#16 (s.streamPos + s.cursor.nbits.toNat) (n - s.cursor.nbits.toNat) := by
      refine streamValue_congr _ _ ?_ _
      have := s.cursor.nbits.isLt
      rw [fetched_pos, State.streamPos]
      omega
    have hnbits : 8#4 - BitVec.ofNat 4 (n - s.cursor.nbits.toNat) =
        BitVec.ofNat 4 (8 - (n - s.cursor.nbits.toNat)) := by
      apply BitVec.eq_of_toNat_eq
      simp only [BitVec.toNat_sub, BitVec.toNat_ofNat]
      omega
    rw [readBits_of_unread_lt hs hlt, hfetch]
    show readBitsLoop s _ _ _ = _
    rw [readBitsLoop_buffered _ (fetched_buffers _ _) hleft, appendBits_appendBits, hpos, ← streamValue_add,
      Nat.add_sub_cancel' hlt.le, Cursor.take, ← hnbits]
    rfl

/-- R113: the one fault of a read, at the byte it has to fetch. -/
theorem readBits_eq_error_of_not_canRead {s : State} {n : Nat} (hs : s.cursorOk) (hc : ¬ s.canRead n) :
    readBits s n = .error ⟨.romRange, s.cursor.ptr⟩ := by
  obtain ⟨hlt, habs⟩ := Classical.not_imp.mp hc
  have hfetch : fetchByte s (s.cursor.take s.cursor.nbits.toNat) = .error ⟨.romRange, s.cursor.ptr⟩ :=
    fetchByte_eq_error.mpr ⟨habs, rfl⟩
  rw [readBits_of_unread_lt hs hlt, hfetch]
  rfl

/-- R33, R113: a read of `n` bits moves the stream position by `n`. -/
theorem cursorAfter_pos {s : State} {n : Nat} (hs : s.cursorOk) (hn : n ≤ 8) :
    (cursorAfter s n).pos = (s.streamPos + n) % 2 ^ 19 := by
  unfold cursorAfter
  split
  case isTrue h => exact Cursor.take_pos h
  case isFalse h =>
    have hle := hs.1
    have := s.cursor.ptr.isLt
    simp only [Cursor.pos, State.streamPos, BitVec.toNat_add, BitVec.toNat_ofNat]
    omega

theorem bitsAtCursor_toNat {s : State} {n : Nat} (hn : n ≤ 8) :
    (bitsAtCursor s n).toNat = streamValue s.rom 0#16 s.streamPos n := by
  have hlt := streamValue_lt s.rom 0#16 s.streamPos n
  have hpow : 2 ^ n ≤ 2 ^ 8 := Nat.pow_le_pow_right (by decide) hn
  rw [bitsAtCursor, BitVec.toNat_ofNat, Nat.mod_eq_of_lt (by omega)]

/-! ## READ_BITS -/

/-- The state after a READ_BITS of `n` bits that does not fault (R112, R113). -/
def afterRead (s : State) (n : Nat) : State :=
  (s.setRegs { s.regs with data := bitsAtCursor s n }).setCursor (cursorAfter s n)

theorem exec_readBits_of_canRead {s : State} {n : Nat} (hr : s.ready = true) (hs : s.cursorOk)
    (hn : 1 ≤ n ∧ n ≤ 8) (hc : s.canRead n) : exec (.readBits n) s = .next (afterRead s n) := by
  have hop : readBitsOp n s = .ok (afterRead s n) :=
    readBitsOp_eq_ok.mpr ⟨hn, _, _, readBits_eq_ok_of_canRead hs hn.2 hc, rfl⟩
  rw [exec_eq_issue, issue_of_ready hr, opOf, hop, commit_ok]

theorem exec_readBits_of_not_canRead {s : State} {n : Nat} (hr : s.ready = true) (hs : s.cursorOk)
    (hn : 1 ≤ n ∧ n ≤ 8) (hc : ¬ s.canRead n) :
    exec (.readBits n) s = .next (raise ⟨.romRange, s.cursor.ptr⟩ s) := by
  rw [exec_eq_issue]
  exact issue_of_error hr (readBitsOp_eq_error.mpr (.inr ⟨hn, readBits_eq_error_of_not_canRead hs hc⟩))

theorem exec_readBits_of_badCount {s : State} {n : Nat} (hr : s.ready = true) (hn : ¬ (1 ≤ n ∧ n ≤ 8)) :
    exec (.readBits n) s = .next (raise ⟨.badCount, encode (.readBits n)⟩ s) := by
  rw [exec_eq_issue]
  exact issue_of_error hr (readBitsOp_eq_error.mpr (.inl ⟨hn, rfl⟩))

/-- Settles O13: the read's closed form or its one fault, committed; the value and the position are the stream's. -/
theorem readBitsClosedForm : Obligations.ReadBitsClosedForm := by
  intro s n hr hs hn1 hn8
  refine ⟨fun hc => ⟨exec_readBits_of_canRead hr hs ⟨hn1, hn8⟩ hc, bitsAtCursor_toNat hn8, ?bound,
    cursorAfter_pos hs hn8⟩, fun hc => ⟨_, exec_readBits_of_not_canRead hr hs ⟨hn1, hn8⟩ hc, faultedAs_raise _ s⟩⟩
  case bound =>
    rw [bitsAtCursor_toNat hn8]
    exact streamValue_lt _ _ _ _

end Sys2Proof.Machine
end

section
/-!
Reads in a row (R114, O15).
-/

namespace Sys2Proof.Machine

/-- A cursor that has read: its byte is the one before its pointer, whether or not bits of it are unread. -/
def Cursor.hasRead (m : List Host.Cell) (c : Cursor) : Prop := c.nbits.toNat ≤ 7 ∧ c.bbyte = romByte m (c.ptr - 1#16)

/-- Where a cursor that has read stands in the stream says everything about it. -/
theorem Cursor.eq_of_pos {m : List Host.Cell} {c d : Cursor} (hc : c.hasRead m) (hd : d.hasRead m)
    (h : c.pos = d.pos) : c = d := by
  obtain ⟨hc7, hcb⟩ := hc
  obtain ⟨hd7, hdb⟩ := hd
  have := c.ptr.isLt
  have := d.ptr.isLt
  simp only [Cursor.pos] at h
  have hnbits : c.nbits = d.nbits := BitVec.eq_of_toNat_eq (by omega)
  have hptr : c.ptr = d.ptr := BitVec.eq_of_toNat_eq (by omega)
  have hbyte : c.bbyte = d.bbyte := by rw [hcb, hdb, hptr]
  cases c
  cases d
  simp_all

theorem cursorAfter_hasRead {s : State} {n : Nat} (hs : s.cursorOk) (hn : 1 ≤ n ∧ n ≤ 8) :
    (cursorAfter s n).hasRead s.rom := by
  obtain ⟨hle, hbyte⟩ := hs
  unfold cursorAfter
  split
  case isTrue h =>
    have hne := nbits_ne_zero (hn.1.trans h)
    have htake : (s.cursor.take n).nbits.toNat ≤ 7 := by
      rw [Cursor.take_nbits h]
      omega
    exact ⟨htake, hbyte hne⟩
  case isFalse h =>
    refine ⟨?_, by simp⟩
    simp only [BitVec.toNat_ofNat]
    omega

theorem afterRead_ready {s : State} (n : Nat) (h : s.ready = true) : (afterRead s n).ready = true := h

theorem afterRead_cursorOk {s : State} {n : Nat} (hs : s.cursorOk) (hn : 1 ≤ n ∧ n ≤ 8) :
    (afterRead s n).cursorOk := by
  obtain ⟨hle, hbyte⟩ := cursorAfter_hasRead hs hn
  exact ⟨hle, fun _ => hbyte⟩

theorem afterRead_streamPos {s : State} {n : Nat} (hs : s.cursorOk) (hn : n ≤ 8) :
    (afterRead s n).streamPos = (s.streamPos + n) % 2 ^ 19 := cursorAfter_pos hs hn

/-- `t` is reached from `s` by reads of `k` bits in all, none of which faulted. -/
structure ReadsTo (k : Nat) (s t : State) : Prop where
  /-- The byte that one read of all the bits would fetch is there. -/
  canRead : s.canRead k
  pos : t.streamPos = (s.streamPos + k) % 2 ^ 19
  cursor : (k = 0 ∧ t.cursor = s.cursor) ∨ t.cursor.hasRead s.rom

theorem ReadsTo.refl (s : State) : ReadsTo 0 s s where
  canRead h := absurd h (Nat.not_lt_zero _)
  pos := by simp [State.streamPos]
  cursor := .inl ⟨rfl, rfl⟩

/-- One more read in front. -/
theorem ReadsTo.cons {s t : State} {n k : Nat} (hs : s.cursorOk) (hn : 1 ≤ n ∧ n ≤ 8) (hc : s.canRead n)
    (h : ReadsTo k (afterRead s n) t) : ReadsTo (n + k) s t where
  canRead hlt := by
    by_cases hfetch : s.cursor.nbits.toNat < n
    · exact hc hfetch
    · have hle : n ≤ s.cursor.nbits.toNat := by omega
      have hcur : (afterRead s n).cursor = s.cursor.take n := if_pos hle
      have hpres := h.canRead
      rw [State.canRead, hcur, Cursor.take_nbits hle] at hpres
      exact hpres (by omega)
  pos := by
    rw [h.pos, afterRead_streamPos hs hn.2]
    omega
  cursor := by
    rcases h.cursor with ⟨-, hcur⟩ | hread
    · exact .inr (hcur ▸ cursorAfter_hasRead hs hn)
    · exact .inr hread

/-- A run of reads that does not fault is its first read, and the rest from the state after that. -/
theorem readAll_cons_eq_some {s : State} {n acc : Nat} {ns : List Nat} {r : Nat × State} (hr : s.ready = true)
    (hs : s.cursorOk) (hn : 1 ≤ n ∧ n ≤ 8) (h : readAll (n :: ns) acc s = some r) :
    s.canRead n ∧ readAll ns (acc * 2 ^ n + streamValue s.rom 0#16 s.streamPos n) (afterRead s n) = some r := by
  obtain ⟨-, hf, -⟩ := ready_iff.mp hr
  have hflt : (afterRead s n).flt.fault = false := hf
  have hdata : (afterRead s n).regs.data.toNat = streamValue s.rom 0#16 s.streamPos n := bitsAtCursor_toNat hn.2
  by_cases hc : s.canRead n
  · simp only [readAll, exec_readBits_of_canRead hr hs hn hc, hflt, hdata] at h
    exact ⟨hc, h⟩
  · simp [readAll, exec_readBits_of_not_canRead hr hs hn hc] at h

/-- R114: the results of a run of reads, concatenated, are the stream's bits. -/
theorem readAll_eq_some {ns : List Nat} {s t : State} {acc v : Nat} (hr : s.ready = true) (hs : s.cursorOk)
    (hns : ∀ n ∈ ns, 1 ≤ n ∧ n ≤ 8) (h : readAll ns acc s = some (v, t)) :
    v = acc * 2 ^ ns.sum + streamValue s.rom 0#16 s.streamPos ns.sum ∧ ReadsTo ns.sum s t := by
  induction ns generalizing s acc with
  | nil =>
    obtain ⟨rfl, rfl⟩ := Prod.mk.inj (Option.some.inj h)
    exact ⟨by simp [streamValue], .refl s⟩
  | cons n ns ih =>
    obtain ⟨hn, hrest⟩ := List.forall_mem_cons.mp hns
    obtain ⟨hc, htail⟩ := readAll_cons_eq_some hr hs hn h
    obtain ⟨hv, hto⟩ := ih (afterRead_ready n hr) (afterRead_cursorOk hs hn) hrest htail
    have hpos : streamValue s.rom 0#16 (afterRead s n).streamPos ns.sum =
        streamValue s.rom 0#16 (s.streamPos + n) ns.sum :=
      streamValue_congr _ _ (by rw [afterRead_streamPos hs hn.2, Nat.mod_mod]) _
    rw [List.sum_cons]
    refine ⟨?_, hto.cons hs hn hc⟩
    calc v = (acc * 2 ^ n + streamValue s.rom 0#16 s.streamPos n) * 2 ^ ns.sum +
            streamValue s.rom 0#16 (s.streamPos + n) ns.sum := hpos ▸ hv
      _ = acc * 2 ^ (n + ns.sum) + (streamValue s.rom 0#16 s.streamPos n * 2 ^ ns.sum +
            streamValue s.rom 0#16 (s.streamPos + n) ns.sum) := by ring
      _ = _ := by rw [← streamValue_add]

/-- One read of all the bits of a run ends with the run's cursor (R114). -/
theorem ReadsTo.cursor_eq {s t : State} {k : Nat} (hs : s.cursorOk) (hk : 1 ≤ k ∧ k ≤ 8) (h : ReadsTo k s t) :
    cursorAfter s k = t.cursor := by
  rcases h.cursor with ⟨h0, -⟩ | hread
  · omega
  · exact Cursor.eq_of_pos (cursorAfter_hasRead hs hk) hread ((cursorAfter_pos hs hk.2).trans h.pos.symm)

/-- Settles O15: `readAll_eq_some`, and one read of the total from the same state. -/
theorem readsConcatenate : Obligations.ReadsConcatenate := by
  intro s t ns v hr hs hns h
  obtain ⟨hv, hto⟩ := readAll_eq_some hr hs hns h
  rw [Nat.zero_mul, Nat.zero_add] at hv
  refine ⟨hv, hto.pos, fun hne hsum => ?_⟩
  have hpos : 1 ≤ ns.sum := by
    obtain ⟨n, hmem⟩ := List.exists_mem_of_ne_nil ns hne
    exact (hns n hmem).1.trans (List.le_sum_of_mem hmem)
  obtain ⟨-, hf, -⟩ := ready_iff.mp hr
  exact ⟨afterRead s ns.sum, exec_readBits_of_canRead hr hs ⟨hpos, hsum⟩ hto.canRead, hf,
    (bitsAtCursor_toNat hsum).trans hv.symm, hto.cursor_eq hs ⟨hpos, hsum⟩⟩

end Sys2Proof.Machine
end

section
/-!
SETPTR and CLRBUF, and the read after one of them or after LOAD (R110, R116, R117: O12, O16, O17).
-/

namespace Sys2Proof.Machine

theorem exec_setptr_of_ready {s : State} (hr : s.ready = true) :
    exec .setptr s = .next (s.setCursor ⟨s.regs.addr, s.cursor.bbyte, 0#4⟩) := by
  rw [exec_eq_issue, issue_of_ready hr]
  rfl

theorem exec_clrbuf_of_ready {s : State} (hr : s.ready = true) :
    exec .clrbuf s = .next (s.setCursor ⟨s.cursor.ptr, s.cursor.bbyte, 0#4⟩) := by
  rw [exec_eq_issue, issue_of_ready hr]
  rfl

/-- LOAD faults, or leaves the buffer empty (R130). -/
theorem exec_load_fault_or_empty {s : State} (hr : s.ready = true) :
    ∃ t, exec .load s = .next t ∧ (t.flt.fault = true ∨ t.cursor.nbits = 0#4) := by
  rw [exec_eq_issue, issue_of_ready hr]
  cases h : opOf .load s with
  | error x => exact ⟨_, rfl, .inl rfl⟩
  | ok t =>
    obtain ⟨_, -, -, rfl⟩ := loadOp_eq_ok.mp h
    exact ⟨_, rfl, .inr rfl⟩

/-- Settles O12: SETPTR's word decodes to it, and it always answers. -/
theorem setptrResult : Obligations.SetptrResult :=
  ⟨decode_encode (i := .setptr) rfl, fun _ hr => exec_setptr_of_ready hr⟩

/-- Settles O17: CLRBUF's word decodes to it, and it always answers. -/
theorem clrbufResult : Obligations.ClrbufResult :=
  ⟨decode_encode (i := .clrbuf) rfl, fun _ hr => exec_clrbuf_of_ready hr⟩

/-- With the buffer empty, a read of at least one bit leaves nothing of the stale byte. -/
theorem cursorAfter_of_empty {s : State} {n : Nat} (h : s.cursor.nbits = 0#4) (hn : 1 ≤ n) :
    cursorAfter s n = ⟨s.cursor.ptr + 1#16, romByte s.rom s.cursor.ptr, BitVec.ofNat 4 (8 - n)⟩ := by
  have hlt : ¬ n ≤ 0 := by omega
  simp [cursorAfter, h, hlt]

/-- Settles O16: the three commands one by one; then a bad count faults in both states, and a legal one has the closed
form in both, whose terms are those of an empty buffer. -/
theorem freshReadDependsOnPointerOnly : Obligations.FreshReadDependsOnPointerOnly := by
  refine ⟨fun s i hr hi => ?empties, fun s₁ s₂ n hr₁ hr₂ hrom hparams he₁ he₂ hptr => ?reads⟩
  case empties =>
    rcases hi with rfl | rfl | rfl
    · exact ⟨_, exec_setptr_of_ready hr, fun _ => rfl⟩
    · exact ⟨_, exec_clrbuf_of_ready hr, fun _ => rfl⟩
    · obtain ⟨t, ht, hcases⟩ := exec_load_fault_or_empty hr
      exact ⟨t, ht, fun hf => hcases.resolve_left (by simp [hf])⟩
  case reads =>
    have hs₁ := cursorOk_of_empty he₁
    have hs₂ := cursorOk_of_empty he₂
    have hcan : s₂.canRead n ↔ s₁.canRead n := by
      simp only [State.canRead, State.present, he₁, he₂, hptr, hparams]
    have hpos : s₂.streamPos = s₁.streamPos := by simp only [State.streamPos, he₁, he₂, hptr]
    by_cases hn : 1 ≤ n ∧ n ≤ 8
    · by_cases hc : s₁.canRead n
      · obtain ⟨-, hf₁, -⟩ := ready_iff.mp hr₁
        obtain ⟨-, hf₂, -⟩ := ready_iff.mp hr₂
        refine ⟨_, _, exec_readBits_of_canRead hr₁ hs₁ hn hc, exec_readBits_of_canRead hr₂ hs₂ hn (hcan.mpr hc),
          hf₂.trans hf₁.symm, fun _ => ⟨?data, ?cursor⟩⟩
        case data =>
          show bitsAtCursor s₂ n = bitsAtCursor s₁ n
          rw [bitsAtCursor, bitsAtCursor, hrom, hpos]
        case cursor =>
          show cursorAfter s₂ n = cursorAfter s₁ n
          rw [cursorAfter_of_empty he₂ hn.1, cursorAfter_of_empty he₁ hn.1, hrom, hptr]
      · exact ⟨_, _, exec_readBits_of_not_canRead hr₁ hs₁ hn hc,
          exec_readBits_of_not_canRead hr₂ hs₂ hn (mt hcan.mp hc), rfl, nofun⟩
    · exact ⟨_, _, exec_readBits_of_badCount hr₁ hn, exec_readBits_of_badCount hr₂ hn, rfl, nofun⟩

end Sys2Proof.Machine
end

section
/-!
LOAD and NEXT: what each writes, and its faults in the order of the rule (R130, R135: O18, O19).
-/

namespace Sys2Proof.Machine

/-! ## Reads at addresses that may be absent -/

/-- Offsets from an address add up. -/
theorem add_offset (a : Word) (m n : Nat) :
    a + BitVec.ofNat 16 m + BitVec.ofNat 16 n = a + BitVec.ofNat 16 (m + n) := by
  rw [BitVec.add_assoc, ← BitVec.ofNat_add]

/-- A byte that is there is passed on to what follows its read. -/
theorem memRead_bind_of_present {α : Type} {s : State} {a : Word} (h : s.present a) {f : Byte → Except Trap α} :
    (memRead s a).bind f = f (romByte s.rom a) := by
  rw [memRead_eq_ok.mpr ⟨h, rfl⟩]
  rfl

/-- A byte that is not there is the fault, whatever follows its read (R67). -/
theorem memRead_bind_of_absent {α : Type} {s : State} {a : Word} (h : ¬ s.present a) {f : Byte → Except Trap α} :
    (memRead s a).bind f = .error ⟨.romRange, a⟩ := by
  rw [memRead_eq_error.mpr ⟨h, rfl⟩]
  rfl

/-- Of the addresses from `a` up, the first that is not there is the `k`-th. -/
structure State.firstAbsent (s : State) (a : Word) (k : Nat) : Prop where
  before : ∀ j < k, s.present (a + BitVec.ofNat 16 j)
  absent : ¬ s.present (a + BitVec.ofNat 16 k)

/-- R130: a header read faults at the first of its five bytes that is not there. -/
theorem readHeader_of_firstAbsent {s : State} {a : Word} {k : Nat} (hk : k < 5) (h : s.firstAbsent a k) :
    readHeader s a = .error ⟨.romRange, a + BitVec.ofNat 16 k⟩ := by
  obtain ⟨hp, ha⟩ := h
  have hp0 : 0 < k → s.present a := fun h => BitVec.add_zero a ▸ hp 0 h
  unfold readHeader
  match k, hk with
  | 0, _ =>
    rw [BitVec.add_zero] at ha ⊢
    exact memRead_bind_of_absent ha
  | 1, _ => rw [memRead_bind_of_present (hp0 (by decide)), memRead_bind_of_absent ha]
  | 2, _ =>
    rw [memRead_bind_of_present (hp0 (by decide)), memRead_bind_of_present (hp 1 (by decide)),
      memRead_bind_of_absent ha]
  | 3, _ =>
    rw [memRead_bind_of_present (hp0 (by decide)), memRead_bind_of_present (hp 1 (by decide)),
      memRead_bind_of_present (hp 2 (by decide)), memRead_bind_of_absent ha]
  | 4, _ =>
    rw [memRead_bind_of_present (hp0 (by decide)), memRead_bind_of_present (hp 1 (by decide)),
      memRead_bind_of_present (hp 2 (by decide)), memRead_bind_of_present (hp 3 (by decide)),
      memRead_bind_of_absent ha]

/-- R85: a header whose five bytes are there is the record's. -/
theorem readHeader_of_present {s : State} {a : Word} (h : ∀ k < 5, s.present (a + BitVec.ofNat 16 k)) :
    readHeader s a = .ok (recordAt s.rom a) :=
  readHeader_eq_ok.mpr ⟨⟨BitVec.add_zero a ▸ h 0 (by decide), h 1 (by decide), h 2 (by decide), h 3 (by decide),
    h 4 (by decide)⟩, rfl⟩

/-- R135: the two reads of a table entry fault at the first of its four bytes that is not there. -/
theorem tableReads_of_firstAbsent {α : Type} {s : State} {a : Word} {k : Nat} (hk : k < 4) (h : s.firstAbsent a k)
    {f : Word → Word → Except Trap α} :
    ((memRead2 s a).bind fun on => (memRead2 s (a + 2#16)).bind (f on)) =
      .error ⟨.romRange, a + BitVec.ofNat 16 k⟩ := by
  obtain ⟨hp, ha⟩ := h
  have hp0 : 0 < k → s.present a := fun h => BitVec.add_zero a ▸ hp 0 h
  have lowRead : 1 < k → memRead2 s a = .ok (romWord s.rom a) := fun h =>
    memRead2_eq_ok.mpr ⟨hp0 (by omega), hp 1 h, rfl⟩
  have lowFault : ∀ x, memRead2 s a = .error x →
      ((memRead2 s a).bind fun on => (memRead2 s (a + 2#16)).bind (f on)) = .error x := fun x h => by rw [h]; rfl
  have highFault : ∀ x, 1 < k → memRead2 s (a + 2#16) = .error x →
      ((memRead2 s a).bind fun on => (memRead2 s (a + 2#16)).bind (f on)) = .error x := fun x hk h => by
    rw [lowRead hk, h]
    rfl
  match k, hk with
  | 0, _ =>
    rw [BitVec.add_zero] at ha ⊢
    exact lowFault _ (memRead2_eq_error.mpr (.inl ⟨ha, rfl⟩))
  | 1, _ => exact lowFault _ (memRead2_eq_error.mpr (.inr ⟨hp0 (by decide), ha, rfl⟩))
  | 2, _ => exact highFault _ (by decide) (memRead2_eq_error.mpr (.inl ⟨ha, rfl⟩))
  | 3, _ =>
    rw [← add_offset a 2 1] at ha ⊢
    exact highFault _ (by decide) (memRead2_eq_error.mpr (.inr ⟨hp 2 (by decide), ha, rfl⟩))

/-- A table entry whose four bytes are there is read whole (R88). -/
theorem tableReads_of_present {s : State} {a : Word} (h : ∀ k < 4, s.present (a + BitVec.ofNat 16 k)) :
    memRead2 s a = .ok (romWord s.rom a) ∧ memRead2 s (a + 2#16) = .ok (romWord s.rom (a + 2#16)) :=
  ⟨memRead2_eq_ok.mpr ⟨BitVec.add_zero a ▸ h 0 (by decide), h 1 (by decide), rfl⟩,
    memRead2_eq_ok.mpr ⟨h 2 (by decide), add_offset a 2 1 ▸ h 3 (by decide), rfl⟩⟩

/-! ## LOAD -/

/-- A command whose micro-step answers does its writes, where the block is ready. -/
theorem exec_of_ok {i : Instr} {s t : State} (hr : s.ready = true) (h : opOf i s = .ok t) : exec i s = .next t := by
  rw [exec_eq_issue, issue_of_ready hr, h, commit_ok]

/-- A command whose micro-step faults takes the fault, where the block is ready. -/
theorem exec_of_error {i : Instr} {s : State} {x : Trap} (hr : s.ready = true) (h : opOf i s = .error x) :
    ∃ t, exec i s = .next t ∧ s.faultedAs t x :=
  ⟨_, by rw [exec_eq_issue, issue_of_error hr h], faultedAs_raise x s⟩

/-- The state after a LOAD that does not fault (R130). -/
def afterLoad (s : State) : State :=
  (s.setRegs { s.regs with
      carrier := (recordAt s.rom s.regs.addr).carrierPeriod
      pairs := (recordAt s.rom s.regs.addr).pairCount
      width := (recordAt s.rom s.regs.addr).indexWidth
      ttbase := (recordAt s.rom s.regs.addr).tableRef }).setCursor
    { s.cursor with ptr := s.regs.addr + 5#16, nbits := 0#4 }

theorem loadOp_of_present {s : State} (h : ∀ k < 5, s.present (s.regs.addr + BitVec.ofNat 16 k))
    (hw : 1 ≤ (recordAt s.rom s.regs.addr).indexWidth.toNat ∧ (recordAt s.rom s.regs.addr).indexWidth.toNat ≤ 8) :
    loadOp s = .ok (afterLoad s) :=
  loadOp_eq_ok.mpr ⟨_, readHeader_of_present h, hw, rfl⟩

theorem loadOp_of_firstAbsent {s : State} {k : Nat} (hk : k < 5) (h : s.firstAbsent s.regs.addr k) :
    loadOp s = .error ⟨.romRange, s.regs.addr + BitVec.ofNat 16 k⟩ := by
  rw [loadOp, readHeader_of_firstAbsent hk h]
  rfl

theorem loadOp_of_badWidth {s : State} (h : ∀ k < 5, s.present (s.regs.addr + BitVec.ofNat 16 k))
    (hw : ¬ (1 ≤ (recordAt s.rom s.regs.addr).indexWidth.toNat ∧
      (recordAt s.rom s.regs.addr).indexWidth.toNat ≤ 8)) :
    loadOp s = .error ⟨.badWidth, (recordAt s.rom s.regs.addr).indexWidth.setWidth 16⟩ := by
  rw [loadOp, readHeader_of_present h]
  exact if_neg (mt countOk_iff.mp hw)

/-- The table reference of a record, by its two bytes (R85). -/
theorem recordAt_tableRef (m : List Host.Cell) (a : Word) :
    (recordAt m a).tableRef = romByte m (a + 4#16) ++ romByte m (a + 3#16) := by
  rw [recordAt, romWord, add_offset a 3 1]

/-- Settles O18: the header is read or its first absent byte is the fault; then the width decides. -/
theorem loadBehaviour : Obligations.LoadBehaviour := by
  refine ⟨decode_encode (i := .load) rfl, fun s hr => ⟨fun k hk hp ha => ?absent, fun h => ?present⟩⟩
  case absent => exact exec_of_error hr (loadOp_of_firstAbsent hk ⟨hp, ha⟩)
  case present =>
    split
    case isTrue hw =>
      rw [← recordAt_tableRef]
      exact exec_of_ok hr (loadOp_of_present h hw)
    case isFalse hw =>
      rw [BitVec.ofNat_toNat]
      exact exec_of_error hr (loadOp_of_badWidth h hw)

/-! ## NEXT -/

/-- The table address of an index, by its number (R90). -/
theorem tableAddr_eq (ttbase : Word) (idx : Byte) :
    tableAddr ttbase idx = BitVec.ofNat 16 (ttbase.toNat + 4 * idx.toNat) := by
  apply BitVec.eq_of_toNat_eq
  simp [tableAddr, BitVec.toNat_add, BitVec.toNat_mul]

theorem nextOp_of_badWidth {s : State} (hw : ¬ (1 ≤ s.regs.width.toNat ∧ s.regs.width.toNat ≤ 8)) :
    nextOp s = .error ⟨.badWidth, s.regs.width.setWidth 16⟩ :=
  if_pos (by simpa [← countOk_iff] using hw)

/-- With a usable width, no pair left is NEXT's fault (R135). -/
theorem nextOp_of_noPairs {s : State} (hw : 1 ≤ s.regs.width.toNat ∧ s.regs.width.toNat ≤ 8)
    (hp : s.regs.pairs = 0#8) : nextOp s = .error ⟨.noPairs, 0#16⟩ := by
  simp [nextOp, countOk_iff.mpr hw, hp]

/-- NEXT may read its index: the width is usable and a pair is left (R135). -/
structure State.mayDecode (s : State) : Prop where
  cursor : s.cursorOk
  width : 1 ≤ s.regs.width.toNat ∧ s.regs.width.toNat ≤ 8
  pairs : s.regs.pairs ≠ 0#8

/-- The index NEXT reads (R113, R135). -/
def nextIndex (s : State) : Byte := bitsAtCursor s s.regs.width.toNat

/-- The state after a NEXT that does not fault (R135). -/
def afterNext (s : State) : State :=
  (s.setRegs { s.regs with
      on := romWord s.rom (tableAddr s.regs.ttbase (nextIndex s))
      off := romWord s.rom (tableAddr s.regs.ttbase (nextIndex s) + 2#16)
      index := nextIndex s
      pairs := s.regs.pairs - 1#8 }).setCursor (cursorAfter s s.regs.width.toNat)

theorem nextOp_of_not_canRead {s : State} (h : s.mayDecode) (hc : ¬ s.canRead s.regs.width.toNat) :
    nextOp s = .error ⟨.romRange, s.cursor.ptr⟩ := by
  simp [nextOp, countOk_iff.mpr h.width, h.pairs, readBits_eq_error_of_not_canRead h.cursor hc, Except.bind]

theorem nextOp_of_indexOutside {s : State} (h : s.mayDecode) (hc : s.canRead s.regs.width.toNat)
    (hi : indexOutside s.regs.ttlim (nextIndex s) = true) :
    nextOp s = .error ⟨.indexRange, (nextIndex s).setWidth 16⟩ := by
  rw [nextIndex] at hi
  simp [nextOp, countOk_iff.mpr h.width, h.pairs, readBits_eq_ok_of_canRead h.cursor h.width.2 hc, Except.bind, hi,
    nextIndex]

theorem nextOp_of_firstAbsent {s : State} {k : Nat} (h : s.mayDecode) (hc : s.canRead s.regs.width.toNat)
    (hi : indexOutside s.regs.ttlim (nextIndex s) = false) (hk : k < 4)
    (ha : s.firstAbsent (tableAddr s.regs.ttbase (nextIndex s)) k) :
    nextOp s = .error ⟨.romRange, tableAddr s.regs.ttbase (nextIndex s) + BitVec.ofNat 16 k⟩ := by
  rw [nextOp, countOk_iff.mpr h.width, if_neg (by decide), if_neg h.pairs,
    readBits_eq_ok_of_canRead h.cursor h.width.2 hc]
  exact (if_neg (by simpa [nextIndex] using hi)).trans (tableReads_of_firstAbsent hk ha)

theorem nextOp_of_present {s : State} (h : s.mayDecode) (hc : s.canRead s.regs.width.toNat)
    (hi : indexOutside s.regs.ttlim (nextIndex s) = false)
    (hp : ∀ k < 4, s.present (tableAddr s.regs.ttbase (nextIndex s) + BitVec.ofNat 16 k)) :
    nextOp s = .ok (afterNext s) := by
  obtain ⟨hon, hoff⟩ := tableReads_of_present hp
  exact nextOp_eq_ok.mpr
    ⟨h.width, h.pairs, _, _, _, _, readBits_eq_ok_of_canRead h.cursor h.width.2 hc, hi, hon, hoff, rfl⟩

/-- PAIRS counts down by its number. -/
theorem pairs_sub_one {p : Byte} (h : p ≠ 0#8) : p - 1#8 = BitVec.ofNat 8 (p.toNat - 1) := by
  apply BitVec.eq_of_toNat_eq
  have hp : p.toNat ≠ 0 := fun e => h (BitVec.eq_of_toNat_eq (by simpa using e))
  have := p.isLt
  simp only [BitVec.toNat_sub, BitVec.toNat_ofNat]
  omega

/-- The state after NEXT, with the table entry by its bytes and PAIRS by its number. -/
theorem afterNext_eq {s : State} (hp : s.regs.pairs ≠ 0#8) {a : Word}
    (ha : a = tableAddr s.regs.ttbase (nextIndex s)) :
    afterNext s = (s.setRegs { s.regs with
        on := romByte s.rom (a + 1#16) ++ romByte s.rom a
        off := romByte s.rom (a + 3#16) ++ romByte s.rom (a + 2#16)
        index := nextIndex s
        pairs := BitVec.ofNat 8 (s.regs.pairs.toNat - 1) }).setCursor (cursorAfter s s.regs.width.toNat) := by
  rw [afterNext, ← ha, ← pairs_sub_one hp, romWord, romWord, add_offset a 2 1]

/-- Settles O19: NEXT's checks one after the other, each with its fault, and the writes where all of them pass. -/
theorem nextBehaviour : Obligations.NextBehaviour := by
  refine ⟨decode_encode (i := .next) rfl, fun s idx a hr hs hidx ha => ?_⟩
  obtain rfl : idx = nextIndex s := hidx
  rw [← tableAddr_eq] at ha
  rw [BitVec.ofNat_toNat, BitVec.ofNat_toNat]
  split
  case isTrue hw => exact exec_of_error hr (nextOp_of_badWidth hw)
  case isFalse hw =>
    rw [not_not] at hw
    split
    case isTrue hp => exact exec_of_error hr (nextOp_of_noPairs hw hp)
    case isFalse hp =>
      have may : s.mayDecode := ⟨hs, hw, hp⟩
      split
      case isTrue hc => exact exec_of_error hr (nextOp_of_not_canRead may hc)
      case isFalse hc =>
        rw [not_not] at hc
        split
        case isTrue hi => exact exec_of_error hr (nextOp_of_indexOutside may hc (indexOutside_iff.mpr hi))
        case isFalse hi =>
          have inside : indexOutside s.regs.ttlim (nextIndex s) = false :=
            Bool.eq_false_iff.mpr (mt indexOutside_iff.mp hi)
          refine ⟨fun k hk hbefore habs => ?absent, fun hpres => ?present⟩
          case absent =>
            subst ha
            exact exec_of_error hr (nextOp_of_firstAbsent may hc inside hk ⟨hbefore, habs⟩)
          case present =>
            rw [← afterNext_eq hp ha]
            exact exec_of_ok hr (nextOp_of_present may hc inside (ha ▸ hpres))

end Sys2Proof.Machine
end

section
/-!
LOAD and then NEXT, pair by pair, over a code that lies whole in the ROM (R136 to R138, R253: O21).
-/

namespace Sys2Proof.Machine

/-! ## The cursor within a code -/

/-- A stream that begins at `base` is the ROM's stream from the first bit of that byte (R12). -/
theorem streamBit_base (m : List Host.Cell) (base : Word) (k : Nat) :
    streamBit m 0#16 (8 * base.toNat + k) = streamBit m base k := by
  have haddr : 0#16 + BitVec.ofNat 16 ((8 * base.toNat + k) / 8) = base + BitVec.ofNat 16 (k / 8) := by
    apply BitVec.eq_of_toNat_eq
    simp only [BitVec.toNat_add, BitVec.toNat_ofNat]
    omega
  have hbit : (8 * base.toNat + k) % 8 = k % 8 := by omega
  rw [streamBit, streamBit, haddr, hbit]

theorem streamValue_base (m : List Host.Cell) (base : Word) (k n : Nat) :
    streamValue m 0#16 (8 * base.toNat + k) n = streamValue m base k n := by
  induction n with
  | zero => rfl
  | succ n ih => rw [streamValue, streamValue, ih, Nat.add_assoc, streamBit_base]

/-- `t` is a state of the decoder after `i` pairs of the code at `a` in the ROM of `s`: the code's header is loaded and
`i` indices of the packed bytes have been read. -/
structure DecodedTo (s : State) (a : Word) (i : Nat) (t : State) : Prop where
  rom : t.rom = s.rom
  params : t.params = s.params
  ttlim : t.regs.ttlim = s.regs.ttlim
  carrier : t.regs.carrier = (recordAt s.rom a).carrierPeriod
  width : t.regs.width = (recordAt s.rom a).indexWidth
  ttbase : t.regs.ttbase = (recordAt s.rom a).tableRef
  pairs : t.regs.pairs.toNat = (recordAt s.rom a).pairCount.toNat - i
  cursor : t.cursorOk
  pos : t.streamPos = (8 * (a + 5#16).toNat + i * (recordAt s.rom a).indexWidth.toNat) % 2 ^ 19

/-- The decoder's state is in the registers, the cursor and the ROM. -/
theorem DecodedTo.of_eq {s t u : State} {a : Word} {i : Nat} (h : DecodedTo s a i t) (hr : u.regs = t.regs)
    (hc : u.cursor = t.cursor) (hrom : u.rom = t.rom) (hp : u.params = t.params) : DecodedTo s a i u where
  rom := hrom.trans h.rom
  params := hp.trans h.params
  ttlim := by rw [hr, h.ttlim]
  carrier := by rw [hr, h.carrier]
  width := by rw [hr, h.width]
  ttbase := by rw [hr, h.ttbase]
  pairs := by rw [hr, h.pairs]
  cursor := cursorOk_of_eq hc hrom h.cursor
  pos := by rw [State.streamPos, hc]; exact h.pos

section
variable {s t : State} {a : Word} {i : Nat}

/-- R138: the bits read so far lie in the packed bytes before the pointer, the unread ones at the end of the last. -/
theorem DecodedTo.cursor_eq (h : DecodedTo s a i t) :
    t.cursor.ptr = a + 5#16 + BitVec.ofNat 16 (packedLen i (recordAt s.rom a).indexWidth.toNat) ∧
      t.cursor.nbits.toNat = 8 * packedLen i (recordAt s.rom a).indexWidth.toNat -
        i * (recordAt s.rom a).indexWidth.toNat := by
  have hpos := h.pos
  obtain ⟨hle, -⟩ := h.cursor
  have := t.cursor.ptr.isLt
  unfold packedLen
  generalize i * (recordAt s.rom a).indexWidth.toNat = x at hpos ⊢
  simp only [State.streamPos] at hpos
  refine ⟨BitVec.eq_of_toNat_eq ?_, ?_⟩
  · rw [BitVec.toNat_add, BitVec.toNat_ofNat]
    omega
  · omega

/-- The packed bytes of the first pairs are among those of all of them. -/
theorem packedLen_lt {i n w : Nat} (hi : i < n) (h : 8 * packedLen i w - i * w < w) :
    packedLen i w < packedLen n w := by
  have hle : (i + 1) * w ≤ n * w := Nat.mul_le_mul_right w hi
  rw [Nat.add_mul] at hle
  unfold packedLen at h ⊢
  omega

/-- In a code that lies whole in the ROM, the byte that the next index may need is there (R253). -/
theorem DecodedTo.canRead (h : DecodedTo s a i t) (hc : s.codeOk a)
    (hi : i < (recordAt s.rom a).pairCount.toNat) : t.canRead t.regs.width.toNat := by
  obtain ⟨hpres, -, -⟩ := hc
  obtain ⟨hptr, hnbits⟩ := h.cursor_eq
  intro hlt
  rw [h.width, hnbits] at hlt
  have hbyte := hpres (5 + packedLen i (recordAt s.rom a).indexWidth.toNat)
    (Nat.add_lt_add_left (packedLen_lt hi hlt) 5)
  rwa [State.present, h.params, hptr, add_offset]

/-- The next index is the code's index `i` (R87). -/
theorem DecodedTo.nextIndex_toNat (h : DecodedTo s a i t) (hc : s.codeOk a) :
    (nextIndex t).toNat = indexAt s.rom a (recordAt s.rom a).indexWidth.toNat i := by
  obtain ⟨-, ⟨-, hw8⟩, -⟩ := hc
  rw [nextIndex, h.width, bitsAtCursor_toNat hw8, h.rom, indexAt, ← streamValue_base _ (a + 5#16)]
  have hmod : t.streamPos % 2 ^ 19 =
      (8 * (a + 5#16).toNat + i * (recordAt s.rom a).indexWidth.toNat) % 2 ^ 19 := by rw [h.pos, Nat.mod_mod]
  exact streamValue_congr _ _ hmod _

/-- The table entry of the next index is that of the code's index `i` (R88, R90). -/
theorem DecodedTo.tableAddr_nextIndex (h : DecodedTo s a i t) (hc : s.codeOk a) :
    tableAddr t.regs.ttbase (nextIndex t) = (recordAt s.rom a).tableRef +
      BitVec.ofNat 16 (4 * indexAt s.rom a (recordAt s.rom a).indexWidth.toNat i) := by
  rw [tableAddr_eq, BitVec.ofNat_add, BitVec.ofNat_toNat, BitVec.setWidth_eq, h.nextIndex_toNat hc, h.ttbase]

/-- The next pair is the code's pair `i` (R136). -/
theorem DecodedTo.afterNext_pair (h : DecodedTo s a i t) (hc : s.codeOk a) :
    ((afterNext t).regs.on, (afterNext t).regs.off) = codePair s.rom a i := by
  rw [codePair, tablePair, ← h.tableAddr_nextIndex hc, ← h.rom]
  rfl

theorem DecodedTo.mayDecode (h : DecodedTo s a i t) (hc : s.codeOk a)
    (hi : i < (recordAt s.rom a).pairCount.toNat) : t.mayDecode where
  cursor := h.cursor
  width := by
    obtain ⟨-, hw, -⟩ := hc
    rwa [h.width]
  pairs e := by
    have hp := h.pairs
    rw [e] at hp
    simp only [BitVec.toNat_ofNat] at hp
    omega

/-- NEXT answers while pairs are left (R135). -/
theorem DecodedTo.nextOp_eq (h : DecodedTo s a i t) (hc : s.codeOk a)
    (hi : i < (recordAt s.rom a).pairCount.toNat) : nextOp t = .ok (afterNext t) := by
  have ⟨_, _, hentries⟩ := hc
  obtain ⟨hlim, hentry⟩ := hentries i hi
  refine nextOp_of_present (h.mayDecode hc hi) (h.canRead hc hi) ?inside fun k hk => ?entry
  case inside =>
    rw [Bool.eq_false_iff, ne_eq, indexOutside_iff, h.ttlim, h.nextIndex_toNat hc]
    rintro ⟨hne, hle⟩
    rcases hlim with h0 | hlt
    · exact hne h0
    · omega
  case entry =>
    rw [State.present, h.tableAddr_nextIndex hc, add_offset, h.params]
    exact hentry k hk

/-- The decoder after one NEXT more. -/
theorem DecodedTo.next (h : DecodedTo s a i t) (hc : s.codeOk a) (hi : i < (recordAt s.rom a).pairCount.toNat) :
    DecodedTo s a (i + 1) (afterNext t) where
  rom := h.rom
  params := h.params
  ttlim := h.ttlim
  carrier := h.carrier
  width := h.width
  ttbase := h.ttbase
  pairs := by
    have hlt := (recordAt s.rom a).pairCount.isLt
    show (t.regs.pairs - 1#8).toNat = _
    rw [pairs_sub_one (h.mayDecode hc hi).pairs, h.pairs, BitVec.toNat_ofNat]
    omega
  cursor := by
    obtain ⟨hle, hbyte⟩ := cursorAfter_hasRead h.cursor (h.mayDecode hc hi).width
    exact ⟨hle, fun _ => hbyte⟩
  pos := by
    show (cursorAfter t t.regs.width.toNat).pos = _
    rw [cursorAfter_pos h.cursor (h.mayDecode hc hi).width.2, h.pos, h.width, Nat.add_mul]
    omega

/-- With all pairs decoded, one NEXT more takes NO_PAIRS (R137). -/
theorem DecodedTo.nextOp_noPairs (h : DecodedTo s a (recordAt s.rom a).pairCount.toNat t) (hc : s.codeOk a) :
    nextOp t = .error ⟨.noPairs, 0#16⟩ := by
  obtain ⟨-, hw, -⟩ := hc
  refine nextOp_of_noPairs (by rwa [h.width]) (BitVec.eq_of_toNat_eq ?_)
  rw [h.pairs, Nat.sub_self]
  rfl

end

/-! ## LOAD and the NEXTs -/

/-- LOAD of a code that lies whole in the ROM answers (R130, R253). -/
theorem loadOp_of_codeOk {s : State} (hc : s.codeOk s.regs.addr) : loadOp s = .ok (afterLoad s) := by
  obtain ⟨hpres, hw, -⟩ := hc
  exact loadOp_of_present (fun k hk => hpres k (by omega)) hw

/-- LOAD leaves the decoder before the code's first pair. -/
theorem afterLoad_decodedTo (s : State) : DecodedTo s s.regs.addr 0 (afterLoad s) where
  rom := rfl
  params := rfl
  ttlim := rfl
  carrier := rfl
  width := rfl
  ttbase := rfl
  pairs := rfl
  cursor := cursorOk_of_empty rfl
  pos := by simp [State.streamPos, afterLoad]

/-- A run of NEXTs is its first, which does not fault, and the rest from the state after that. -/
theorem nextTimes_succ_eq_some {k : Nat} {s u : State} : nextTimes (k + 1) s = some u ↔
    ∃ t, exec .next s = .next t ∧ t.flt.fault = false ∧ nextTimes k t = some u := by
  obtain ⟨t, ht, -⟩ := exec_frame .next s
  cases hf : t.flt.fault <;> simp [nextTimes, ht, hf]

/-- A run of NEXTs, and one more that does not fault. -/
theorem nextTimes_snoc {k : Nat} {s t u : State} (h : nextTimes k s = some t) (hn : exec .next t = .next u)
    (hf : u.flt.fault = false) : nextTimes (k + 1) s = some u := by
  induction k generalizing s with
  | zero =>
    obtain rfl := Option.some.inj h
    exact nextTimes_succ_eq_some.mpr ⟨u, hn, hf, rfl⟩
  | succ k ih =>
    obtain ⟨s', hs', hf', hrest⟩ := nextTimes_succ_eq_some.mp h
    exact nextTimes_succ_eq_some.mpr ⟨s', hs', hf', ih hrest⟩

/-- R136 to R138: the NEXTs of a code, none of them faulting: the block stays ready, and nothing is logged. -/
theorem DecodedTo.nextTimes_eq {s t₀ : State} {a : Word} (h₀ : DecodedTo s a 0 t₀) (hc : s.codeOk a)
    (hr : t₀.ready = true) (i : Nat) (hi : i ≤ (recordAt s.rom a).pairCount.toNat) :
    ∃ t, nextTimes i t₀ = some t ∧ DecodedTo s a i t ∧ t.ready = true ∧ t.trace = t₀.trace ∧
      (i ≠ 0 → (t.regs.on, t.regs.off) = codePair s.rom a (i - 1) ∧
        t.regs.index.toNat = indexAt s.rom a (recordAt s.rom a).indexWidth.toNat (i - 1)) := by
  induction i with
  | zero => exact ⟨t₀, rfl, h₀, hr, rfl, nofun⟩
  | succ i ih =>
    obtain ⟨t, ht, hd, hrt, htr, -⟩ := ih (by omega)
    obtain ⟨-, hf, -⟩ := ready_iff.mp hrt
    exact ⟨afterNext t, nextTimes_snoc ht (exec_of_ok hrt (hd.nextOp_eq hc hi)) hf, hd.next hc hi, hrt, htr,
      fun _ => ⟨hd.afterNext_pair hc, hd.nextIndex_toNat hc⟩⟩

/-- Settles O21: LOAD answers, and the NEXTs run as `DecodedTo.nextTimes_eq` says from the state it leaves. -/
theorem codeDecodesToItsPairs : Obligations.CodeDecodesToItsPairs := by
  rintro s h hr hc rfl
  refine ⟨afterLoad s, exec_of_ok hr (loadOp_of_codeOk hc), fun i hi => ?_⟩
  obtain ⟨t, ht, hd, hrt, htr, hpair⟩ := (afterLoad_decodedTo s).nextTimes_eq hc hr i hi
  obtain ⟨hptr, hnbits⟩ := hd.cursor_eq
  refine ⟨t, ht, hpair, hd.pairs, hd.carrier, hptr, hnbits, htr, fun hlast => ?_⟩
  subst hlast
  exact exec_of_error hrt (hd.nextOp_noPairs hc)

end Sys2Proof.Machine
end

section
/-!
The manual sequence and PLAYC (R187, R204: O36). What a run does to the block does not depend on the carrier's count and
level nor on the other agents, so both runs are followed on the rest of the block, where they decode and send the same
pairs.
-/

namespace Sys2Proof.Machine

/-! ## The block without the free value -/

/-- A state without what the free carrier runs and the other agents write: no carrier count and level, and the other
agents as after reset. -/
def State.block (t : State) : State :=
  (t.setEmitter { t.emitter with ccnt := 0, clevel := false }).setEnv .reset

theorem readBits_block (t : State) (n : Nat) : readBits t.block n = readBits t n :=
  readBitsLoop_congr (s := t) (t := t.block) rfl rfl n _ _

/-- A command answers alike whatever the carrier's count and level and the other agents are. -/
theorem opOf_of_block {i : Instr} {t b : State} (h : opOf i t.block = .ok b) :
    ∃ u, opOf i t = .ok u ∧ u.block = b := by
  cases i with
  | readBits n =>
    obtain ⟨hn, v, c, hv, rfl⟩ := readBitsOp_eq_ok.mp h
    exact ⟨_, readBitsOp_eq_ok.mpr ⟨hn, v, c, readBits_block t n ▸ hv, rfl⟩, rfl⟩
  | load =>
    obtain ⟨g, hg, hw, rfl⟩ := loadOp_eq_ok.mp h
    exact ⟨_, loadOp_eq_ok.mpr ⟨g, hg, hw, rfl⟩, rfl⟩
  | next =>
    obtain ⟨hw, hp, v, c, on, off, hv, hi, hon, hoff, rfl⟩ := nextOp_eq_ok.mp h
    rw [readBits_block] at hv
    exact ⟨_, nextOp_eq_ok.mpr ⟨hw, hp, v, c, on, off, hv, hi, hon, hoff, rfl⟩, rfl⟩
  | emit =>
    obtain ⟨hcar, rfl⟩ := emitOp_eq_ok.mp h
    exact ⟨_, emitOp_eq_ok.mpr ⟨hcar, rfl⟩, rfl⟩
  | setptr | clrbuf | arm | disarm | play =>
    obtain rfl := Except.ok.inj h
    exact ⟨_, rfl, rfl⟩

theorem playThen_block (i : Instr) (u : State) : (playThen i u).block = playThen i u.block := by
  cases i <;> rfl

theorem finishPhase_block (t : State) : (finishPhase t).block = finishPhase t.block := by
  have hend : ∀ u : State, (endPhase u).block = endPhase u.block := fun u => by
    have hseq : u.block.seq = u.seq := rfl
    unfold endPhase
    rw [hseq]
    split <;> rfl
  exact hend _

@[simp] theorem finishPhase_env (t : State) : (finishPhase t).env = t.env := by simp [finishPhase]

theorem microStep_of_isPhase {s : State} (hq : s.seq.isPhase = true) : microStep s = finishPhase s := by
  unfold microStep
  cases hs : s.seq
  case emitOn | emitOff | playOn | playOff => rfl
  all_goals simp [hs, Seq.isPhase] at hq

theorem storeReg_block (t : State) (r : Reg) (v : Word) : (storeReg t r v).block = storeReg t.block r v := by
  cases r <;> rfl

/-! ## Free runs -/

/-- The system is to run by itself: the block is at `b`, the host has the program `l`, nothing is scheduled and `rst`
is low. -/
structure Stands (b : State) (l : List HostLine) (t : State) : Prop where
  block : t.block = b
  schedule : t.env.schedule = []
  rst : t.env.rst = false
  prog : t.env.prog = l

/-- A run is its first step, and the rest from the state after that. -/
theorem run_succ {k : Nat} {t u : State} (h : step t = .next u) :
    Host.Core.run core (k + 1) t = Host.Core.run core k u := by
  have hcore : core.step t = .next u := h
  simp only [Host.Core.run, hcore]

/-- Every step answers a next state, so runs add up. -/
theorem run_add {j k : Nat} {t u : State} (h : Host.Core.run core j t = .next u) :
    Host.Core.run core (j + k) t = Host.Core.run core k u := by
  induction j generalizing t with
  | zero =>
    obtain rfl := Host.Outcome.next.inj h
    rw [Nat.zero_add]
  | succ j ih =>
    obtain ⟨t', ht', -⟩ := (continues_kept t).step t.continues_self
    rw [run_succ ht'] at h
    rw [Nat.add_right_comm, run_succ ht', ih h]

section
variable {b : State} {l : List HostLine} {t : State}

theorem Stands.busy_eq (h : Stands b l t) : b.busy = t.busy := by
  rw [← h.block]
  rfl

/-- A block that is not busy lets the host run its next line, some `car_clk` cycles later. -/
theorem Stands.step_line {line : HostLine} (h : Stands b (line :: l) t) (hb : b.busy = false) :
    step t = runLine line l (freeCarrier t) := by
  rw [h.busy_eq] at hb
  simp [step, takeTurn, freeTurn, h.schedule, h.rst, hb, turn, hostTurn, h.prog]

/-- After the host has taken a line, and the free carrier run before it. -/
theorem Stands.of_setProg {l' : List HostLine} (h : Stands b l t) : Stands b l' (setProg l' (freeCarrier t)) :=
  ⟨h.block, h.schedule, h.rst, rfl⟩

theorem Stands.of_freeCarrier (h : Stands b l t) : Stands b l (freeCarrier t) :=
  ⟨h.block, h.schedule, h.rst, h.prog⟩

theorem Stands.of_hostRead (h : Stands b l t) (r : Reg) : Stands b l (hostRead r t) :=
  ⟨h.block, h.schedule, h.rst, h.prog⟩

theorem Stands.ready_eq (h : Stands b l t) : t.ready = b.ready := by
  rw [← h.block, State.ready, h.rst]
  rfl

/-- WAIT is over at once where the block is not busy (R93). -/
theorem Stands.step_wait (h : Stands b (.wait :: l) t) (hb : b.busy = false) :
    step t = .next (hostRead .status (setProg l (freeCarrier t))) := by
  have hbusy : (freeCarrier t).busy = false := h.busy_eq.symm.trans hb
  rw [h.step_line hb, runLine, hbusy]
  rfl

/-- Where the block's command answers, the state's does, and stands where that leaves the block. -/
theorem Stands.opOf_ok {i : Instr} {b' : State} (h : Stands b l t) (ho : opOf i b = .ok b') :
    ∃ u, opOf i t = .ok u ∧ Stands b' l u := by
  obtain ⟨u, hu, hblock⟩ := opOf_of_block (t := t) (h.block ▸ ho)
  obtain ⟨-, -, -, henv, -⟩ := opOf_shape hu
  exact ⟨u, hu, hblock, henv ▸ h.schedule, henv ▸ h.rst, henv ▸ h.prog⟩

/-- The host's next line is a command that answers at `b`: the step is that command's writes. -/
theorem Stands.step_command {i : Instr} {b' : State} (h : Stands b (cmdLine i :: l) t) (hr : b.ready = true)
    (hwf : i.wf = true) (ho : opOf i b = .ok b') :
    ∃ t' u, opOf i t' = .ok u ∧ step t = .next u ∧ Stands b' l u := by
  obtain ⟨-, -, hb⟩ := ready_iff.mp hr
  have hp : Stands b l (setProg l (freeCarrier t)) := h.of_setProg
  obtain ⟨u, hu, hs⟩ := hp.opOf_ok ho
  refine ⟨_, u, hu, ?_, hs⟩
  rw [h.step_line hb, cmdLine, runLine, hostWrite_cmd_of_decode (decode_encode hwf)]
  exact exec_of_ok (hp.ready_eq.trans hr) hu

/-- The block's next micro-step is a command of PLAY that answers at `b`: the step is its writes and PLAY's move on. -/
theorem Stands.step_play {i : Instr} {b' : State} (h : Stands b l t) (hi : playCommand b.seq = some i)
    (ho : opOf i b = .ok b') :
    ∃ t' u, opOf i t' = .ok u ∧ step t = .next (playThen i u) ∧
      Stands (playThen i b') l (playThen i u) := by
  obtain ⟨u, hu, hs⟩ := h.of_freeCarrier.opOf_ok ho
  have hseq : b.seq = t.seq := h.block ▸ rfl
  have hbusy : t.busy = true := busy_of_playCommand (hseq ▸ hi)
  have hmicro : microStep (freeCarrier t) = playThen i u := by
    rcases microStep_of_playCommand (s := freeCarrier t) (hseq ▸ hi) with ⟨x, hx, -⟩ | ⟨u', hu', e⟩
    · cases hx.symm.trans hu
    · rw [e, Except.ok.inj (hu'.symm.trans hu)]
  refine ⟨_, u, hu, ?_, (playThen_block i u).trans (congrArg _ hs.block), ?_, ?_, ?_⟩
  · rw [step_of_busy h.schedule h.rst hbusy, turn, hmicro]
  · rw [playThen_env, hs.schedule]
  · rw [playThen_env, hs.rst]
  · rw [playThen_env, hs.prog]

end

/-! ## What a free run leads to -/

/-- From the block at `b` and the program `l`, `k` steps lead to the block at `b'` and the program `l'`. -/
def Leads (k : Nat) (b : State) (l : List HostLine) (b' : State) (l' : List HostLine) : Prop :=
  ∀ t, Stands b l t → ∃ u, Host.Core.run core k t = .next u ∧ Stands b' l' u

section
variable {j k : Nat} {b b' b'' : State} {l l' l'' : List HostLine}

theorem Leads.refl (b : State) (l : List HostLine) : Leads 0 b l b l := fun t h => ⟨t, rfl, h⟩

theorem Leads.trans (h : Leads j b l b' l') (h' : Leads k b' l' b'' l'') : Leads (j + k) b l b'' l'' := by
  intro t ht
  obtain ⟨u, hu, hs⟩ := h t ht
  obtain ⟨v, hv, hs'⟩ := h' u hs
  exact ⟨v, (run_add hu).trans hv, hs'⟩

/-- One step. -/
theorem Leads.single (h : ∀ t, Stands b l t → ∃ u, step t = .next u ∧ Stands b' l' u) : Leads 1 b l b' l' := by
  intro t ht
  obtain ⟨u, hu, hs⟩ := h t ht
  exact ⟨u, (run_succ hu).trans rfl, hs⟩

theorem Leads.command {i : Instr} (hr : b.ready = true) (hwf : i.wf = true) (ho : opOf i b = .ok b') :
    Leads 1 b (cmdLine i :: l) b' l :=
  .single fun _ ht => by
    obtain ⟨-, u, -, hu, hs⟩ := ht.step_command hr hwf ho
    exact ⟨u, hu, hs⟩

theorem Leads.play {i : Instr} (hi : playCommand b.seq = some i) (ho : opOf i b = .ok b') :
    Leads 1 b l (playThen i b') l :=
  .single fun _ ht => by
    obtain ⟨-, u, -, hu, hs⟩ := ht.step_play hi ho
    exact ⟨_, hu, hs⟩

/-- A phase runs to its end. -/
theorem Leads.phase (hq : b.seq.isPhase = true) : Leads 1 b l (finishPhase b) l :=
  .single fun t ht => by
    have hseq : b.seq = t.seq := ht.block ▸ rfl
    have hphase : (freeCarrier t).seq.isPhase = true := (congrArg Seq.isPhase hseq).symm.trans hq
    refine ⟨finishPhase (freeCarrier t), ?_, ?_, ?_, ?_, ?_⟩
    · rw [step_of_busy ht.schedule ht.rst (busy_of_isPhase hphase), turn, microStep_of_isPhase hphase]
    · rw [finishPhase_block, ht.of_freeCarrier.block]
    all_goals rw [finishPhase_env]
    exacts [ht.schedule, ht.rst, ht.prog]

/-- The host stores a value in a register. -/
theorem Leads.store {r : Reg} {v : Word} (hr : b.ready = true) (hcmd : r ≠ .cmd) :
    Leads 1 b (.wr r v :: l) (storeReg b r v) l :=
  .single fun t ht => by
    obtain ⟨-, -, hb⟩ := ready_iff.mp hr
    have hp : Stands b l (setProg l (freeCarrier t)) := ht.of_setProg
    refine ⟨storeReg (setProg l (freeCarrier t)) r v, ?_, ?_, ?_, ?_, ?_⟩
    · rw [ht.step_line hb, runLine, hostWrite_of_ne_cmd hcmd, accept_of_ready (hp.ready_eq.trans hr)]
    · rw [storeReg_block, hp.block]
    all_goals rw [storeReg_env]
    exacts [hp.schedule, hp.rst, hp.prog]

theorem Leads.wait (hb : b.busy = false) : Leads 1 b (.wait :: l) b l :=
  .single fun _ ht => ⟨_, ht.step_wait hb, ht.of_setProg.of_hostRead .status⟩

/-- The loop of R204 is as many times its body as PAIRS says. -/
theorem Leads.pairLoop (hb : b.busy = false) :
    Leads 1 b (.pairLoop :: l) b ((List.replicate b.regs.pairs.toNat pairLines).flatten ++ l) :=
  .single fun t ht => by
    have hpairs : b.regs.pairs = (freeCarrier t).regs.pairs := ht.block ▸ rfl
    refine ⟨_, ?_, ht.of_setProg.of_hostRead .pairs⟩
    rw [ht.step_line hb, runLine, hpairs]

end

/-! ## The two ways to send a pair -/

/-- The state after a NEXT whose pair is sent whole: its Emit record, its carrier flag, and the unit timer run down. -/
def pairSent (b : State) : State := (beginPair b.seq (afterNext b)).setTimer 0#16 0

/-- The phases of an EMIT's pair, run to their end, leave the block idle. -/
theorem finishPhases_emit (b : State) :
    finishPhase (finishPhase (beginPair .emitOn b)) = (beginPair .idle b).setTimer 0#16 0 := rfl

/-- The phases of a PLAY's pair, run to their end, leave the block where PLAY goes after a pair. -/
theorem finishPhases_play (b : State) :
    finishPhase (finishPhase (beginPair .playOn b)) =
      ((beginPair .playOn b).setTimer 0#16 0).setSeq (afterPair b) := by
  rw [← afterPair_congr (s := b) (t := (endOn .playOff (beginPair .playOn b)).setTimer 0#16 0) rfl]
  rfl

/-- The manual sequence's five lines of a pair (R204). -/
theorem Leads.manualPair {b : State} {l : List HostLine} (hr : b.ready = true) (hseq : b.seq = .idle)
    (hnext : nextOp b = .ok (afterNext b)) (hcar : b.useCarrier = true → b.carrierRuns = true) :
    Leads 5 b (pairLines ++ l) (pairSent b) l := by
  have hemit : opOf .emit (afterNext b) = .ok (beginPair .emitOn (afterNext b)) := emitOp_eq_ok.mpr ⟨hcar, rfl⟩
  have phases : Leads (1 + 1) (beginPair .emitOn (afterNext b)) (.wait :: l) (pairSent b) (.wait :: l) := by
    rw [pairSent, hseq]
    exact finishPhases_emit (afterNext b) ▸ (Leads.phase rfl).trans (.phase rfl)
  have hidle : (pairSent b).busy = false := (congrArg Seq.busy hseq).trans rfl
  exact (Leads.command (b := b) (i := .next) hr rfl hnext).trans
    ((Leads.command (b := afterNext b) (i := .emit) hr rfl hemit).trans (phases.trans (.wait hidle)))

/-- PLAY's three micro-steps of a pair (R183, R184). -/
theorem Leads.playPair {b : State} {l : List HostLine} (hnext : nextOp (b.setSeq .playNext) =
    .ok ((afterNext b).setSeq .playNext)) :
    Leads 3 (b.setSeq .playNext) l ((pairSent b).setSeq (afterPair (pairSent b))) l := by
  have phases : Leads (1 + 1) (beginPair .playOn (afterNext b)) l ((pairSent b).setSeq (afterPair (pairSent b))) l := by
    rw [afterPair_congr (s := afterNext b) (t := pairSent b) rfl]
    exact finishPhases_play (afterNext b) ▸ (Leads.phase rfl).trans (.phase rfl)
  exact (Leads.play (i := .next) rfl hnext).trans phases

/-! ## The code, pair by pair -/

/-- The Emit record of pair `i` of the code at `a` (R187). -/
def pairEvent (m : List Host.Cell) (a : Word) (i : Nat) : Obs :=
  .emit (codePair m a i).1 (codePair m a i).2 ((recordAt m a).carrierPeriod != 0#8) (recordAt m a).carrierPeriod

theorem codeEvents_eq (m : List Host.Cell) (a : Word) : codeEvents m a =
    .arm (recordAt m a).carrierPeriod ::
      ((List.range (recordAt m a).pairCount.toNat).map (pairEvent m a) ++ [.disarm]) := by
  simp [codeEvents, codePairs, pairEvent, Function.comp_def]

/-- `b` is an idle block after `i` pairs of the code at `a` have been decoded and sent, from `s` on. -/
structure SentTo (s : State) (a : Word) (i : Nat) (b : State) : Prop extends DecodedTo s a i b where
  ready : b.ready = true
  seq : b.seq = .idle
  armed : b.emitter.armed = true
  latched : b.regs.carlat = b.regs.carrier
  trace : b.trace = s.trace ++ .arm (recordAt s.rom a).carrierPeriod :: (List.range i).map (pairEvent s.rom a)

section
variable {s b : State} {a : Word} {i : Nat}

/-- A code's carrier flag, where set, has its carrier (R140, R180). -/
theorem SentTo.carrierRuns (h : SentTo s a i b) (hu : b.useCarrier = true) : b.carrierRuns = true :=
  carrierRuns_of_latched h.armed h.latched hu

/-- Sending a pair logs its Emit record, with the code's carrier or, without one, 0. -/
theorem SentTo.pairSent_trace (h : SentTo s a i b) (hc : s.codeOk a) :
    (pairSent b).trace = b.trace ++ [pairEvent s.rom a i] := by
  have hpair := h.afterNext_pair hc
  have hon : (afterNext b).regs.on = (codePair s.rom a i).1 := by rw [← hpair]
  have hoff : (afterNext b).regs.off = (codePair s.rom a i).2 := by rw [← hpair]
  have hcar : (afterNext b).regs.carrier = (recordAt s.rom a).carrierPeriod := h.carrier
  have hlat : (afterNext b).regs.carlat = (recordAt s.rom a).carrierPeriod := h.latched.trans h.carrier
  have htrace : (pairSent b).trace = (beginPair b.seq (afterNext b)).trace := rfl
  rw [htrace, beginPair_trace, State.useCarrier, hon, hoff, hcar, hlat, pairEvent]
  split
  case isTrue => rfl
  case isFalse hz =>
    have hzero : (recordAt s.rom a).carrierPeriod = 0#8 := by simpa using hz
    rw [hzero]
    rfl

theorem SentTo.next (h : SentTo s a i b) (hc : s.codeOk a) (hi : i < (recordAt s.rom a).pairCount.toNat) :
    SentTo s a (i + 1) (pairSent b) where
  toDecodedTo := (h.toDecodedTo.next hc hi).of_eq rfl rfl rfl rfl
  ready := h.ready
  seq := h.seq
  armed := h.armed
  latched := h.latched
  trace := by
    rw [h.pairSent_trace hc, h.trace, List.range_succ, List.map_append, List.append_assoc, List.cons_append]
    rfl

/-- After one more pair the manual sequence has one body of its loop less to run. -/
theorem SentTo.leads_manualPair {l : List HostLine} (h : SentTo s a i b) (hc : s.codeOk a)
    (hi : i < (recordAt s.rom a).pairCount.toNat) : Leads 5 b (pairLines ++ l) (pairSent b) l :=
  .manualPair h.ready h.seq (h.nextOp_eq hc hi) h.carrierRuns

/-- After one more pair PLAY is again where it goes after a pair. -/
theorem SentTo.leads_playPair {l : List HostLine} (h : SentTo s a i b) (hc : s.codeOk a)
    (hi : i < (recordAt s.rom a).pairCount.toNat) :
    Leads 3 (b.setSeq (afterPair b)) l ((pairSent b).setSeq (afterPair (pairSent b))) l := by
  have hd : DecodedTo s a i (b.setSeq .playNext) := h.toDecodedTo.of_eq rfl rfl rfl rfl
  have hnext : afterPair b = .playNext := if_neg (h.mayDecode hc hi).pairs
  rw [hnext]
  exact .playPair (hd.nextOp_eq hc hi)

end

/-- The rest of the code's pairs, in both ways, lead to the same block. -/
theorem SentTo.leads_rest {s b : State} {a : Word} {i n : Nat} (h : SentTo s a i b) (hc : s.codeOk a)
    (hn : i + n = (recordAt s.rom a).pairCount.toNat) :
    ∃ b', SentTo s a (recordAt s.rom a).pairCount.toNat b' ∧
      (∀ l, Leads (5 * n) b ((List.replicate n pairLines).flatten ++ l) b' l) ∧
      ∀ l, Leads (3 * n) (b.setSeq (afterPair b)) l (b'.setSeq (afterPair b')) l := by
  induction n generalizing i b with
  | zero => exact ⟨b, hn ▸ h, fun l => .refl b l, fun l => .refl _ l⟩
  | succ n ih =>
    have hi : i < (recordAt s.rom a).pairCount.toNat := by omega
    obtain ⟨b', hsent, hmanual, hplay⟩ := ih (h.next hc hi) (by omega)
    refine ⟨b', hsent, fun l => ?_, fun l => ?_⟩
    · rw [Nat.mul_succ, Nat.add_comm, List.replicate_succ, List.flatten_cons, List.append_assoc]
      exact (h.leads_manualPair hc hi).trans (hmanual l)
    · rw [Nat.mul_succ, Nat.add_comm]
      exact (h.leads_playPair hc hi).trans (hplay l)

/-! ## The two sequences -/

/-- The state after ARM (R150). -/
def afterArm (s : State) : State :=
  ((s.setRegs { s.regs with carlat := s.regs.carrier }).setEmitter
    { s.emitter with armed := true, ccnt := 0, clevel := false }).log (.arm s.regs.carrier)

/-- The state after CLRBUF (R116). -/
def afterClrbuf (s : State) : State := s.setCursor { s.cursor with nbits := 0#4 }

/-- The state after DISARM (R154). -/
def afterDisarm (s : State) : State :=
  (s.setEmitter { s.emitter with armed := false, ccnt := 0, clevel := false }).log .disarm

theorem opOf_arm (s : State) : opOf .arm s = .ok (afterArm s) := rfl
theorem opOf_clrbuf (s : State) : opOf .clrbuf s = .ok (afterClrbuf s) := rfl
theorem opOf_disarm (s : State) : opOf .disarm s = .ok (afterDisarm s) := rfl
theorem opOf_play (s : State) : opOf .play s = .ok (s.setSeq .playLoad) := rfl

/-- The state after the code at `a` is loaded and its carrier armed: its pairs are to come. -/
def codeArmed (b : State) (a : Word) : State := afterArm (afterLoad (storeReg b .addr a))

section
variable {b : State} {a : Word}

theorem codeArmed_sentTo (hr : b.ready = true) (hseq : b.seq = .idle) : SentTo b a 0 (codeArmed b a) where
  toDecodedTo := { afterLoad_decodedTo (storeReg b .addr a) with }
  ready := hr
  seq := hseq
  armed := rfl
  latched := rfl
  trace := rfl

/-- The manual sequence up to its loop (R204). -/
theorem leads_manualStart (hr : b.ready = true) (hc : b.codeOk a) :
    Leads 4 b (manualCode a) (codeArmed b a)
      ((List.replicate (recordAt b.rom a).pairCount.toNat pairLines).flatten ++
        [cmdLine .clrbuf, cmdLine .disarm]) := by
  obtain ⟨-, -, hbusy⟩ := ready_iff.mp hr
  have hload : opOf .load (storeReg b .addr a) = .ok (afterLoad (storeReg b .addr a)) := loadOp_of_codeOk hc
  exact (Leads.store (r := .addr) hr nofun).trans ((Leads.command (b := storeReg b .addr a) hr rfl hload).trans
    ((Leads.command (b := afterLoad (storeReg b .addr a)) hr rfl (opOf_arm _)).trans
      (Leads.pairLoop (b := codeArmed b a) hbusy)))

/-- PLAYC up to its first pair (R180 to R182). -/
theorem leads_playStart (hr : b.ready = true) (hc : b.codeOk a) :
    Leads 4 b (playCode a) ((codeArmed b a).setSeq (afterPair (codeArmed b a))) [.wait] := by
  have hload : opOf .load ((storeReg b .addr a).setSeq .playLoad) =
      .ok ((afterLoad (storeReg b .addr a)).setSeq .playLoad) :=
    loadOp_of_codeOk (s := (storeReg b .addr a).setSeq .playLoad) hc
  have harm := Leads.play (b := (afterLoad (storeReg b .addr a)).setSeq .playArm) (l := [.wait]) rfl (opOf_arm _)
  exact (Leads.store (r := .addr) hr nofun).trans ((Leads.command (b := storeReg b .addr a) hr rfl (opOf_play _)).trans
    ((Leads.play rfl hload).trans harm))

/-- Both sequences come to the block with all pairs sent and the buffer cleared, with only DISARM to come (R204). -/
theorem leads_to_disarm (hr : b.ready = true) (hseq : b.seq = .idle) (hc : b.codeOk a) :
    ∃ b', SentTo b a (recordAt b.rom a).pairCount.toNat b' ∧
      Leads (5 + 5 * (recordAt b.rom a).pairCount.toNat) b (manualCode a) (afterClrbuf b') [cmdLine .disarm] ∧
      Leads (5 + 3 * (recordAt b.rom a).pairCount.toNat) b (playCode a) ((afterClrbuf b').setSeq .playDisarm)
        [.wait] := by
  obtain ⟨b', hsent, hmanual, hplay⟩ := (codeArmed_sentTo hr hseq).leads_rest hc (Nat.zero_add _)
  refine ⟨b', hsent, ?manual, ?play⟩
  case manual =>
    have hclr := Leads.command (l := [cmdLine .disarm]) hsent.ready rfl (opOf_clrbuf b')
    rw [Nat.add_right_comm 4 1]
    exact ((leads_manualStart hr hc).trans (hmanual _)).trans hclr
  case play =>
    have hlast : afterPair b' = .playClr := if_pos (BitVec.eq_of_toNat_eq (hsent.pairs.trans (Nat.sub_self _)))
    have hclr := Leads.play (b := b'.setSeq .playClr) (l := [.wait]) rfl (opOf_clrbuf _)
    rw [Nat.add_right_comm 4 1]
    exact ((leads_playStart hr hc).trans (hlast ▸ hplay _)).trans hclr

end

/-! ## The ends of the two runs -/

/-- The carrier generator holds count 0 and level 0, and is not armed. -/
structure State.quiet (t : State) : Prop where
  armed : t.emitter.armed = false
  count : t.emitter.ccnt = 0
  level : t.emitter.clevel = false

theorem afterDisarm_quiet (t : State) : (afterDisarm t).quiet := ⟨rfl, rfl, rfl⟩

/-- A generator that is not armed holds, however many `car_clk` cycles pass (R160). -/
theorem State.quiet.of_freeCarrier {t : State} (h : t.quiet) : (freeCarrier t).quiet := by
  have hruns : t.carrierRuns = false := by simp [State.carrierRuns, h.armed]
  refine ⟨h.armed, ?_, ?_⟩ <;>
    simp [freeCarrier, carCycles, hruns, h.count, h.level, carRun_holds]

/-- Where the generators are quiet, the rest of the block is the whole block. -/
theorem sameBlock_of_block {u v : State} (h : u.block = v.block) (hu : u.quiet) (hv : v.quiet) : u.sameBlock v := by
  have hemit : ∀ t : State, t.quiet → t.emitter = t.block.emitter := fun t ht => by
    simp [State.block, ← ht.count, ← ht.level]
  have hfield : ∀ {α : Type} (f : State → α), f v.block = f u.block := fun f => congrArg f h.symm
  exact ⟨hfield State.regs, hfield State.cursor, by rw [hemit u hu, hemit v hv, h], hfield State.seq,
    hfield State.flt⟩

theorem setSeq_self {s : State} {q : Seq} (h : s.seq = q) : s.setSeq q = s := by
  subst h
  rfl

/-- The manual sequence's last line (R154). -/
theorem Stands.run_disarm {b t : State} (h : Stands b [cmdLine .disarm] t) (hr : b.ready = true) :
    ∃ u, Host.Core.run core 1 t = .next u ∧ Stands (afterDisarm b) [] u ∧ u.quiet := by
  obtain ⟨t', u, ho, hu, hs⟩ := h.step_command hr rfl (opOf_disarm b)
  obtain rfl := Except.ok.inj ho
  exact ⟨_, run_succ hu, hs, afterDisarm_quiet t'⟩

/-- PLAYC's last micro-step, and its WAIT (R93, R186). -/
theorem Stands.run_playDisarm {b t : State} (h : Stands (b.setSeq .playDisarm) [.wait] t) (hseq : b.seq = .idle) :
    ∃ u, Host.Core.run core 2 t = .next u ∧ Stands (afterDisarm b) [] u ∧ u.quiet := by
  obtain ⟨t', u, ho, hu, hs⟩ := h.step_play rfl (opOf_disarm _)
  obtain rfl := Except.ok.inj ho
  have hidle : playThen .disarm (afterDisarm (b.setSeq .playDisarm)) = afterDisarm b :=
    setSeq_self (s := afterDisarm b) hseq
  have hquiet : (playThen .disarm (afterDisarm t')).quiet := ⟨rfl, rfl, rfl⟩
  obtain ⟨harmed, hcount, hlevel⟩ := hquiet.of_freeCarrier
  rw [hidle] at hs
  have hbusy : (afterDisarm b).busy = false := congrArg Seq.busy hseq
  exact ⟨_, (run_succ hu).trans (run_succ (hs.step_wait hbusy)), hs.of_setProg.of_hostRead .status,
    harmed, hcount, hlevel⟩

/-- The trace of a code sent whole and disarmed (R187). -/
theorem SentTo.afterDisarm_trace {s b : State} {a : Word} (h : SentTo s a (recordAt s.rom a).pairCount.toNat b) :
    (afterDisarm (afterClrbuf b)).trace = s.trace ++ codeEvents s.rom a := by
  have htrace : (afterDisarm (afterClrbuf b)).trace = b.trace ++ [.disarm] := rfl
  rw [htrace, h.trace, codeEvents_eq, List.append_assoc, List.cons_append]

/-- Settles O36: both sequences come to the same block with only DISARM to come, and both end with a quiet carrier
generator. -/
theorem manualSequenceEqualsPlay : Obligations.ManualSequenceEqualsPlay := by
  rintro s a pc hr hseq hsched hc rfl
  have starts (l : List HostLine) : Stands s.block l (setProg l s) := ⟨rfl, hsched, rst_low_of_ready hr, rfl⟩
  have hready : s.block.ready = true := (starts []).ready_eq.symm.trans hr
  obtain ⟨b, hsent, hmanual, hplay⟩ := leads_to_disarm (b := s.block) hready hseq hc
  obtain ⟨t, ht, hts⟩ := hmanual _ (starts _)
  obtain ⟨u, hu, hus, huq⟩ := hts.run_disarm hsent.ready
  obtain ⟨t', ht', hts'⟩ := hplay _ (starts _)
  obtain ⟨v, hv, hvs, hvq⟩ := hts'.run_playDisarm hsent.seq
  have hblock : u.block = v.block := hus.block.trans hvs.block.symm
  have htrace : u.block.trace = s.trace ++ codeEvents s.rom a := by
    rw [hus.block]
    exact hsent.afterDisarm_trace
  have hsame : v.block.trace = u.block.trace := by rw [hblock]
  refine ⟨u, v, ?manual, ?play, sameBlock_of_block hblock huq hvq, hsame, htrace,
    hus.prog, hvs.prog, hus.ready_eq.trans hsent.ready⟩
  case manual =>
    rw [Nat.add_right_comm 5 1]
    exact (run_add ht).trans hu
  case play =>
    rw [Nat.add_right_comm 5 2]
    exact (run_add ht').trans hv

end Sys2Proof.Machine
end

section
/-!
The emitter: ARM, DISARM and EMIT (R150, R152, R154: O22, O23, O24), the carrier's square wave (R160: O30), and the
phases cycle by cycle (R156 to R158: O27, O29).
-/

namespace Sys2Proof.Machine

/-! ## Commands -/

/-- Settles O22: ARM's word decodes to it, and it always answers. -/
theorem armResult : Obligations.ArmResult :=
  ⟨decode_encode (i := .arm) rfl, fun s hr => exec_of_ok hr (opOf_arm s)⟩

/-- Settles O23: DISARM's word decodes to it, and it always answers. -/
theorem disarmResult : Obligations.DisarmResult :=
  ⟨decode_encode (i := .disarm) rfl, fun s hr => exec_of_ok hr (opOf_disarm s)⟩

theorem useCarrier_iff {s : State} : s.useCarrier = true ↔ s.regs.carrier ≠ 0#8 := by simp [State.useCarrier]

theorem carrierRuns_iff {s : State} : s.carrierRuns = true ↔ s.emitter.armed = true ∧ s.regs.carlat ≠ 0#8 := by
  simp [State.carrierRuns]

/-- R152: EMIT begins the pair where it needs no carrier or has one. -/
theorem exec_emit_of_ready {s : State} (hr : s.ready = true)
    (hcar : s.regs.carrier ≠ 0#8 → s.emitter.armed = true ∧ s.regs.carlat ≠ 0#8) :
    exec .emit s = .next (beginPair .emitOn s) :=
  exec_of_ok hr (emitOp_eq_ok.mpr ⟨fun hu => carrierRuns_iff.mpr (hcar (useCarrier_iff.mp hu)), rfl⟩)

/-- Settles O24: the pair that EMIT begins, its carrier flag written out (R26). -/
theorem emitBeginsPair : Obligations.EmitBeginsPair := by
  intro s hr hcar
  rw [exec_emit_of_ready hr hcar, beginPair, if_congr useCarrier_iff rfl rfl, useCarrier_eq_decide]

/-! ## The carrier generator -/

/-- A step of a running generator either wraps the count and toggles the level, or counts on. -/
theorem carStep_running (half c : Nat) (level : Bool) :
    (c + 1 = half ∧ carStep true half (c, level) = (0, !level)) ∨
      (c + 1 ≠ half ∧ carStep true half (c, level) = (c + 1, level)) := by
  by_cases h : c + 1 = half <;> simp [carStep, h]

/-- R160: while it runs, the generator counts modulo the half-period and toggles once for each whole one. -/
theorem carRun_running {half : Nat} (k : Nat) {c : Nat} {level : Bool} (h : c < half) :
    carRun true half k (c, level) = ((c + k) % half, Bool.xor level (decide ((c + k) / half % 2 = 1))) := by
  induction k generalizing c level with
  | zero => simp [carRun, Nat.mod_eq_of_lt h, Nat.div_eq_of_lt h]
  | succ k ih =>
    rw [carRun]
    rcases carStep_running half c level with ⟨hwrap, e⟩ | ⟨hstay, e⟩
    · have hpos : 0 < half := by omega
      have hsum : c + (k + 1) = k + half := by omega
      have htoggle : decide ((k / half + 1) % 2 = 1) = !decide (k / half % 2 = 1) := by
        rw [← decide_not, decide_eq_decide]
        omega
      rw [e, ih hpos, hsum, Nat.zero_add, Nat.add_mod_right, Nat.add_div_right k hpos, htoggle,
        Bool.not_xor, Bool.xor_not]
    · rw [e, ih (by omega), Nat.add_right_comm, Nat.add_assoc]

/-- A generator that does not run is left as it is, at count 0 and level 0. -/
theorem carCycles_emitter_of_stopped {s : State} (k : Nat) (h : s.carrierOk) (hr : s.carrierRuns = false) :
    (carCycles k s).emitter = s.emitter := by
  obtain ⟨hc, hl⟩ : s.emitter.ccnt = 0 ∧ s.emitter.clevel = false := by simpa [State.carrierOk, hr] using h
  simp only [carCycles, State.setEmitter_emitter, hr, hc, hl, carRun_holds]
  rw [← hc, ← hl]

/-- Settles O30: the closed form of a running generator, the stopped one, and the half-period's lookup. -/
theorem carrierIsSquareWave : Obligations.CarrierIsSquareWave := by
  intro s k hok
  refine ⟨fun hr => ?running, carCycles_emitter_of_stopped k hok, fun cp => ⟨?default, ?entry, rfl⟩⟩
  case running =>
    have hlt : s.emitter.ccnt < carHalf s.params s.regs.carlat := by simpa [State.carrierOk, hr] using hok
    simp [carCycles, hr, carRun_running k hlt]
  case default => intro h; simp [carHalf, h]
  case entry => intro n h; simp [carHalf, h]

/-! ## One phase, cycle by cycle -/

@[simp] theorem State.setTimer_irOut (s : State) (d : Word) (p : Nat) : (s.setTimer d p).irOut = s.irOut := rfl
@[simp] theorem State.setTimer_setTimer (s : State) (d d' : Word) (p p' : Nat) :
    (s.setTimer d p).setTimer d' p' = s.setTimer d' p' := rfl

/-- R158: a state that settling does not move. -/
theorem settle_of_running {s : State} (h : s.phaseOver = false) : settle s = s := by
  rw [settle, passPhase_of_running h, passPhase_of_running h]

/-- Two passes are enough: a third finds no phase that is over. -/
theorem settle_passPhase (s : State) : settle (passPhase s) = settle s :=
  passPhase_of_running (settle_not_over s)

/-- The cycles to come are those of the state that has settled. -/
theorem settle_clkCycles_congr {s t : State} (h : settle s = settle t) (k : Nat) :
    settle (clkCycles k s) = settle (clkCycles k t) := by
  cases k with
  | zero => exact h
  | succ k => rw [clkCycles, clkCycles, clkCycle, clkCycle, h]

theorem clkCycles_add (j k : Nat) (s : State) : clkCycles (j + k) s = clkCycles k (clkCycles j s) := by
  induction j generalizing s with
  | zero => rw [Nat.zero_add, clkCycles]
  | succ j ih => rw [Nat.add_right_comm, clkCycles, clkCycles, ih]

theorem phaseOver_of_not_isPhase {s : State} (h : s.seq.isPhase = false) : s.phaseOver = false := by
  simp [State.phaseOver, h]

/-- Outside the phases a `clk` cycle changes nothing. -/
theorem clkCycles_of_not_isPhase {s : State} (h : s.seq.isPhase = false) (k : Nat) : clkCycles k s = s := by
  have hcycle : clkCycle s = s := by simp [clkCycle, settle_of_running (phaseOver_of_not_isPhase h), h]
  induction k with
  | zero => rfl
  | succ k ih => rw [clkCycles, hcycle, ih]

/-- R156: a phase has a cycle left exactly if it has a unit left. -/
theorem cyclesLeft_eq_zero_iff {s : State} (h : s.timerOk) : s.cyclesLeft = 0 ↔ s.emitter.dcnt = 0#16 := by
  obtain ⟨hpre, -⟩ := h
  unfold State.cyclesLeft phaseCycles
  constructor
  · intro hleft
    by_contra hd
    have hunit : 1 ≤ s.emitter.dcnt.toNat := Nat.pos_of_ne_zero fun e => hd (BitVec.eq_of_toNat_eq e)
    have hcycles := Nat.mul_le_mul_right (tickCycles s.params) hunit
    omega
  · intro hd
    simp [hd]

theorem cyclesLeft_of_pre_zero {s : State} (h : s.emitter.pre = 0) :
    s.cyclesLeft = s.emitter.dcnt.toNat * tickCycles s.params := by
  rw [State.cyclesLeft, h, Nat.sub_zero, phaseCycles]

/-- A state in a phase, its unit timer in bounds (R40, R156). -/
structure State.inPhase (s : State) : Prop where
  isPhase : s.seq.isPhase = true
  timerOk : s.timerOk

theorem State.inPhase.dcnt_ne_zero {s : State} (h : s.inPhase) (hleft : s.cyclesLeft ≠ 0) : s.emitter.dcnt ≠ 0#16 :=
  mt (cyclesLeft_eq_zero_iff h.timerOk).mpr hleft

/-- A phase with a cycle left is not over. -/
theorem State.inPhase.not_over {s : State} (h : s.inPhase) (hleft : s.cyclesLeft ≠ 0) : s.phaseOver = false := by
  simp [State.phaseOver, h.dcnt_ne_zero hleft]

/-- R156: a cycle of a phase moves the unit timer alone, and leaves one cycle fewer. -/
theorem State.inPhase.clkCycle_eq {s : State} (h : s.inPhase) (hleft : s.cyclesLeft ≠ 0) :
    ∃ d p, clkCycle s = s.setTimer d p ∧ (s.setTimer d p).inPhase ∧
      (s.setTimer d p).cyclesLeft + 1 = s.cyclesLeft := by
  have hcount : clkCycle s = countCycle s := by simp [clkCycle, settle_of_running (h.not_over hleft), h.isPhase]
  have hd := h.dcnt_ne_zero hleft
  rcases countCycle_cases s with ⟨hp, e⟩ | ⟨hwrap, e⟩
  · refine ⟨s.emitter.dcnt, s.emitter.pre + 1, hcount.trans e, ⟨h.isPhase, hp, fun hd' => absurd hd' hd⟩, ?_⟩
    have hsub : (s.setTimer s.emitter.dcnt (s.emitter.pre + 1)).cyclesLeft = s.cyclesLeft - 1 := Nat.sub_add_eq ..
    omega
  · refine ⟨s.emitter.dcnt - 1#16, 0, hcount.trans e, ⟨h.isPhase, timerOk_of_pre_zero rfl⟩, ?_⟩
    obtain ⟨hpre, -⟩ := h.timerOk
    have hunit : s.emitter.dcnt.toNat = (s.emitter.dcnt - 1#16).toNat + 1 := by bv_omega
    have hleft' : s.cyclesLeft = s.emitter.dcnt.toNat * tickCycles s.params - s.emitter.pre := rfl
    rw [hunit, Nat.succ_mul] at hleft'
    have hnew : (s.setTimer (s.emitter.dcnt - 1#16) 0).cyclesLeft =
      (s.emitter.dcnt - 1#16).toNat * tickCycles s.params := cyclesLeft_of_pre_zero rfl
    omega

/-- The same for as many cycles as the phase has left. -/
theorem State.inPhase.clkCycles_eq {s : State} (h : s.inPhase) {k : Nat} (hk : k ≤ s.cyclesLeft) :
    ∃ d p, clkCycles k s = s.setTimer d p ∧ (s.setTimer d p).inPhase ∧
      (s.setTimer d p).cyclesLeft + k = s.cyclesLeft := by
  induction k generalizing s with
  | zero => exact ⟨s.emitter.dcnt, s.emitter.pre, rfl, h, rfl⟩
  | succ k ih =>
    obtain ⟨d, p, hcycle, hphase, hfewer⟩ := h.clkCycle_eq (by omega)
    obtain ⟨d', p', hcycles, hphase', hleft⟩ := ih hphase (by omega)
    rw [State.setTimer_setTimer] at hcycles hphase' hleft
    exact ⟨d', p', by rw [clkCycles, hcycle, hcycles], hphase', by omega⟩

/-- R156: when its cycles are over, the phase is passed as one whole micro-step passes it. -/
theorem State.inPhase.passPhase_clkCycles {s : State} (h : s.inPhase) :
    passPhase (clkCycles s.cyclesLeft s) = finishPhase s := by
  obtain ⟨d, p, hcycles, hphase, hleft⟩ := h.clkCycles_eq le_rfl
  have hd : d = 0#16 := (cyclesLeft_eq_zero_iff hphase.timerOk).mp (by omega)
  have hp : p = 0 := hphase.timerOk.2 hd
  subst hd hp
  have hover : (s.setTimer 0#16 0).phaseOver = true := phaseOver_iff.mpr ⟨h.isPhase, rfl⟩
  rw [hcycles, passPhase_of_over hover]
  rfl

/-- Settles O29: a whole micro-step of a phase is `finishPhase`, which its cycles come to. -/
theorem wholePhaseIsItsCycles : Obligations.WholePhaseIsItsCycles := fun s hq hok => by
  rw [microStep_of_isPhase hq]
  exact State.inPhase.passPhase_clkCycles ⟨hq, hok⟩

/-- While the phase has cycles left, the next cycle passes in it. -/
theorem State.inPhase.settle_of_lt {s : State} (h : s.inPhase) {k : Nat} (hk : k < s.cyclesLeft) :
    ∃ d p, settle (clkCycles k s) = s.setTimer d p := by
  obtain ⟨d, p, hcycles, hphase, hleft⟩ := h.clkCycles_eq hk.le
  exact ⟨d, p, by rw [hcycles, settle_of_running (hphase.not_over (by omega))]⟩

/-- Once it has none left, the cycles are those of what follows the phase. -/
theorem State.inPhase.settle_of_le {s : State} (h : s.inPhase) {k : Nat} (hk : s.cyclesLeft ≤ k) :
    settle (clkCycles k s) = settle (clkCycles (k - s.cyclesLeft) (finishPhase s)) := by
  obtain ⟨j, rfl⟩ := Nat.exists_eq_add_of_le hk
  rw [clkCycles_add, Nat.add_sub_cancel_left, ← h.passPhase_clkCycles]
  exact settle_clkCycles_congr (settle_passPhase _).symm j

/-! ## A pair, cycle by cycle -/

/-- R152, R184: two phases in a row, with no phase after them, by the number of cycles passed. -/
theorem settle_clkCycles_pair {s : State} (hon : s.inPhase) (hoff : (finishPhase s).inPhase)
    (hend : (finishPhase (finishPhase s)).seq.isPhase = false) (k : Nat) :
    (k < s.cyclesLeft ∧ ∃ d p, settle (clkCycles k s) = s.setTimer d p) ∨
      (s.cyclesLeft ≤ k ∧ k < s.cyclesLeft + (finishPhase s).cyclesLeft ∧
        ∃ d p, settle (clkCycles k s) = (finishPhase s).setTimer d p) ∨
      (s.cyclesLeft + (finishPhase s).cyclesLeft ≤ k ∧ settle (clkCycles k s) = finishPhase (finishPhase s)) := by
  rcases Nat.lt_or_ge k s.cyclesLeft with hk | hk
  · exact .inl ⟨hk, hon.settle_of_lt hk⟩
  · rw [hon.settle_of_le hk]
    rcases Nat.lt_or_ge (k - s.cyclesLeft) (finishPhase s).cyclesLeft with hj | hj
    · exact .inr (.inl ⟨hk, by omega, hoff.settle_of_lt hj⟩)
    · rw [hoff.settle_of_le hj, clkCycles_of_not_isPhase hend, settle_of_running (phaseOver_of_not_isPhase hend)]
      exact .inr (.inr ⟨by omega, rfl⟩)

/-- R47, R152: the output in EMIT's on phase. -/
theorem beginPair_emitOn_irOut (s : State) :
    (beginPair .emitOn s).irOut = (decide (s.regs.carrier = 0#8) || s.emitter.clevel) := by
  have hout : (beginPair .emitOn s).irOut = if s.useCarrier then s.emitter.clevel else true := rfl
  rw [hout, if_congr useCarrier_iff rfl rfl]
  by_cases hcar : s.regs.carrier = 0#8 <;> simp [hcar]

/-- Settles O27: EMIT's pair is an on phase of ON units and an off phase of OFF units, and then the block is idle. -/
theorem emitPhasesLastExactly : Obligations.EmitPhasesLastExactly := by
  intro s hr hcar
  refine ⟨_, exec_emit_of_ready hr hcar, fun k => ?_⟩
  have hon : (beginPair .emitOn s).cyclesLeft = s.regs.on.toNat * tickCycles s.params := cyclesLeft_of_pre_zero rfl
  have hoff : (finishPhase (beginPair .emitOn s)).cyclesLeft = s.regs.off.toNat * tickCycles s.params :=
    cyclesLeft_of_pre_zero rfl
  have hpair := settle_clkCycles_pair (s := beginPair .emitOn s) ⟨rfl, timerOk_of_pre_zero rfl⟩
    ⟨rfl, timerOk_of_pre_zero rfl⟩ rfl k
  rw [hon, hoff, ← Nat.add_mul] at hpair
  have hsum := Nat.mul_le_mul_right (tickCycles s.params) (Nat.le_add_right s.regs.on.toNat s.regs.off.toNat)
  rw [levelInCycle]
  rcases hpair with ⟨hk, d, p, e⟩ | ⟨hk, hk', d, p, e⟩ | ⟨hk, e⟩
  · rw [e, if_pos hk, decide_eq_true hk, Bool.true_and, State.setTimer_irOut]
    exact ⟨rfl, beginPair_emitOn_irOut s⟩
  · rw [e, if_neg hk.not_gt, if_pos hk', decide_eq_false hk.not_gt]
    exact ⟨rfl, rfl⟩
  · have hk' := (hsum.trans hk).not_gt
    rw [e, if_neg hk', if_neg hk.not_gt, decide_eq_false hk']
    exact ⟨rfl, rfl⟩

end Sys2Proof.Machine
end

section
/-!
PLAY's acceptance (R180: O32), its micro-steps as the commands they perform (R181 to R186: O56), and the faults they can
take (R180: O34).
-/

namespace Sys2Proof.Machine

/-! ## Acceptance -/

/-- Settles O32: PLAY always answers, and its micro-step moves the sequencer alone. -/
theorem playAccepted : Obligations.PlayAccepted :=
  fun s hr => ⟨s.setSeq .playLoad, exec_of_ok hr (opOf_play s), rfl, rfl, sameRom_of_eq rfl rfl⟩

/-! ## The commands that PLAY performs -/

/-- The state with the sequencer at `q` and the other agents at `v`. -/
def State.withSeqEnv (s : State) (q : Seq) (v : Env) : State := (s.setSeq q).setEnv v

/-- What is done to the answer of a sequence is done to the answer of its last operation. -/
theorem Except.map_bind {α β γ : Type} (x : Except Trap α) (f : α → Except Trap β) (g : β → γ) :
    (x.bind f).map g = x.bind fun a => (f a).map g := by
  cases x <;> rfl

/-- The commands that PLAY performs neither read nor write the sequencer and the other agents. -/
theorem opOf_withSeqEnv {r : Seq} {i : Instr} (hi : playCommand r = some i) (s : State) (q : Seq) (v : Env) :
    opOf i (s.withSeqEnv q v) = (opOf i s).map fun u => u.withSeqEnv q v := by
  rcases playCommand_cases hi with ⟨-, rfl⟩ | ⟨-, rfl⟩ | ⟨-, rfl⟩ | ⟨-, rfl⟩ | ⟨-, rfl⟩
  case inl =>
    simp only [opOf, loadOp, Except.map_bind, apply_ite (Except.map _)]
    rfl
  case inr.inr.inl =>
    have hread : readBits (s.withSeqEnv q v) s.regs.width.toNat = readBits s s.regs.width.toNat :=
      readBitsLoop_congr (s := s) (t := s.withSeqEnv q v) rfl rfl _ _ _
    simp only [opOf, nextOp, Except.map_bind, apply_ite (Except.map _), ← hread]
    rfl
  all_goals rfl

/-- What follows such a command sets the sequencer, wherever it was. -/
theorem playThen_withSeqEnv {r : Seq} {i : Instr} (hi : playCommand r = some i) (u : State) (q : Seq) (v : Env) :
    playThen i (u.withSeqEnv q v) = (playThen i u).setEnv v := by
  rcases playCommand_cases hi with ⟨-, rfl⟩ | ⟨-, rfl⟩ | ⟨-, rfl⟩ | ⟨-, rfl⟩ | ⟨-, rfl⟩ <;> rfl

/-- A micro-step of PLAY against its command, issued with the sequencer idle: its fault is taken, or PLAY moves on. -/
theorem exec_then_microStep {s : State} {i : Instr} (hrst : s.env.rst = false) (hf : s.flt.fault = false)
    (hi : playCommand s.seq = some i) : ∃ u, exec i (s.setSeq .idle) = .next u ∧
      microStep s = if u.flt.fault then u else playThen i u := by
  have hr : (s.setSeq .idle).ready = true := ready_iff.mpr ⟨hrst, hf, rfl⟩
  have hop : opOf i (s.setSeq .idle) = (opOf i s).map fun u => u.withSeqEnv .idle s.env :=
    opOf_withSeqEnv hi s .idle s.env
  rcases microStep_of_playCommand hi with ⟨x, ho, e⟩ | ⟨u, ho, e⟩
  · rw [ho] at hop
    exact ⟨raise x (s.setSeq .idle), by rw [exec_eq_issue, issue_of_error hr hop], e⟩
  · rw [ho] at hop
    obtain ⟨hflt, -, -, henv, -⟩ := opOf_shape ho
    have hfault : ¬ (u.withSeqEnv .idle s.env).flt.fault = true := by
      show ¬ u.flt.fault = true
      simp [hflt, hf]
    refine ⟨u.withSeqEnv .idle s.env, exec_of_ok hr hop, ?_⟩
    rw [if_neg hfault, e, playThen_withSeqEnv hi, ← henv, ← playThen_env i u]
    rfl

/-- The same for a command that answers. -/
theorem exec_then_microStep_of_ok {s u : State} {i : Instr} (hrst : s.env.rst = false) (hf : s.flt.fault = false)
    (hi : playCommand s.seq = some i) (ho : opOf i (s.setSeq .idle) = .ok u) :
    exec i (s.setSeq .idle) = .next u ∧ microStep s = playThen i u := by
  obtain ⟨w, hw, e⟩ := exec_then_microStep hrst hf hi
  obtain rfl := Host.Outcome.next.inj (hw.symm.trans (exec_of_ok (ready_iff.mpr ⟨hrst, hf, rfl⟩) ho))
  obtain ⟨hflt, -⟩ := opOf_shape ho
  exact ⟨hw, e.trans (if_neg (by simp [hflt, hf]))⟩

/-- R152, R183: the start of a pair, its carrier flag written out (R26). -/
theorem beginPair_eq (q : Seq) (s : State) : beginPair q s =
    ((s.log (.emit s.regs.on s.regs.off (decide (s.regs.carrier ≠ 0#8))
        (if s.regs.carrier ≠ 0#8 then s.regs.carlat else 0#8))).setEmitter
      { s.emitter with flag := decide (s.regs.carrier ≠ 0#8), dcnt := s.regs.on, pre := 0 }).setSeq q := by
  rw [beginPair, if_congr useCarrier_iff rfl rfl, useCarrier_eq_decide]

/-- Settles O56: each command against its micro-step, and what follows it written out. -/
theorem playPerformsTheCommands : Obligations.PlayPerformsTheCommands := by
  intro s hrst hf
  refine ⟨fun hs => ?load, fun hs => ?arm, fun hs => ?next, fun hs => ?clrbuf, fun hs => ?disarm⟩
  case load => exact exec_then_microStep hrst hf (i := .load) (by rw [hs]; rfl)
  case arm =>
    exact ⟨afterArm (s.setSeq .idle), exec_then_microStep_of_ok hrst hf (by rw [hs]; rfl) (opOf_arm _)⟩
  case next =>
    obtain ⟨u, hu, e⟩ := exec_then_microStep hrst hf (i := .next) (by rw [hs]; rfl)
    exact ⟨u, hu, by rw [e, playThen, beginPair_eq]⟩
  case clrbuf =>
    exact ⟨afterClrbuf (s.setSeq .idle), exec_then_microStep_of_ok hrst hf (by rw [hs]; rfl) (opOf_clrbuf _)⟩
  case disarm =>
    exact ⟨afterDisarm (s.setSeq .idle), exec_then_microStep_of_ok hrst hf (by rw [hs]; rfl) (opOf_disarm _)⟩

/-! ## The faults of PLAY -/

/-- Where not all of the `n` addresses from `a` up are there, one of them is the first that is not. -/
theorem exists_firstAbsent {s : State} {a : Word} {n : Nat} (h : ¬ ∀ k < n, s.present (a + BitVec.ofNat 16 k)) :
    ∃ k < n, s.firstAbsent a k := by
  have hex : ∃ k, k < n ∧ ¬ s.present (a + BitVec.ofNat 16 k) := by simpa using h
  obtain ⟨hlt, habs⟩ := Nat.find_spec hex
  exact ⟨Nat.find hex, hlt, fun j hj => by_contra fun hp => Nat.find_min hex hj ⟨hj.trans hlt, hp⟩, habs⟩

/-- LOAD, if it faults: one of its two faults (R130). -/
theorem loadOp_error_code {s : State} {x : Trap} (h : loadOp s = .error x) :
    x.code = .romRange ∨ x.code = .badWidth := by
  by_cases hp : ∀ k < 5, s.present (s.regs.addr + BitVec.ofNat 16 k)
  · by_cases hw : 1 ≤ (recordAt s.rom s.regs.addr).indexWidth.toNat ∧ (recordAt s.rom s.regs.addr).indexWidth.toNat ≤ 8
    · cases h.symm.trans (loadOp_of_present hp hw)
    · cases h.symm.trans (loadOp_of_badWidth hp hw)
      exact .inr rfl
  · obtain ⟨k, hk, ha⟩ := exists_firstAbsent hp
    cases h.symm.trans (loadOp_of_firstAbsent hk ha)
    exact .inl rfl

/-- A micro-step that faults is one of PLAY's, and takes the fault of its command. -/
theorem microStep_faults {s : State} (hf : s.flt.fault = false) (h : (microStep s).flt.fault = true) :
    ∃ i x, playCommand s.seq = some i ∧ opOf i s = .error x ∧ (microStep s).flt.fcode = x.code.num := by
  rcases microStep_kinds s with ⟨-, e⟩ | ⟨-, e⟩ | ⟨i, hi⟩
  · simp [e, hf] at h
  · simp [e, finishPhase, hf] at h
  · rcases microStep_of_playCommand hi with ⟨x, ho, e⟩ | ⟨u, ho, e⟩
    · exact ⟨i, x, hi, ho, by rw [e, raise_flt]⟩
    · obtain ⟨hflt, -⟩ := opOf_shape ho
      simp [e, hflt, hf] at h

/-- Settles O34: LOAD's two faults; of NEXT's, those that the width and the pairs PLAY has established leave over; the
other commands of PLAY always answer. -/
theorem playFaultsOnlyAsListed : Obligations.PlayFaultsOnlyAsListed := by
  intro s hinv hf h
  obtain ⟨-, -, -, -, -, ⟨-, hwidth, -, hpairs⟩, -⟩ := inv_iff.mp hinv
  obtain ⟨i, x, hi, ho, hcode⟩ := microStep_faults hf h
  rw [hcode]
  rcases playCommand_cases hi with ⟨hs, rfl⟩ | ⟨hs, rfl⟩ | ⟨hs, rfl⟩ | ⟨hs, rfl⟩ | ⟨hs, rfl⟩
  case inl =>
    exact .inl ⟨hs, (loadOp_error_code ho).imp (congrArg FaultCode.num) (congrArg FaultCode.num)⟩
  case inr.inr.inl =>
    refine .inr ⟨hs, ?_⟩
    rcases nextOp_error_code ho with ⟨-, hw⟩ | ⟨-, hp⟩ | ⟨hc, -⟩ | ⟨hc, -⟩
    · exact absurd (hwidth (.inr (.inl hs))) hw
    · exact absurd hp (hpairs hs)
    · exact .inl (by rw [hc])
    · exact .inr (by rw [hc])
  all_goals cases ho

end Sys2Proof.Machine
end

section
/-!
The phases of a pair that PLAY begins, cycle by cycle (R183, R184, R156 to R158: O28).
-/

namespace Sys2Proof.Machine

/-- R183: a PLAY_NEXT that does not fault performs NEXT and begins the pair. -/
theorem microStep_playNext_eq {s : State} (hs : s.seq = .playNext) (hon : (microStep s).seq = .playOn) :
    ∃ u, opOf .next s = .ok u ∧ microStep s = beginPair .playOn u := by
  have hi : playCommand s.seq = some .next := by rw [hs]; rfl
  rcases microStep_of_playCommand hi with ⟨x, -, e⟩ | ok
  · simp [e] at hon
  · exact ok

/-- PLAY is in none of its phases after a pair (R44). -/
theorem afterPair_not_isPhase (s : State) : (afterPair s).isPhase = false := by
  rcases afterPair_cases s with ⟨-, e⟩ | ⟨-, e⟩ <;> rw [e] <;> rfl

theorem irOut_of_not_isPhase {s : State} (h : s.seq.isPhase = false) : s.irOut = false := by
  have hoff : s.phaseOn = false := by
    unfold State.phaseOn
    cases hs : s.seq <;> simp_all [Seq.isPhase, Seq.phaseOn]
  rw [State.irOut, hoff, Bool.false_and]

/-- R184, R270: PLAY's pair is an on phase of ON units and an off phase of OFF units, and then PLAY goes on. -/
theorem settle_clkCycles_beginPair_playOn (u : State) (k : Nat) :
    (settle (clkCycles k (beginPair .playOn u))).seq =
        (if k < u.regs.on.toNat * tickCycles u.params then .playOn
        else if k < (u.regs.on.toNat + u.regs.off.toNat) * tickCycles u.params then .playOff else afterPair u) ∧
      levelInCycle (clkCycles k (beginPair .playOn u)) =
        (decide (k < u.regs.on.toNat * tickCycles u.params) &&
          (decide (u.regs.carrier = 0#8) || u.emitter.clevel)) := by
  have hon : (beginPair .playOn u).cyclesLeft = u.regs.on.toNat * tickCycles u.params := cyclesLeft_of_pre_zero rfl
  have hoff : (finishPhase (beginPair .playOn u)).cyclesLeft = u.regs.off.toNat * tickCycles u.params :=
    cyclesLeft_of_pre_zero rfl
  have hend : (finishPhase (finishPhase (beginPair .playOn u))).seq = afterPair u := by rw [finishPhases_play]; rfl
  have hgone := hend ▸ afterPair_not_isPhase u
  have hpair := settle_clkCycles_pair (s := beginPair .playOn u) ⟨rfl, timerOk_of_pre_zero rfl⟩
    ⟨rfl, timerOk_of_pre_zero rfl⟩ hgone k
  rw [hon, hoff, ← Nat.add_mul] at hpair
  have hsum := Nat.mul_le_mul_right (tickCycles u.params) (Nat.le_add_right u.regs.on.toNat u.regs.off.toNat)
  rw [levelInCycle]
  rcases hpair with ⟨hk, d, p, e⟩ | ⟨hk, hk', d, p, e⟩ | ⟨hk, e⟩
  · rw [e, if_pos hk, decide_eq_true hk, Bool.true_and, State.setTimer_irOut]
    exact ⟨rfl, beginPair_emitOn_irOut u⟩
  · rw [e, if_neg hk.not_gt, if_pos hk', decide_eq_false hk.not_gt]
    exact ⟨rfl, rfl⟩
  · have hk' := (hsum.trans hk).not_gt
    rw [e, if_neg hk', if_neg hk.not_gt, decide_eq_false hk', Bool.false_and]
    exact ⟨hend, irOut_of_not_isPhase hgone⟩

/-- Settles O28: the pair that PLAY_NEXT begins, its carrier flag written out, and its phases. -/
theorem playPhasesLastExactly : Obligations.PlayPhasesLastExactly := by
  rintro s - hs rfl hon
  obtain ⟨u, -, e⟩ := microStep_playNext_eq hs hon
  rw [e]
  exact ⟨useCarrier_eq_decide u, rfl, rfl, settle_clkCycles_beginPair_playOn u⟩

end Sys2Proof.Machine
end

section
/-!
A whole PLAY by scheduled turns (R187, R188, R190: O35). With the host at rest a free turn is a micro-step, so a run of
scheduled micro-steps is followed by the free run of the same block; the registers and the cursor are kept pair by pair.
-/

namespace Sys2Proof.Machine

/-! ## Scheduled micro-steps -/

theorem endPhase_setEnv (s : State) (v : Env) : endPhase (s.setEnv v) = (endPhase s).setEnv v := by
  have hseq : (s.setEnv v).seq = s.seq := rfl
  unfold endPhase
  rw [hseq]
  split <;> rfl

/-- A micro-step of PLAY is its command's operation, PLAY's move on, and the commit. -/
theorem microStep_eq_commit {s : State} {i : Instr} (hi : playCommand s.seq = some i) :
    microStep s = commit s ((opOf i s).map (playThen i)) := by
  rcases microStep_of_playCommand hi with ⟨x, ho, e⟩ | ⟨u, ho, e⟩ <;> rw [e, ho] <;> rfl

/-- A micro-step neither reads nor writes the other agents. -/
theorem microStep_setEnv (s : State) (v : Env) : microStep (s.setEnv v) = (microStep s).setEnv v := by
  rcases microStep_kinds s with ⟨hq, e⟩ | ⟨hq, -⟩ | ⟨i, hi⟩
  · have hb : s.seq.busy = false := by rcases hq with hq | hq <;> rw [hq] <;> rfl
    rw [e]
    exact microStep_of_not_busy hb
  · rw [microStep_of_isPhase hq, microStep_of_isPhase (s := s.setEnv v) hq]
    exact endPhase_setEnv (s.setTimer 0#16 0) v
  · have hop : opOf i (s.setEnv v) = (opOf i s).map fun u => u.withSeqEnv s.seq v := opOf_withSeqEnv hi s s.seq v
    rw [microStep_eq_commit hi, microStep_eq_commit (s := s.setEnv v) hi, hop]
    cases opOf i s with
    | error x => rfl
    | ok u => exact playThen_withSeqEnv hi u s.seq v

/-- The same block, with the host at rest and nothing scheduled. -/
def State.alone (s : State) : State := s.setEnv { s.env with schedule := [], prog := [], wakes := 0 }

theorem microStep_alone (s : State) : microStep s.alone = (microStep s).alone := by
  obtain ⟨-, henv, -⟩ := microStep_frame s
  rw [State.alone, State.alone, microStep_setEnv, henv]

/-- With the host at rest a free turn is a micro-step, whether or not the block is busy. -/
theorem step_alone {s : State} (hrst : s.env.rst = false) : step s.alone = .next (microStep (freeCarrier s)).alone := by
  rw [← microStep_alone]
  have hr : s.alone.env.rst = false := hrst
  cases hb : s.busy
  case true => exact step_of_busy rfl hr hb
  case false =>
    have hstep : step s.alone = .next (freeCarrier s.alone) := by
      have hb' : s.alone.busy = false := hb
      rcases step_cases s.alone with ⟨t, ts, h, -⟩ | ⟨-, h, -⟩ | ⟨-, -, h, -⟩ | ⟨-, -, -, e⟩
      · cases h
      · simp [hr] at h
      · simp [hb'] at h
      · exact e
    rw [hstep]
    exact congrArg _ (microStep_of_not_busy (s := (freeCarrier s).alone) hb).symm

/-- Scheduled micro-steps run the block as free turns do with the host at rest. -/
theorem run_micros {k : Nat} {s : State} {ts : List Turn} (hrst : s.env.rst = false)
    (hs : s.env.schedule = List.replicate k .micro ++ ts) :
    ∃ u, Host.Core.run core k s = .next u ∧ Host.Core.run core k s.alone = .next u.alone ∧
      u.env.schedule = ts ∧ u.env.prog = s.env.prog := by
  induction k generalizing s with
  | zero => exact ⟨s, rfl, rfl, hs, rfl⟩
  | succ k ih =>
    have hstep := step_of_scheduled hs
    obtain ⟨-, henv, -⟩ := microStep_frame
      (freeCarrier (s.setEnv { s.env with schedule := List.replicate k .micro ++ ts }))
    obtain ⟨u, hu, halone, hsched, hprog⟩ := ih (by rw [henv]; exact hrst) (by rw [henv]; rfl)
    refine ⟨u, (run_succ hstep).trans hu, ?_, hsched, hprog.trans (by rw [henv]; rfl)⟩
    have hfree := step_alone (s := s.setEnv { s.env with schedule := List.replicate k .micro ++ ts }) hrst
    exact (run_succ hfree).trans halone

/-- The host's PLAY, as a scheduled turn: the block is at PLAY_LOAD and the line is used up (R180). -/
theorem step_of_play {s : State} {ts : List Turn} {p : List HostLine} (hr : s.ready = true)
    (hs : s.env.schedule = .host :: ts) (hp : s.env.prog = cmdLine .play :: p) :
    ∃ t, step s = .next t ∧ t.block = (s.setSeq .playLoad).block ∧
      t.env = { s.env with schedule := ts, prog := p } := by
  refine ⟨(setProg p (s.setEnv { s.env with schedule := ts })).setSeq .playLoad, ?_, rfl, rfl⟩
  rw [step_of_host_line hs hp, cmdLine, runLine, hostWrite_cmd_of_decode (decode_encode rfl)]
  exact exec_of_ok hr (opOf_play _)

/-- A PLAY by the host and then micro-steps, all scheduled, lead the block where a free run leads it. -/
theorem Leads.run_of_play {s b : State} {k : Nat} {ts : List Turn} {p : List HostLine}
    (h : Leads k (s.setSeq .playLoad).block [] b []) (hr : s.ready = true)
    (hs : s.env.schedule = .host :: (List.replicate k .micro ++ ts)) (hp : s.env.prog = cmdLine .play :: p) :
    ∃ u, Host.Core.run core (k + 1) s = .next u ∧ u.block = b ∧ u.env.schedule = ts ∧ u.env.prog = p := by
  obtain ⟨t, hfirst, hblock, henv⟩ := step_of_play hr hs hp
  have hrst : t.env.rst = false := by rw [henv]; exact rst_low_of_ready hr
  obtain ⟨u, hu, halone, hsched, hprog⟩ := run_micros hrst (by rw [henv])
  obtain ⟨w, hw, hstands⟩ := h t.alone ⟨hblock, rfl, hrst, rfl⟩
  obtain rfl := Host.Outcome.next.inj (hw.symm.trans halone)
  exact ⟨u, (run_succ hfirst).trans hu, hstands.block, hsched, hprog.trans (by rw [henv])⟩

/-! ## The registers and the cursor, pair by pair -/

/-- The registers after `i` pairs of the code at ADDR are played, from `s` on: the rows of R190. -/
def playedRegs (s : State) (i : Nat) : Regs :=
  { s.regs with
    carrier := (recordAt s.rom s.regs.addr).carrierPeriod
    pairs := BitVec.ofNat 8 ((recordAt s.rom s.regs.addr).pairCount.toNat - i)
    width := (recordAt s.rom s.regs.addr).indexWidth
    ttbase := (recordAt s.rom s.regs.addr).tableRef
    carlat := (recordAt s.rom s.regs.addr).carrierPeriod
    on := if i = 0 then s.regs.on else (codePair s.rom s.regs.addr (i - 1)).1
    off := if i = 0 then s.regs.off else (codePair s.rom s.regs.addr (i - 1)).2
    index := if i = 0 then s.regs.index
      else BitVec.ofNat 8 (indexAt s.rom s.regs.addr (recordAt s.rom s.regs.addr).indexWidth.toNat (i - 1)) }

/-- The cursor's byte after `i` pairs of the code at ADDR are played: the last packed byte read, if any was (R190). -/
def playedByte (s : State) (i : Nat) : Byte :=
  if i = 0 then s.cursor.bbyte
  else romByte s.rom (s.regs.addr + 4#16 +
    BitVec.ofNat 16 (packedLen i (recordAt s.rom s.regs.addr).indexWidth.toNat))

/-- `b` is an idle block after `i` pairs of the code at ADDR have been played, from `s` on, with all that is then known
of its registers, its buffer and its fault record. -/
structure PlayedTo (s : State) (i : Nat) (b : State) : Prop extends SentTo s s.regs.addr i b where
  regs : b.regs = playedRegs s i
  bbyte : b.cursor.bbyte = playedByte s i
  flt : b.flt = s.flt

section
variable {s b : State} {i : Nat}

/-- NEXT writes the rows of one pair more. -/
theorem PlayedTo.afterNext_regs (h : PlayedTo s i b) (hc : s.codeOk s.regs.addr)
    (hi : i < (recordAt s.rom s.regs.addr).pairCount.toNat) : (afterNext b).regs = playedRegs s (i + 1) := by
  have hpair := h.afterNext_pair hc
  have hindex : nextIndex b = BitVec.ofNat 8
      (indexAt s.rom s.regs.addr (recordAt s.rom s.regs.addr).indexWidth.toNat i) := by
    rw [← h.nextIndex_toNat hc, BitVec.ofNat_toNat, BitVec.setWidth_eq]
  have hpairs : (afterNext b).regs.pairs =
      BitVec.ofNat 8 ((recordAt s.rom s.regs.addr).pairCount.toNat - (i + 1)) := by
    rw [← (h.toDecodedTo.next hc hi).pairs, BitVec.ofNat_toNat, BitVec.setWidth_eq]
  calc (afterNext b).regs
      = { b.regs with
          on := (codePair s.rom s.regs.addr i).1, off := (codePair s.rom s.regs.addr i).2
          index := nextIndex b, pairs := (afterNext b).regs.pairs } := by rw [← hpair]; rfl
    _ = playedRegs s (i + 1) := by rw [hindex, hpairs, h.regs]; rfl

/-- NEXT leaves the last packed byte read in the buffer. -/
theorem PlayedTo.afterNext_bbyte (h : PlayedTo s i b) (hc : s.codeOk s.regs.addr)
    (hi : i < (recordAt s.rom s.regs.addr).pairCount.toNat) : (afterNext b).cursor.bbyte = playedByte s (i + 1) := by
  obtain ⟨hptr, -⟩ := (h.toDecodedTo.next hc hi).cursor_eq
  obtain ⟨-, hbyte⟩ := cursorAfter_hasRead h.cursor (h.mayDecode hc hi).width
  have haddr : (afterNext b).cursor.ptr - 1#16 = s.regs.addr + 4#16 +
      BitVec.ofNat 16 (packedLen (i + 1) (recordAt s.rom s.regs.addr).indexWidth.toNat) := by
    rw [hptr]
    bv_omega
  rw [playedByte, if_neg (Nat.succ_ne_zero i), ← haddr, ← h.rom]
  exact hbyte

theorem PlayedTo.next (h : PlayedTo s i b) (hc : s.codeOk s.regs.addr)
    (hi : i < (recordAt s.rom s.regs.addr).pairCount.toNat) : PlayedTo s (i + 1) (pairSent b) where
  toSentTo := h.toSentTo.next hc hi
  regs := h.afterNext_regs hc hi
  bbyte := h.afterNext_bbyte hc hi
  flt := h.flt

theorem codeArmed_playedTo (hr : s.ready = true) (hseq : s.seq = .idle) :
    PlayedTo s 0 (codeArmed s s.regs.addr) where
  toSentTo := codeArmed_sentTo hr hseq
  regs := by simp [codeArmed, afterArm, afterLoad, storeReg, playedRegs]
  bbyte := rfl
  flt := rfl

/-- PLAY plays the rest of the code's pairs (R183, R184). -/
theorem PlayedTo.leads_rest {n : Nat} (h : PlayedTo s i b) (hc : s.codeOk s.regs.addr)
    (hn : i + n = (recordAt s.rom s.regs.addr).pairCount.toNat) (l : List HostLine) :
    ∃ b', PlayedTo s (recordAt s.rom s.regs.addr).pairCount.toNat b' ∧
      Leads (3 * n) (b.setSeq (afterPair b)) l (b'.setSeq (afterPair b')) l := by
  induction n generalizing i b with
  | zero => exact ⟨b, hn ▸ h, .refl _ l⟩
  | succ n ih =>
    have hi : i < (recordAt s.rom s.regs.addr).pairCount.toNat := by omega
    obtain ⟨b', hplayed, hrest⟩ := ih (h.next hc hi) (by omega)
    rw [Nat.mul_succ, Nat.add_comm]
    exact ⟨b', hplayed, (h.leads_playPair hc hi).trans hrest⟩

/-- All of PLAY, from PLAY_LOAD to IDLE (R180 to R186). -/
theorem leads_play (hr : s.ready = true) (hseq : s.seq = .idle) (hc : s.codeOk s.regs.addr) (l : List HostLine) :
    ∃ b, PlayedTo s (recordAt s.rom s.regs.addr).pairCount.toNat b ∧
      Leads (4 + 3 * (recordAt s.rom s.regs.addr).pairCount.toNat) (s.setSeq .playLoad) l
        ((afterDisarm (afterClrbuf b)).setSeq .idle) l := by
  obtain ⟨b, hplayed, hpairs⟩ := (codeArmed_playedTo hr hseq).leads_rest hc (Nat.zero_add _) l
  refine ⟨b, hplayed, ?_⟩
  have hload := Leads.play (b := s.setSeq .playLoad) (l := l) rfl (loadOp_of_codeOk (s := s.setSeq .playLoad) hc)
  have harm : Leads 1 ((afterLoad s).setSeq .playArm) l
      ((codeArmed s s.regs.addr).setSeq (afterPair (codeArmed s s.regs.addr))) l := .play rfl (opOf_arm _)
  have hlast : afterPair b = .playClr := if_pos (BitVec.eq_of_toNat_eq (hplayed.pairs.trans (Nat.sub_self _)))
  have hclr := Leads.play (b := b.setSeq .playClr) (l := l) rfl (opOf_clrbuf _)
  have hdisarm := Leads.play (b := (afterClrbuf b).setSeq .playDisarm) (l := l) rfl (opOf_disarm _)
  have hcount : 4 + 3 * (recordAt s.rom s.regs.addr).pairCount.toNat =
      1 + 1 + (3 * (recordAt s.rom s.regs.addr).pairCount.toNat + (1 + 1)) := by omega
  rw [hlast] at hpairs
  rw [hcount]
  exact (hload.trans harm).trans (hpairs.trans (hclr.trans hdisarm))

end

/-- Settles O35: the run of `leads_play`, scheduled, and what it leaves in each field of the block. -/
theorem playPlaysWholeCode : Obligations.PlayPlaysWholeCode := by
  rintro s h p ts hr hc rfl hp hs
  obtain ⟨-, hf, -⟩ := ready_iff.mp hr
  obtain ⟨b, hplayed, hleads⟩ := leads_play (s := (s.setSeq .idle).block) (ready_iff.mpr ⟨rfl, hf, rfl⟩) rfl hc []
  obtain ⟨u, hrun, hblock, hsched, hprog⟩ := Leads.run_of_play (s := s) hleads hr hs hp
  have hfield {α : Type} (f : State → α) : f u.block = f ((afterDisarm (afterClrbuf b)).setSeq .idle) :=
    congrArg f hblock
  have hzero : (recordAt s.rom s.regs.addr).pairCount.toNat = 0 ↔ (recordAt s.rom s.regs.addr).pairCount = 0#8 :=
    BitVec.toNat_inj (y := 0#8)
  refine ⟨u, ?run, ?trace, hfield State.seq, (hfield State.flt).trans hplayed.flt, ?regs, ?ptr,
    hfield (·.cursor.nbits), ?bbyte, hfield (·.emitter.armed), ?rom, hsched, hprog⟩
  case run =>
    rw [Nat.add_right_comm 4 1]
    exact hrun
  case trace => exact (hfield State.trace).trans hplayed.afterDisarm_trace
  case regs =>
    refine (hfield State.regs).trans (hplayed.regs.trans ?_)
    simp only [playedRegs, ← hzero, Nat.sub_self]
    rfl
  case ptr =>
    obtain ⟨hptr, -⟩ := hplayed.cursor_eq
    exact (hfield (·.cursor.ptr)).trans hptr
  case bbyte =>
    refine (hfield (·.cursor.bbyte)).trans (hplayed.bbyte.trans ?_)
    rw [← if_congr hzero rfl rfl]
    rfl
  case rom => exact sameRom_of_eq ((hfield State.rom).trans hplayed.rom) ((hfield State.params).trans hplayed.params)

end Sys2Proof.Machine
end

section
/-!
The host's transactions and lines (R200 to R202, R207, R209): commands (O4, O5), writes (O6), reads (O8), the stop on a
fault (O51), and wakes (O52).
-/

namespace Sys2Proof.Machine

/-! ## Commands -/

/-- With nothing scheduled, `rst` low and the block not busy, the host runs its next line after a free carrier run. -/
theorem step_of_free_line {s : State} {line : HostLine} {rest : List HostLine} (hs : s.env.schedule = [])
    (hr : s.env.rst = false) (hb : s.busy = false) (hp : s.env.prog = line :: rest) :
    step s = runLine line rest (freeCarrier s) :=
  (⟨rfl, hs, hr, hp⟩ : Stands s.block (line :: rest) s).step_line hb

/-- Settles O4: on either turn the host runs its line, a write to CMD of a word that decodes. -/
theorem stepRunsDecodedCommand : Obligations.StepRunsDecodedCommand := by
  intro s p w i hp hd
  refine ⟨fun ts hs => ?scheduled, fun hs hr hb => ?free⟩
  case scheduled =>
    rw [step_of_host_line hs hp, runLine, hostWrite_cmd_of_decode hd]
    rfl
  case free =>
    rw [step_of_free_line hs hr hb hp, runLine, hostWrite_cmd_of_decode hd]
    rfl

/-- A word's own number, cut to 16 bits, is the word. -/
theorem withFetchWord_toNat (s : State) (w : Word) : s.withFetchWord 16 w.toNat = placeCommand w s := by
  rw [State.withFetchWord, Nat.mod_eq_of_lt w.isLt, BitVec.ofNat_toNat, BitVec.setWidth_eq]

/-- Settles O5: the placed word decodes to the command, and taking the placed line and turn away leaves `s` (O4). -/
theorem placedCommandRuns : Obligations.PlacedCommandRuns := by
  intro s i hwf
  rw [withFetchWord_toNat]
  obtain ⟨scheduled, -⟩ := stepRunsDecodedCommand (placeCommand (encode i) s) s.env.prog (encode i) i rfl
    (decode_encode hwf)
  exact scheduled s.env.schedule rfl

/-! ## Writes -/

theorem commit_opOf_env (i : Instr) (s : State) : (commit s (opOf i s)).env = s.env := by
  rcases commit_cases (rfl : commit s (opOf i s) = _) with ho | ⟨x, -, e⟩
  · obtain ⟨-, -, -, henv, -⟩ := opOf_shape ho
    exact henv
  · rw [e, raise_env]

/-- Every host write is an effect behind the acceptance checks (R202), and none touches the other agents. -/
theorem hostWrite_eq_accept (r : Reg) (v : Word) (s : State) :
    ∃ k, (∀ u, (k u).env = u.env) ∧ hostWrite r v s = .next (accept r s k) := by
  rcases hostWrite_cases r v s with ⟨i, rfl, -, e⟩ | ⟨-, rfl, -, e⟩ | ⟨-, e⟩
  · exact ⟨_, commit_opOf_env i, e.trans (exec_eq_issue i s)⟩
  · exact ⟨raise ⟨.illegalCmd, v⟩, fun _ => rfl, e⟩
  · exact ⟨_, fun u => storeReg_env u r v, e⟩

/-- A write has no effect while `rst` is high (R250) or FAULT is 1 (R202). -/
theorem accept_of_blocked {s : State} (h : s.env.rst = true ∨ s.flt.fault = true) (r : Reg) (k : State → State) :
    accept r s k = s := by
  rcases h with h | h <;> simp [accept, h]

theorem accept_of_busy {s : State} (hr : s.env.rst = false) (hf : s.flt.fault = false) (hb : s.busy = true) (r : Reg)
    (k : State → State) : accept r s k = raise ⟨.busyViolation, r.num.setWidth 16⟩ s := by
  simp [accept, hr, hf, hb]

theorem accept_env (r : Reg) (s : State) {k : State → State} (hk : ∀ u, (k u).env = u.env) :
    (accept r s k).env = s.env := by
  rcases accept_cases r s k with ⟨-, e⟩ | ⟨-, -, -, e⟩ | ⟨-, e⟩ <;> rw [e]
  · rfl
  · exact hk s

/-- A read-only register stores nothing (R21). -/
theorem storeReg_of_readOnly {r : Reg} (h : r.hostWritable = false) (s : State) (v : Word) : storeReg s r v = s := by
  cases r
  case cmd | status | data | ptr | buf | index | finfo | carlat => rfl
  all_goals cases h

/-- A 16-bit read of an 8-bit register is its number. -/
theorem byte_setWidth_toNat (b : Byte) : (b.setWidth 16).toNat = b.toNat :=
  BitVec.toNat_setWidth_of_le (by decide)

/-- A RW register reads what was stored, cut to its width (R21). -/
theorem readReg_storeReg_self {r : Reg} (h : r.hostWritable = true) (s : State) (v : Word) :
    (readReg (storeReg s r v) r).toNat = v.toNat % 2 ^ r.usedWidth := by
  cases r
  case addr | ttbase | on | off | ttlim => exact (Nat.mod_eq_of_lt v.isLt).symm
  case carrier | pairs | width => exact (byte_setWidth_toNat _).trans (BitVec.toNat_setWidth 8 v)
  all_goals cases h

/-- No other register reads otherwise after a store (R21). -/
theorem readReg_storeReg_of_ne {r r' : Reg} (h : r' ≠ r) (s : State) (v : Word) :
    readReg (storeReg s r v) r' = readReg s r' := by
  cases r
  case cmd | status | data | ptr | buf | index | finfo | carlat => rfl
  all_goals cases r'
  case addr.addr | carrier.carrier | pairs.pairs | width.width | ttbase.ttbase | on.on | off.off | ttlim.ttlim =>
    exact absurd rfl h
  all_goals rfl

/-- Settles O6: the acceptance checks one after the other, and where they pass the command, the fault or the store. -/
theorem hostWriteAcceptance : Obligations.HostWriteAcceptance := by
  intro s r v
  obtain ⟨k, -, hwrite⟩ := hostWrite_eq_accept r v s
  refine ⟨fun h => ?blocked, fun hr hf hb => ?busy, ?command, ?illegal, fun hr hw => ?writable,
    fun hr hcmd hw => ?readOnly⟩
  case blocked => rw [hwrite, accept_of_blocked h]
  case busy =>
    rw [hwrite, accept_of_busy hr hf hb, BitVec.ofNat_toNat]
    exact ⟨_, rfl, faultedAs_raise _ s⟩
  case command =>
    rintro - rfl i hd
    exact hostWrite_cmd_of_decode hd s
  case illegal =>
    rintro hr rfl hd
    exact ⟨_, hostWrite_illegal hr hd, faultedAs_raise _ s⟩
  case writable =>
    have hcmd : r ≠ .cmd := by
      rintro rfl
      cases hw
    rw [hostWrite_of_ne_cmd hcmd, accept_of_ready hr]
    exact ⟨_, rfl, readReg_storeReg_self hw s v, fun _ hne => readReg_storeReg_of_ne hne s v, storeReg_cursor s r v,
      storeReg_emitter s r v, storeReg_seq s r v, storeReg_flt s r v, storeReg_trace s r v, storeReg_env s r v,
      sameRom_of_eq (storeReg_rom s r v) (storeReg_params s r v)⟩
  case readOnly => rw [hostWrite_of_ne_cmd hcmd, accept_of_ready hr, storeReg_of_readOnly hw]

/-! ## Reads -/

/-- A register reads zeros above its used width (R20). -/
theorem readReg_lt (s : State) (r : Reg) : (readReg s r).toNat < 2 ^ r.usedWidth := by
  cases r
  case cmd | addr | ttbase | ptr | on | off | ttlim | finfo => exact BitVec.isLt _
  case data | carrier | pairs | width | index | carlat => exact (byte_setWidth_toNat _).trans_lt (BitVec.isLt _)
  case status =>
    have hcode := s.flt.fcode.isLt
    have hphase := s.phaseOn.toNat_le
    have harmed := s.emitter.armed.toNat_le
    have hfault := s.flt.fault.toNat_le
    have hbusy := s.busy.toNat_le
    rw [readReg, statusWord_toNat, Reg.usedWidth]
    omega
  case buf =>
    have hbits := s.cursor.nbits.isLt
    have hbyte := s.cursor.bbyte.isLt
    rw [readReg, bufWord_toNat, Reg.usedWidth]
    omega

/-- Settles O8: the line only adds the register's value to the host's results; then the values, register by register. -/
theorem hostReadHasNoSideEffect : Obligations.HostReadHasNoSideEffect := by
  intro s r p ts
  refine ⟨fun hs hp => ?line, readReg_lt s r, rfl, rfl, byte_setWidth_toNat _, byte_setWidth_toNat _,
    byte_setWidth_toNat _, byte_setWidth_toNat _, rfl, rfl, rfl, rfl, byte_setWidth_toNat _, rfl, rfl,
    byte_setWidth_toNat _⟩
  refine ⟨_, step_of_host_line hs hp, ⟨rfl, rfl, rfl, rfl, rfl⟩, sameRom_of_eq rfl rfl, rfl, ?env⟩
  case env => simp [hostRead, setProg]

/-! ## The stop on a fault -/

/-- R23: the host sees FAULT in bit 1 of STATUS. -/
theorem status_bit1_iff_fault (s : State) : (readReg s .status).toNat / 2 % 2 = 1 ↔ s.flt.fault = true := by
  obtain ⟨-, hbit, -⟩ := statusFields s
  rw [hbit]
  exact Bool.toNat_eq_one

/-- Settles O51: the line reads STATUS, whose bit 1 is FAULT, and drops the rest of the program exactly on a fault. -/
theorem hostStopsOnFault : Obligations.HostStopsOnFault := by
  intro s p ts hs hp
  refine ⟨_, step_of_host_line hs hp, ⟨rfl, rfl, rfl, rfl, rfl⟩, rfl, ?reads, ?line⟩
  case reads => simp [hostRead, setProg]
  case line => exact (if_congr (status_bit1_iff_fault s) rfl rfl).symm

/-! ## Wakes -/

/-- A line of the host's program touches neither the recorded wakes nor the schedule (R209). -/
theorem runLine_wakes_schedule (line : HostLine) (rest : List HostLine) (s : State) :
    ∃ t, runLine line rest s = .next t ∧ t.env.wakes = s.env.wakes ∧ t.env.schedule = s.env.schedule := by
  cases line with
  | wr r v =>
    obtain ⟨k, hk, hwrite⟩ := hostWrite_eq_accept r v (setProg rest s)
    have henv := accept_env r (setProg rest s) hk
    exact ⟨_, hwrite, by rw [henv]; rfl, by rw [henv]; rfl⟩
  | wait => refine ⟨_, rfl, ?_, ?_⟩ <;> cases s.busy <;> rfl
  | rd | stopIfFault | pairLoop | feedback | pause => exact ⟨_, rfl, rfl, rfl⟩

/-- Settles O52: what the wake's turn writes, what the host's turn runs with a program, and what it starts without. -/
theorem wakeIsDeferred : Obligations.WakeIsDeferred := by
  intro s ts
  refine ⟨step_of_scheduled, fun line rest hs hp => ?program, fun k hs hp hw => ?cycle⟩
  case program =>
    obtain ⟨t, ht, hwakes, -⟩ := runLine_wakes_schedule line rest (s.setEnv { s.env with schedule := ts })
    have hstep := step_of_host_line hs hp
    exact ⟨hstep, t, hstep.trans ht, hwakes⟩
  case cycle =>
    simp only [step_of_scheduled hs, turn, hostTurn, State.setEnv_env, hp, hw]
    rfl

end Sys2Proof.Machine
end

section
/-!
Every long command ends (R213: O37): a count of the micro-steps that are left, which each of them brings down.
-/

namespace Sys2Proof.Machine

/-- The most micro-steps that are left in a state of the sequencer with so many pairs still to decode (R44): three for
each pair, and in PLAY_LOAD, which loads any number of pairs, as many as for the 255 that PAIRS can hold. -/
def Seq.microStepsLeft (q : Seq) (pairs : Nat) : Nat :=
  match q with
  | .idle | .halted => 0
  | .emitOn => 2
  | .emitOff => 1
  | .playLoad => 769
  | .playArm | .playOff => 3 * pairs + 3
  | .playNext => 3 * pairs + 2
  | .playOn => 3 * pairs + 4
  | .playClr => 2
  | .playDisarm => 1

/-- The micro-steps the block has left, at most. -/
def State.microStepsLeft (s : State) : Nat := s.seq.microStepsLeft s.regs.pairs.toNat

theorem microStepsLeft_le (s : State) : s.microStepsLeft ≤ 769 := by
  have hpairs := s.regs.pairs.isLt
  unfold State.microStepsLeft
  cases s.seq <;> simp only [Seq.microStepsLeft] <;> omega

/-- Where PLAY goes after a pair, the pairs that are left are to come, then CLR and DISARM (R44, R184). -/
theorem microStepsLeft_afterPair (s : State) :
    (afterPair s).microStepsLeft s.regs.pairs.toNat = 3 * s.regs.pairs.toNat + 2 := by
  rcases afterPair_cases s with ⟨hp, e⟩ | ⟨-, e⟩ <;> rw [e]
  · rw [hp]
    rfl
  · rfl

/-- PLAY_NEXT, where it begins a pair, leaves one less to decode (R135, R183). -/
theorem pairs_of_playNext {s : State} (hs : s.seq = .playNext) (hon : (microStep s).seq = .playOn) :
    (microStep s).regs.pairs.toNat + 1 = s.regs.pairs.toNat := by
  obtain ⟨u, ho, e⟩ := microStep_playNext_eq hs hon
  obtain ⟨-, hp, v, c, on, off, -, -, -, -, rfl⟩ := nextOp_eq_ok.mp ho
  rw [e]
  show (s.regs.pairs - 1#8).toNat + 1 = _
  bv_omega

/-- Every micro-step of a busy block brings the count down: the rows of R44, one by one. -/
theorem microStepsLeft_microStep {s : State} (hb : s.busy = true) :
    (microStep s).microStepsLeft < s.microStepsLeft := by
  have row := microStepOrder s
  obtain ⟨-, -, frame, -⟩ := microStep_frame s
  unfold State.microStepsLeft
  cases hs : s.seq <;> simp only [hs] at row
  case idle | halted => simp [State.busy, hs, Seq.busy] at hb
  case emitOn | emitOff | playClr | playDisarm => simp [row, Seq.microStepsLeft]
  case playLoad =>
    have hpairs := (microStep s).regs.pairs.isLt
    rcases row with row | ⟨row, -⟩ <;> simp only [row, Seq.microStepsLeft] <;> omega
  case playArm | playOff =>
    obtain ⟨hpairs, -⟩ := frame.pairs (by simp [hs]) (by simp [hs])
    have hafter : (microStep s).seq = afterPair s := row
    rw [hafter, hpairs, microStepsLeft_afterPair]
    exact Nat.lt_succ_self _
  case playOn =>
    obtain ⟨hpairs, -⟩ := frame.pairs (by simp [hs]) (by simp [hs])
    rw [row, hpairs]
    exact Nat.lt_succ_self _
  case playNext =>
    rcases row with row | ⟨row, -⟩
    · have hpairs := pairs_of_playNext hs row
      simp only [row, Seq.microStepsLeft]
      omega
    · simp [row, Seq.microStepsLeft]

/-- A block that is not busy stays as it is (R44). -/
theorem microSteps_of_not_busy {s : State} (hb : s.busy = false) (k : Nat) : microSteps k s = s := by
  induction k with
  | zero => rfl
  | succ k ih => rw [microSteps, microStep_of_not_busy hb, ih]

theorem microSteps_not_busy {k : Nat} {s : State} (h : s.microStepsLeft ≤ k) : (microSteps k s).busy = false := by
  induction k generalizing s with
  | zero =>
    refine Bool.eq_false_iff.mpr fun hb => ?_
    have hdown := microStepsLeft_microStep (s := s) hb
    omega
  | succ k ih =>
    cases hb : s.busy
    case false => rwa [microSteps_of_not_busy hb]
    case true =>
      have hdown := microStepsLeft_microStep hb
      exact ih (by omega)

/-- Settles O37: no state has more than 769 micro-steps left. -/
theorem longCommandsEnd : Obligations.LongCommandsEnd := fun s => microSteps_not_busy (microStepsLeft_le s)

end Sys2Proof.Machine
end

section
/-!
A blast cycle without fault (R207, R208, R212: O53). The free run of the block is followed code by code, and the host's
other state (no wake left, nothing scheduled) is kept by every step of it.
-/

namespace Sys2Proof.Machine

/-! ## The wakes and the schedule -/

/-- Nothing is scheduled, and no wake is recorded: no blast cycle is to come. -/
structure State.unwoken (s : State) : Prop where
  schedule : s.env.schedule = []
  wakes : s.env.wakes = 0

/-- The free turns record no wake and schedule nothing. -/
theorem State.unwoken.step {s : State} (h : s.unwoken) : ∃ t, step s = .next t ∧ t.unwoken := by
  rcases step_cases s with ⟨t, ts, hs, -⟩ | ⟨-, -, e⟩ | ⟨-, -, -, e⟩ | ⟨-, -, -, e⟩
  · simp [h.schedule] at hs
  · refine ⟨_, e, ?_⟩
    rcases releaseReset_cases s with ⟨-, e⟩ | ⟨-, e⟩ <;> rw [e] <;> exact ⟨h.schedule, h.wakes⟩
  · obtain ⟨-, henv, -⟩ := microStep_frame (freeCarrier s)
    exact ⟨_, e, by rw [henv]; exact h.schedule, by rw [henv]; exact h.wakes⟩
  · rw [e, turn, hostTurn]
    split
    next line rest _ =>
      obtain ⟨t, ht, hwakes, hsched⟩ := runLine_wakes_schedule line rest (freeCarrier s)
      exact ⟨t, ht, hsched.trans h.schedule, hwakes.trans h.wakes⟩
    next =>
      have hwakes : (freeCarrier s).env.wakes = 0 := h.wakes
      rw [hwakes]
      exact ⟨_, rfl, h.schedule, h.wakes⟩

theorem State.unwoken.run {k : Nat} {s u : State} (h : s.unwoken) (hu : Host.Core.run core k s = .next u) :
    u.unwoken := by
  induction k generalizing s with
  | zero =>
    obtain rfl := Host.Outcome.next.inj hu
    exact h
  | succ k ih =>
    obtain ⟨t, ht, hkeep⟩ := h.step
    exact ih hkeep ((run_succ ht).symm.trans hu)

/-! ## The lines after a code -/

section
variable {b : State} {l : List HostLine}

/-- Without a fault the host goes on after a code (R207). -/
theorem Leads.stopIfFault (hr : b.ready = true) : Leads 1 b (.stopIfFault :: l) b l :=
  .single fun t ht => by
    obtain ⟨-, hf, hb⟩ := ready_iff.mp hr
    have hfault : (freeCarrier t).flt.fault = false := by
      rw [← hf, ← ht.block]
      rfl
    refine ⟨_, ?_, ht.of_setProg.of_hostRead .status⟩
    rw [ht.step_line hb, runLine, hfault]
    rfl

/-- A line that only logs an event of the host (R212). -/
theorem Leads.logLine {line : HostLine} {o : Obs} (hb : b.busy = false)
    (hline : ∀ rest s, runLine line rest s = .next ((setProg rest s).log o)) : Leads 1 b (line :: l) (b.log o) l :=
  .single fun t ht => by
    have hs : Stands b l (setProg l (freeCarrier t)) := ht.of_setProg
    refine ⟨_, (ht.step_line hb).trans (hline l _), ?_, hs.schedule, hs.rst, hs.prog⟩
    rw [← hs.block]
    rfl

end

/-! ## Code by code -/

/-- A code lies whole in the ROM or does not whatever else the block holds: the ROM, its size and TTLIM decide. -/
theorem codeOk_of_eq {s t : State} {a : Word} (hr : t.rom = s.rom) (hp : t.params = s.params)
    (hl : t.regs.ttlim = s.regs.ttlim) (h : s.codeOk a) : t.codeOk a := by
  unfold State.codeOk State.present at h ⊢
  rwa [hr, hp, hl]

/-- From `s` to `b` the block has been at work and is idle and ready again, with the events `e` logged. -/
structure IdleAfter (s : State) (e : List Obs) (b : State) : Prop where
  ready : b.ready = true
  seq : b.seq = .idle
  rom : b.rom = s.rom
  params : b.params = s.params
  ttlim : b.regs.ttlim = s.regs.ttlim
  trace : b.trace = s.trace ++ e

theorem IdleAfter.log {s b : State} {e : List Obs} (h : IdleAfter s e b) (o : Obs) :
    IdleAfter s (e ++ [o]) (b.log o) where
  ready := h.ready
  seq := h.seq
  rom := h.rom
  params := h.params
  ttlim := h.ttlim
  trace := by rw [State.log_trace, h.trace, List.append_assoc]

theorem IdleAfter.trans {s b c : State} {e f : List Obs} (h : IdleAfter s e b) (h' : IdleAfter b f c) :
    IdleAfter s (e ++ f) c where
  ready := h'.ready
  seq := h'.seq
  rom := h'.rom.trans h.rom
  params := h'.params.trans h.params
  ttlim := h'.ttlim.trans h.ttlim
  trace := by rw [h'.trace, h.trace, List.append_assoc]

/-- PLAYC of a code that lies whole in the ROM, whatever follows it (R93, R180 to R187). -/
theorem leads_playCode {s : State} {a : Word} (hr : s.ready = true) (hseq : s.seq = .idle) (hc : s.codeOk a)
    (l : List HostLine) :
    ∃ k b, IdleAfter s (codeEvents s.rom a) b ∧ Leads k s (playCode a ++ l) b l := by
  obtain ⟨b, hplayed, hplay⟩ := leads_play (s := storeReg s .addr a) hr hseq hc (.wait :: l)
  obtain ⟨hrst, hf, -⟩ := ready_iff.mp hplayed.ready
  have idle : IdleAfter s (codeEvents s.rom a) ((afterDisarm (afterClrbuf b)).setSeq .idle) :=
    { ready := ready_iff.mpr ⟨hrst, hf, rfl⟩
      seq := rfl
      rom := hplayed.rom
      params := hplayed.params
      ttlim := hplayed.ttlim
      trace := hplayed.afterDisarm_trace }
  exact ⟨_, _, idle, (Leads.store (r := .addr) hr nofun).trans
    ((Leads.command (b := storeReg s .addr a) hr rfl (opOf_play _)).trans (hplay.trans (.wait rfl)))⟩

/-- The events of one code of a blast cycle: the code's own, then Feedback and the pause (R207, R212). -/
def blastEvents (m : List Host.Cell) (pauseMs : Nat) (a : Word) : List Obs :=
  codeEvents m a ++ [.feedback, .pause pauseMs]

/-- One code of the blast cycle (R207). -/
theorem leads_blastCode {s : State} {a : Word} (hr : s.ready = true) (hseq : s.seq = .idle) (hc : s.codeOk a)
    (ms : Nat) (l : List HostLine) :
    ∃ k b, IdleAfter s (blastEvents s.rom ms a) b ∧ Leads k s (blastCode ms a ++ l) b l := by
  obtain ⟨k, b, idle, hplay⟩ := leads_playCode hr hseq hc (.stopIfFault :: .feedback :: .pause ms :: l)
  obtain ⟨-, -, hb⟩ := ready_iff.mp idle.ready
  have hfeedback : Leads 1 b (.feedback :: .pause ms :: l) (b.log .feedback) (.pause ms :: l) :=
    .logLine hb fun _ _ => rfl
  have hpause : Leads 1 (b.log .feedback) (.pause ms :: l) ((b.log .feedback).log (.pause ms)) l :=
    .logLine hb fun _ _ => rfl
  have events : blastEvents s.rom ms a = codeEvents s.rom a ++ [.feedback] ++ [.pause ms] := by
    rw [List.append_assoc]
    rfl
  rw [events]
  exact ⟨_, _, (idle.log .feedback).log (.pause ms),
    hplay.trans ((Leads.stopIfFault idle.ready).trans (hfeedback.trans hpause))⟩

/-- A list of codes that lie whole in the ROM, one after the other (R208). -/
theorem leads_blastCodes {codes : List Word} (ms : Nat) {s : State} (hr : s.ready = true) (hseq : s.seq = .idle)
    (hc : ∀ a ∈ codes, s.codeOk a) :
    ∃ k b, IdleAfter s (codes.flatMap (blastEvents s.rom ms)) b ∧ Leads k s (codes.flatMap (blastCode ms)) b [] := by
  induction codes generalizing s with
  | nil => exact ⟨0, s, ⟨hr, hseq, rfl, rfl, rfl, (List.append_nil _).symm⟩, .refl s []⟩
  | cons a codes ih =>
    obtain ⟨ha, hrest⟩ := List.forall_mem_cons.mp hc
    obtain ⟨j, b, hfirst, hlead⟩ := leads_blastCode hr hseq ha ms (codes.flatMap (blastCode ms))
    obtain ⟨k, c, hlast, hlead'⟩ := ih hfirst.ready hfirst.seq fun a' ha' =>
      codeOk_of_eq hfirst.rom hfirst.params hfirst.ttlim (hrest a' ha')
    rw [hfirst.rom] at hlast
    exact ⟨j + k, c, hfirst.trans hlast, hlead.trans hlead'⟩

/-! ## The cycle -/

/-- With nothing scheduled and no program left, a recorded wake starts a blast cycle (R209). -/
theorem step_of_wake {s : State} {k : Nat} (hr : s.ready = true) (hs : s.env.schedule = []) (hp : s.env.prog = [])
    (hw : s.env.wakes = k + 1) :
    ∃ t, step s = .next t ∧ Stands s.block (blastCycle s.params) t ∧ t.env.wakes = k := by
  obtain ⟨hrst, -, hb⟩ := ready_iff.mp hr
  refine ⟨(freeCarrier s).setEnv { (freeCarrier s).env with prog := blastCycle s.params, wakes := k }, ?_,
    ⟨rfl, hs, hrst, rfl⟩, rfl⟩
  simp [step, takeTurn, freeTurn, hs, hrst, hb, turn, hostTurn, hp, hw]

/-- Settles O53: the wake's turn, then the codes of both lists by `leads_blastCodes`, no further wake being recorded. -/
theorem blastCycleTrace : Obligations.BlastCycleTrace := by
  intro s hr hseq hs hp hw hc
  obtain ⟨-, hf, hb⟩ := ready_iff.mp hr
  obtain ⟨t, hstart, ht, hwakes⟩ := step_of_wake hr hs hp hw
  obtain ⟨k, b, idle, hlead⟩ := leads_blastCodes (s := s.block) s.params.pauseMs (ready_iff.mpr ⟨rfl, hf, hb⟩) hseq hc
  obtain ⟨u, hrun, hu⟩ := hlead t ht
  have hcalm : u.unwoken := State.unwoken.run ⟨ht.schedule, hwakes⟩ hrun
  obtain ⟨-, hfault, hbusy⟩ := ready_iff.mp (hu.ready_eq.trans idle.ready)
  have hidle : u.seq = .idle := (congrArg State.seq hu.block).trans idle.seq
  refine ⟨k + 1, u, (run_succ hstart).trans hrun, ?good, hcalm.wakes, (congrArg State.trace hu.block).trans idle.trace⟩
  case good => simp [State.goodEnd, State.runOver, hu.prog, hcalm.wakes, hbusy, hidle, hfault]

end Sys2Proof.Machine
end

section
/-!
Faults and the halted state: the two clocks (R246: O31), a fault that is precise (R241: O39, O14, O25), the state that
fault entry leaves (R233, R240: O38, O7), and that only a reset ends it (R240, R244: O40).
-/

namespace Sys2Proof.Machine

/-! ## The two clocks -/

/-- The generator reads and writes nothing of the unit timer (R157). -/
theorem carCycles_setTimer (k : Nat) (s : State) (d : Word) (p : Nat) :
    carCycles k (s.setTimer d p) = (carCycles k s).setTimer d p := rfl

theorem carCycles_endPhase (k : Nat) (s : State) : carCycles k (endPhase s) = endPhase (carCycles k s) := by
  unfold endPhase
  rw [carCycles_seq]
  split <;> rfl

theorem carCycles_passPhase (k : Nat) (s : State) : carCycles k (passPhase s) = passPhase (carCycles k s) := by
  have hover : (carCycles k s).phaseOver = s.phaseOver := rfl
  cases h : s.phaseOver
  case false => rw [passPhase_of_running h, passPhase_of_running (hover.trans h)]
  case true => rw [passPhase_of_over h, passPhase_of_over (hover.trans h), carCycles_endPhase]

theorem carCycles_settle (k : Nat) (s : State) : carCycles k (settle s) = settle (carCycles k s) := by
  rw [settle, settle, carCycles_passPhase, carCycles_passPhase]

theorem carCycles_countCycle (k : Nat) (s : State) : carCycles k (countCycle s) = countCycle (carCycles k s) := by
  unfold countCycle
  rw [carCycles_pre, carCycles_params]
  split
  case isTrue => exact carCycles_setTimer k s s.emitter.dcnt (s.emitter.pre + 1)
  case isFalse => exact carCycles_setTimer k s (s.emitter.dcnt - 1#16) 0

/-- A `clk` cycle and any number of `car_clk` cycles commute (R246). -/
theorem carCycles_clkCycle (k : Nat) (s : State) : carCycles k (clkCycle s) = clkCycle (carCycles k s) := by
  rw [clkCycle, clkCycle, ← carCycles_settle, carCycles_seq, ← carCycles_countCycle]
  exact apply_ite _ _ _ _

/-- Settles O31: the case of one `car_clk` cycle. -/
theorem clocksCommute : Obligations.ClocksCommute := carCycles_clkCycle 1

/-! ## Precise faults -/

/-- Settles O39: of the outcomes of a command and of a micro-step, those that are no fault leave FAULT at 0. -/
theorem faultsArePrecise : Obligations.FaultsArePrecise := by
  intro s hf
  refine ⟨fun i => ?command, fun hfault => ?microStep⟩
  case command =>
    obtain ⟨t, ht, -, -, -, houtcome⟩ := exec_frame i s
    refine ⟨t, ht, fun hfault => ?_⟩
    rcases houtcome with rfl | ⟨-, x, rfl⟩ | ho
    · simp [hf] at hfault
    · exact ⟨x, faultedAs_raise x s⟩
    · obtain ⟨hflt, -⟩ := opOf_shape ho
      simp [hflt, hf] at hfault
  case microStep =>
    obtain ⟨-, -, -, ⟨hflt, -⟩ | ⟨-, x, e⟩ | ⟨i, u, -, ho, e⟩⟩ := microStep_frame s
    · simp [hflt, hf] at hfault
    · exact ⟨x, e ▸ faultedAs_raise x s⟩
    · obtain ⟨hflt, -⟩ := opOf_shape ho
      simp [e, hflt, hf] at hfault

/-- Settles O14: the count is refused before any bit is read, with the word of the command. -/
theorem readBitsBadCount : Obligations.ReadBitsBadCount := by
  intro s n hr _ hn
  rw [BitVec.ofNat_add]
  exact ⟨_, exec_readBits_of_badCount hr hn, faultedAs_raise _ s⟩

/-- R243: EMIT's refusal, where there is a carrier to send and none that runs. -/
theorem emitOp_of_not_carrierRuns {s : State} (hu : s.useCarrier = true) (hc : s.carrierRuns = false) :
    emitOp s = .error ⟨.notArmed, s.regs.carrier.setWidth 16⟩ := by
  simp [emitOp, hu, hc]

/-- Settles O25: without ARMED or without CARLAT no carrier runs, and EMIT faults. -/
theorem emitNotArmedFaults : Obligations.EmitNotArmedFaults := by
  intro s hr hcar hoff
  have hstopped : s.carrierRuns = false := by
    refine Bool.eq_false_iff.mpr fun hruns => ?_
    obtain ⟨harmed, hlat⟩ := carrierRuns_iff.mp hruns
    rcases hoff with hoff | hoff
    · simp [harmed] at hoff
    · exact hlat hoff
  rw [BitVec.ofNat_toNat]
  exact exec_of_error hr (emitOp_of_not_carrierRuns (useCarrier_iff.mpr hcar) hstopped)

/-! ## The state that fault entry leaves -/

@[simp] theorem raise_busy (x : Trap) (s : State) : (raise x s).busy = false := rfl
@[simp] theorem raise_phaseOn (x : Trap) (s : State) : (raise x s).phaseOn = false := rfl

@[simp] theorem raise_irOut (x : Trap) (s : State) : (raise x s).irOut = false :=
  irOut_of_not_isPhase (s := raise x s) rfl

@[simp] theorem microStep_raise (x : Trap) (s : State) : microStep (raise x s) = raise x s :=
  microStep_of_not_busy (raise_busy x s)

@[simp] theorem settle_raise (x : Trap) (s : State) : settle (raise x s) = raise x s :=
  settle_of_running (phaseOver_of_not_isPhase (s := raise x s) rfl)

/-- R202, R250: a host write is ignored while `rst` is high or FAULT is 1. -/
theorem hostWrite_of_blocked {s : State} (h : s.env.rst = true ∨ s.flt.fault = true) (r : Reg) (v : Word) :
    hostWrite r v s = .next s := by
  obtain ⟨k, -, hwrite⟩ := hostWrite_eq_accept r v s
  rw [hwrite, accept_of_blocked h]

/-- R201: a read leaves the block as it is. -/
theorem hostRead_sameBlock (r : Reg) (s : State) : s.sameBlock (hostRead r s) := ⟨rfl, rfl, rfl, rfl, rfl⟩

/-- R23: the host sees FCODE in bits 7:4 of STATUS. -/
theorem status_fcode (s : State) : (readReg s .status).toNat / 16 = s.flt.fcode.toNat := by
  obtain ⟨-, -, -, -, hcode⟩ := statusFields s
  exact hcode

/-- Settles O38: the fault record and its code of R230, then the halted state: nothing of the block moves any more. -/
theorem faultEntryHalts : Obligations.FaultEntryHalts := by
  intro x s
  refine ⟨faultedAs_raise x s, status_fcode (raise x s), rfl, ?codes, raise_busy x s, raise_phaseOn x s,
    raise_irOut x s, hostWrite_of_blocked (.inr rfl), fun r => ⟨hostRead_sameBlock r _, rfl⟩, microStep_raise x s,
    settle_raise x s⟩
  case codes => cases x.code <;> rfl

/-- Settles O7: the write is refused with BUSY_VIOLATION, which halts the block; a read goes on. -/
theorem busyWriteCutsTransmission : Obligations.BusyWriteCutsTransmission := by
  intro s hr hf hb
  refine ⟨fun r v => ?write, fun r => ⟨hostRead_sameBlock r s, rfl⟩⟩
  case write =>
    obtain ⟨k, -, hwrite⟩ := hostWrite_eq_accept r v s
    rw [hwrite, accept_of_busy hr hf hb, BitVec.ofNat_toNat]
    exact ⟨_, rfl, faultedAs_raise _ s, raise_irOut _ s, microStep_raise _ s⟩

/-! ## Turns that find the block at rest -/

/-- From `s` to `t` the block has done nothing: its parts are the same, the carrier's count and level apart, and it has
logged no event (R46). -/
structure State.rests (s t : State) : Prop where
  regs : t.regs = s.regs
  cursor : t.cursor = s.cursor
  seq : t.seq = s.seq
  flt : t.flt = s.flt
  emitter : t.block.emitter = s.block.emitter
  sameRom : s.sameRom t
  blockTrace : blockTrace t.trace = blockTrace s.trace

section
variable {s t : State}

theorem State.rests.of_block_eq (h : t.block = s.block) : s.rests t where
  regs := (congrArg State.regs h :)
  cursor := (congrArg State.cursor h :)
  seq := (congrArg State.seq h :)
  flt := (congrArg State.flt h :)
  emitter := (congrArg State.emitter h :)
  sameRom := sameRom_of_eq (congrArg State.rom h :) (congrArg State.params h :)
  blockTrace := (congrArg (fun u => Machine.blockTrace u.trace) h :)

theorem State.rests.trans {u : State} (h : s.rests t) (h' : t.rests u) : s.rests u where
  regs := h'.regs.trans h.regs
  cursor := h'.cursor.trans h.cursor
  seq := h'.seq.trans h.seq
  flt := h'.flt.trans h.flt
  emitter := h'.emitter.trans h.emitter
  sameRom :=
    have ⟨hparams, hrom, _⟩ := h.sameRom
    have ⟨hparams', hrom', _⟩ := h'.sameRom
    sameRom_of_eq (hrom'.trans hrom) (hparams'.trans hparams)
  blockTrace := h'.blockTrace.trans h.blockTrace

/-- An event of the host's is none of the block's (R212). -/
theorem State.rests.of_log {o : Obs} (ho : Machine.blockTrace [o] = []) (l : List HostLine) :
    s.rests ((setProg l s).log o) := by
  have hsplit : Machine.blockTrace (s.trace ++ [o]) = Machine.blockTrace s.trace ++ Machine.blockTrace [o] :=
    List.filter_append ..
  exact ⟨rfl, rfl, rfl, rfl, rfl, sameRom_of_eq rfl rfl, hsplit.trans (by rw [ho, List.append_nil])⟩

/-- A line of the host's program, where no write is taken, leaves the block at rest. -/
theorem runLine_rests (h : s.env.rst = true ∨ s.flt.fault = true) (line : HostLine) (rest : List HostLine) :
    ∃ t, runLine line rest s = .next t ∧ s.rests t := by
  cases line with
  | wr r v => exact ⟨_, hostWrite_of_blocked (s := setProg rest s) h r v, .of_block_eq rfl⟩
  | wait => exact ⟨_, rfl, .of_block_eq (by cases s.busy <;> rfl)⟩
  | rd | stopIfFault | pairLoop => exact ⟨_, rfl, .of_block_eq rfl⟩
  | feedback | pause => exact ⟨_, rfl, .of_log rfl rest⟩

theorem hostTurn_rests (h : s.env.rst = true ∨ s.flt.fault = true) : ∃ t, hostTurn s = .next t ∧ s.rests t := by
  unfold hostTurn
  split
  next line rest _ => exact runLine_rests h line rest
  next => split <;> exact ⟨_, rfl, .of_block_eq rfl⟩

/-- A block that is not busy and takes no write is left at rest by every turn but one that changes `rst`. -/
theorem turn_rests (h : s.env.rst = true ∨ s.flt.fault = true) (hb : s.busy = false) {tn : Turn}
    (hhigh : tn ≠ .rstHigh) (hlow : tn = .rstLow → s.env.rst = false) :
    ∃ t, turn tn s = .next t ∧ s.rests t := by
  cases tn with
  | host => exact hostTurn_rests h
  | micro =>
    have hb' : (freeCarrier s).busy = false := hb
    exact ⟨_, rfl, .of_block_eq (by rw [microStep_of_not_busy hb']; rfl)⟩
  | clk =>
    have hphase : s.seq.isPhase = false := by
      refine Bool.eq_false_iff.mpr fun hq => ?_
      simp [State.busy, busy_of_isPhase hq] at hb
    exact ⟨_, rfl, .of_block_eq (congrArg State.block (clkCycles_of_not_isPhase hphase 1))⟩
  | carClk => exact ⟨_, rfl, .of_block_eq rfl⟩
  | wake => exact ⟨_, rfl, .of_block_eq rfl⟩
  | rstHigh => exact absurd rfl hhigh
  | rstLow =>
    have hstays : releaseReset s = s := by simp [releaseReset, hlow rfl]
    exact ⟨_, congrArg Host.Outcome.next hstays, .of_block_eq rfl⟩

/-- A halted block stays at rest in every step that does not begin with the rise of `rst`. -/
theorem step_rests (hr : s.env.rst = false) (hf : s.flt.fault = true) (hb : s.busy = false)
    (hhigh : s.env.schedule.head? ≠ some .rstHigh) : ∃ t, step s = .next t ∧ s.rests t := by
  rcases step_cases s with ⟨tn, ts, hs, e⟩ | ⟨-, hrst, -⟩ | ⟨-, -, hbusy, -⟩ | ⟨-, -, -, e⟩
  · have hne : tn ≠ .rstHigh := fun htn => hhigh (by rw [hs, htn]; rfl)
    obtain ⟨t, ht, hrests⟩ := turn_rests (s := s.setEnv { s.env with schedule := ts }) (.inr hf) hb hne fun _ => hr
    have hstart : s.rests (s.setEnv { s.env with schedule := ts }) := .of_block_eq rfl
    exact ⟨t, e.trans ht, hstart.trans hrests⟩
  · simp [hr] at hrst
  · simp [hb] at hbusy
  · obtain ⟨t, ht, hrests⟩ := turn_rests (s := freeCarrier s) (tn := .host) (.inr hf) hb nofun nofun
    have hstart : s.rests (freeCarrier s) := .of_block_eq rfl
    exact ⟨t, e.trans ht, hstart.trans hrests⟩

end

/-- Settles O40: the block rests in the step, and what rests keeps each part of it. -/
theorem onlyResetLeavesHalted : Obligations.OnlyResetLeavesHalted := by
  intro s hr hf hseq hhigh
  have hb : s.busy = false := by rw [State.busy, hseq]; rfl
  obtain ⟨t, ht, hrests⟩ := step_rests hr hf hb hhigh
  have hhalted : t.seq = .halted := hrests.seq.trans hseq
  have hemitter := hrests.emitter
  exact ⟨t, ht, hrests.regs, hrests.cursor, hhalted, hrests.flt, (congrArg Emitter.flag hemitter :),
    (congrArg Emitter.dcnt hemitter :), (congrArg Emitter.pre hemitter :), (congrArg Emitter.armed hemitter :),
    irOut_of_not_isPhase (by rw [hhalted]; rfl), hrests.sameRom, hrests.blockTrace⟩

end Sys2Proof.Machine
end

section
/-!
Reset (R250): its two edges (R252: O41), and that the block stays at its reset values in between (R235: O57).
-/

namespace Sys2Proof.Machine

/-! ## The level of `rst` -/

theorem passPhase_env (s : State) : (passPhase s).env = s.env := by
  unfold passPhase
  split
  case isTrue => exact endPhase_env s
  case isFalse => rfl

/-- A `clk` cycle is the block's own: it touches none of the other agents. -/
theorem clkCycle_env (s : State) : (clkCycle s).env = s.env := by
  have hsettle : (settle s).env = s.env := (passPhase_env _).trans (passPhase_env s)
  unfold clkCycle
  split
  case isTrue => rcases countCycle_cases (settle s) with ⟨-, e⟩ | ⟨-, e⟩ <;> rw [e] <;> exact hsettle
  case isFalse => exact hsettle

theorem runLine_rst (line : HostLine) (rest : List HostLine) (s : State) :
    ∃ u, runLine line rest s = .next u ∧ u.env.rst = s.env.rst := by
  cases line with
  | wr r v =>
    obtain ⟨k, hk, hwrite⟩ := hostWrite_eq_accept r v (setProg rest s)
    exact ⟨_, hwrite, by rw [accept_env r _ hk]; rfl⟩
  | wait => exact ⟨_, rfl, by cases s.busy <;> rfl⟩
  | rd | stopIfFault | pairLoop | feedback | pause => exact ⟨_, rfl, rfl⟩

/-- Only the two turns that are its edges move `rst` (log 13). -/
theorem turn_rst {tn : Turn} (hhigh : tn ≠ .rstHigh) (hlow : tn ≠ .rstLow) (s : State) :
    ∃ u, turn tn s = .next u ∧ u.env.rst = s.env.rst := by
  cases tn with
  | host =>
    rw [turn, hostTurn]
    split
    next line rest _ => exact runLine_rst line rest s
    next => split <;> exact ⟨_, rfl, rfl⟩
  | micro =>
    obtain ⟨-, henv, -⟩ := microStep_frame (freeCarrier s)
    exact ⟨_, rfl, by rw [henv, freeCarrier_rst]⟩
  | clk => exact ⟨_, rfl, by rw [clkCycle_env]⟩
  | carClk | wake => exact ⟨_, rfl, rfl⟩
  | rstHigh => exact absurd rfl hhigh
  | rstLow => exact absurd rfl hlow

/-! ## The two edges -/

/-- The fall of `rst`, where it was high: the input goes low and one Reset event is logged (R250, R252). -/
theorem turn_rstLow {s : State} (hr : s.env.rst = true) :
    turn .rstLow s = .next ((s.setEnv { s.env with rst := false }).log .reset) := by
  simp [turn, releaseReset, hr]

/-- With nothing scheduled, `rst` falls if it is high (log 13). -/
theorem step_of_rst_high {s : State} (h : s.env.schedule = []) (hr : s.env.rst = true) : step s = turn .rstLow s := by
  simp [step, takeTurn, freeTurn, h, hr]

/-- Settles O41: each edge is the scheduled turn, and its next state is written out. -/
theorem resetRestoresBlock : Obligations.ResetRestoresBlock := by
  intro s ts
  refine ⟨fun hs => ?rise, fun hs hr => ?fall⟩
  case rise =>
    exact ⟨_, step_of_scheduled hs, rfl, rfl, rfl, rfl, rfl, irOut_of_not_isPhase rfl, rfl, sameRom_of_eq rfl rfl, rfl⟩
  case fall =>
    have hfall := turn_rstLow (s := s.setEnv { s.env with schedule := ts }) hr
    exact ⟨_, (step_of_scheduled hs).trans hfall, ⟨rfl, rfl, rfl, rfl, rfl⟩, rfl, sameRom_of_eq rfl rfl, rfl⟩

/-! ## While `rst` is high -/

section
variable {s : State}

/-- Two states held in reset have the same block, the one of R49. -/
theorem sameBlock_of_held {u : State} (hr : s.env.rst = true) (hs : s.resetOk) (hr' : u.env.rst = true)
    (hu : u.resetOk) : s.sameBlock u := by
  obtain ⟨hregs, hcursor, hemitter, hseq, hflt⟩ := hs hr
  obtain ⟨hregs', hcursor', hemitter', hseq', hflt'⟩ := hu hr'
  exact ⟨hregs'.trans hregs.symm, hcursor'.trans hcursor.symm, hemitter'.trans hemitter.symm, hseq'.trans hseq.symm,
    hflt'.trans hflt.symm⟩

theorem irOut_of_held (hr : s.env.rst = true) (hs : s.resetOk) : s.irOut = false := by
  obtain ⟨-, -, -, hseq, -⟩ := hs hr
  exact irOut_of_not_isPhase (by rw [hseq]; rfl)

/-- R235, R250: a turn that finds the block held in reset, and is not the fall of `rst`, leaves it held, the ROM as it
is, and logs no event of the block's. A further rise of `rst` is one of these turns. -/
theorem turn_of_held (hr : s.env.rst = true) (hs : s.resetOk) {tn : Turn} (hlow : tn ≠ .rstLow) :
    ∃ u, turn tn s = .next u ∧ u.env.rst = true ∧ u.resetOk ∧ s.sameRom u ∧
      blockTrace u.trace = blockTrace s.trace := by
  obtain ⟨u, hu, hkept⟩ := resetOk_kept.turn hs tn
  by_cases hhigh : tn = .rstHigh
  case pos =>
    subst hhigh
    obtain rfl := Host.Outcome.next.inj hu
    exact ⟨_, rfl, rfl, hkept, sameRom_of_eq rfl rfl, rfl⟩
  case neg =>
    have hb : s.busy = false := by
      obtain ⟨-, -, -, hseq, -⟩ := hs hr
      rw [State.busy, hseq]
      rfl
    obtain ⟨v, hv, hrests⟩ := turn_rests (.inl hr) hb hhigh fun h => absurd h hlow
    obtain rfl := Host.Outcome.next.inj (hu.symm.trans hv)
    obtain ⟨w, hw, hrst⟩ := turn_rst hhigh hlow s
    obtain rfl := Host.Outcome.next.inj (hu.symm.trans hw)
    exact ⟨u, hu, hrst.trans hr, hkept, hrests.sameRom, hrests.blockTrace⟩

end

/-- Settles O57: no write is taken; the block is held from turn to turn, so it stays the one of R49; its fall ends
that. -/
theorem resetHoldsTheBlock : Obligations.ResetHoldsTheBlock := by
  intro s hr hs
  refine ⟨hostWrite_of_blocked (.inl hr), fun tn ts hsched hlow => ?held, fun hsched => ?fall⟩
  case held =>
    obtain ⟨u, hu, hr', hs', hrom, htrace⟩ := turn_of_held (s := s.setEnv { s.env with schedule := ts }) hr hs hlow
    exact ⟨u, (step_of_scheduled hsched).trans hu, sameBlock_of_held hr hs hr' hs', irOut_of_held hr' hs', hr', hrom,
      htrace⟩
  case fall =>
    exact ⟨_, (step_of_rst_high hsched hr).trans (turn_rstLow hr), ⟨rfl, rfl, rfl, rfl, rfl⟩, sameRom_of_eq rfl rfl,
      rfl, rfl⟩

end Sys2Proof.Machine
end
